-- ==== Sys2Proof/Word.lean ====
section
/-!
DEFINITION. The word types of the block: 32-bit register words (00_scope.md R10 `REG_W`), bytes of the bus, channel
and pair numbers, and the value a signal carries (a pin's 1 bit or a port's up to 64 bits, 10_state.md R32).
-/

namespace Sys2Proof

/-- A register word: every DMA register is 32 bits wide (00_scope.md R10). -/
abbrev Word := BitVec 32

/-- A byte of the bus address space. -/
abbrev Byte := BitVec 8

/-- A channel number n = 0..7 (00_scope.md R10 `NCH`). -/
abbrev Chan := Fin 8

/-- The index k = 0..3 of a CFG or STATUS word, shared by channels 2k and 2k+1 (00_scope.md R10 `CH_PER_PACKED`). -/
abbrev Pair := Fin 4

/-- A trigger source i = 0..31 of a channel (00_scope.md R10 `NTRIG`). -/
abbrev Source := Fin 32

/-- The value a signal carries. A pin's 0 or 1 is the word 0 or 1; a port uses its `portWidth` low bits
(10_state.md R32: 1 to 64). -/
abbrev SigVal := BitVec 64

/-- A diagnostic name, or a handle of another device's callback or context. No rule reads one (10_state.md R19, R32);
its width is the model's choice (notes/assumptions/2.md, DESIGN CHOICE). -/
abbrev Tag := BitVec 32

end Sys2Proof
end

