-- ==== Sys2Proof/Config.lean ====
section
/-!
DEFINITION. What an implementation fixes (the parameters of 00_scope.md R11 that are plain names or positions) and the
free values: the answers of the bus oracle and the draw after a failed read, which no rule constrains.
-/

namespace Sys2Proof

/-- The register byte order, a parameter (20_memory.md R45). -/
inductive ByteOrder where
  | little
  | big
deriving DecidableEq, Repr, Inhabited

/-- Which oracle answers the engine's bus requests. `oracle`: every answer is a draw under no law
(20_memory.md R46). `memory`: the platform's plain byte memory, which answers every request with ok = 1
(95_test_vectors.md, conventions). The parameter is the model's own (notes/assumptions/5.md, DESIGN CHOICE). -/
inductive BusKind where
  | oracle
  | memory
deriving DecidableEq, Repr, Inhabited

/-- The sensitivity of an input (10_state.md R32). -/
inductive Sens where
  | level
  | negedge
  | posedge
deriving DecidableEq, Repr, Inhabited

/-- The direction of a signal (10_state.md R32). -/
inductive Dir where
  | input
  | output
deriving DecidableEq, Repr, Inhabited

/-- The parameter `ctrlLayout` (30_encoding.md R63): where each field of a CTRL word begins. `srcInc` and `dstInc`
are 2 bits wide, `mode` 3 bits, every other field 1 bit. -/
structure CtrlLayout where
  /-- DMAREQ -/
  req : Nat
  /-- DMAEN -/
  en : Nat
  /-- DMALEVEL -/
  level : Nat
  /-- SRCBYTE -/
  srcByte : Nat
  /-- DSTBYTE -/
  dstByte : Nat
  /-- SRCINC, the lower of its 2 bits -/
  srcInc : Nat
  /-- DSTINC, the lower of its 2 bits -/
  dstInc : Nat
  /-- MODE, the lowest of its 3 bits -/
  mode : Nat
  /-- TEST -/
  test : Nat
deriving DecidableEq, Repr, Inhabited

/-- One answer of the bus oracle, or one draw after a failed read (20_memory.md R46, 43_dma_transfer.md R121).
For a MemRead: `ok` and the bytes returned. For a MemWrite: `ok`. After a failed read: `ok = true` is `writeAny`
with the bytes written, `ok = false` is `skip`. A byte unit uses the first byte only. -/
structure Answer where
  ok : Bool
  bytes : Vector Byte 4
deriving DecidableEq, Repr, Inhabited

/-- The free value: the k-th answer drawn. No body, so nothing can be proved of it (00_scope.md R13 `draw`;
notes/assumptions/4.md). -/
opaque Config.freeAnswer : Nat → Answer

end Sys2Proof
end

