-- ==== Sys2Proof/Syntax.lean ====
section
/-!
DEFINITION. The operations the block accepts (30_encoding.md R60): one constructor of `Instr` for each row of
spec/opcode_table.json, with the operands the row and its rule give it.
-/

namespace Sys2Proof

/-- The 48 registers of the block (10_state.md R20). -/
inductive RegId where
  | ctrl (n : Chan)
  | cfg (k : Pair)
  | src (n : Chan)
  | dst (n : Chan)
  | size (n : Chan)
  | status (k : Pair)
  | trigger (n : Chan)
deriving DecidableEq, Repr, Inhabited

/-- A pin: one of the block's 272 (10_state.md R33) or the k-th pin of other devices (`extPins`, R34). -/
inductive Pin where
  | ext (k : Nat)
  | trig (n : Chan) (i : Source)
  | done (n : Chan)
  | reqo (n : Chan)
deriving DecidableEq, Repr, Inhabited

/-- A signal is a pin or a port (10_state.md R32). The block owns no ports (R33), so a port is the k-th port of
other devices. -/
inductive Sig where
  | pin (p : Pin)
  | port (k : Nat)
deriving DecidableEq, Repr, Inhabited

/-- The mode operand of `createPin` (41_signal_fabric.md R83). -/
inductive PinMode where
  | out
  | inLevel
  | inNegedge
  | inPosedge
deriving DecidableEq, Repr, Inhabited

/-- The mode operand of `createPort` (41_signal_fabric.md R84). -/
inductive PortMode where
  | out
  | inp
deriving DecidableEq, Repr, Inhabited

/-- A register's permission (10_state.md R19): read-only, write-only, read-write. -/
inductive Perm where
  | ro
  | wo
  | rw
deriving DecidableEq, Repr, Inhabited

/-- The width of a register cell with its initial value and write mask, both of that width
(40_register_framework.md R76). -/
inductive CellInit where
  | w32 (init mask : BitVec 32)
  | w64 (init mask : BitVec 64)
deriving DecidableEq, Repr, Inhabited

/-- Whether an access reads (class 0) or writes (class 1): descriptor bit 12 of the reserved rows. -/
inductive Access where
  | read
  | write
deriving DecidableEq, Repr, Inhabited

/-- One operation on the block: a row of spec/opcode_table.json. -/
inductive Instr where
  /-- RD_CTRL (42_dma_registers.md R96) -/
  | rdCtrl (n : Chan)
  /-- WR_CTRL (R95) -/
  | wrCtrl (n : Chan) (v : Word)
  /-- RD_SRC (R100) -/
  | rdSrc (n : Chan)
  /-- WR_SRC (R99) -/
  | wrSrc (n : Chan) (v : Word)
  /-- RD_DST (R102) -/
  | rdDst (n : Chan)
  /-- WR_DST (R101) -/
  | wrDst (n : Chan) (v : Word)
  /-- RD_SIZE (R104) -/
  | rdSize (n : Chan)
  /-- WR_SIZE (R103) -/
  | wrSize (n : Chan) (v : Word)
  /-- RD_TRIGGER (R108) -/
  | rdTrigger (n : Chan)
  /-- WR_TRIGGER (R107) -/
  | wrTrigger (n : Chan) (v : Word)
  /-- RD_CFG (R98) -/
  | rdCfg (k : Pair)
  /-- WR_CFG (R97) -/
  | wrCfg (k : Pair) (v : Word)
  /-- RD_STATUS (R105) -/
  | rdStatus (k : Pair)
  /-- WR_STATUS (R106) -/
  | wrStatus (k : Pair) (v : Word)
  /-- PIN_WRITE (41_signal_fabric.md R86) -/
  | pinWrite (p : Pin) (b : Bool)
  /-- PORT_WRITE (R88): a port is named by its index alone, since the block owns none -/
  | portWrite (k : Nat) (v : SigVal)
  /-- BIND (R85) -/
  | bind (a b : Sig)
  /-- TEARDOWN (R94) -/
  | teardown
  /-- RESET (70_reset_and_hazards.md R146) -/
  | reset
  /-- CREATE_PIN (41_signal_fabric.md R83) -/
  | createPin (name : Tag) (mode : PinMode) (cb ctx : Option Tag)
  /-- CREATE_PORT (R84) -/
  | createPort (name : Tag) (mode : PortMode) (width : Nat) (cb ctx : Option Tag)
  /-- CREATE_REG (40_register_framework.md R76). R76 gives `offset` no width; it is 32 bits wide here (DESIGN CHOICE,
  notes/assumptions/2.md) -/
  | createReg (name : Tag) (offset : BitVec 32) (perm : Perm) (init : CellInit) (cb : Option Tag)
  /-- RSV_CH_OFF14 (30_encoding.md R73): offset 0x14 + 0x20·n -/
  | rsvChOff14 (d : Access) (n : Chan)
  /-- RSV_CH_OFF18_1C (R73): offset 0x18 (`hi = false`) or 0x1C (`hi = true`) + 0x20·n -/
  | rsvChOff18 (d : Access) (n : Chan) (hi : Bool)
  /-- RSV_OFF120_13C (R73): offset 0x120 + 4·m -/
  | rsvOff120 (d : Access) (m : Fin 8)
  /-- RSV_OFF140_17C (R73): offset 0x140 + 4·m -/
  | rsvOff140 (d : Access) (m : Fin 16)
  /-- RSV_OFF180_1FC (R73): offset 0x180 + 4·m -/
  | rsvOff180 (d : Access) (m : Fin 32)
  /-- RSV_MISALIGNED_B0 (20_memory.md R43): offset 2·m + 1, every offset with bit 0 set -/
  | rsvMisalignedB0 (d : Access) (m : Fin 256)
  /-- RSV_MISALIGNED_B1 (R43): offset 4·m + 2, the offsets with bit 1 set that RSV_MISALIGNED_B0 leaves -/
  | rsvMisalignedB1 (d : Access) (m : Fin 128)
  /-- RSV_CLS_10_11 (30_encoding.md R73): descriptor 0xA000 + rest -/
  | rsvCls10 (rest : BitVec 13)
  /-- RSV_CLS_12_15 (R73): descriptor 0xC000 + rest -/
  | rsvCls12 (rest : BitVec 14)
deriving DecidableEq, Repr, Inhabited

end Sys2Proof
end

