-- ==== Sys2Proof/WellFormed.lean ====
section
/-!
DEFINITION. Which operands an operation may carry: what the encoding can name and what the rules allow
(41_signal_fabric.md R84 for a port's width; notes/assumptions/2.md for the ranges of the model's operand words).
-/

namespace Sys2Proof

/-- A pin reference fits its operand word: an external index has 30 bits (notes/assumptions/2.md). -/
def Pin.wellFormed : Pin → Bool
  | .ext k => k < 2 ^ 30
  | .trig _ _ => true
  | .done _ => true
  | .reqo _ => true

/-- A signal reference fits its operand: a port index has 32 bits (notes/assumptions/2.md). -/
def Sig.wellFormed : Sig → Bool
  | .pin p => p.wellFormed
  | .port k => k < 2 ^ 32

/-- The checks on an operation's operands. Every other operand is bounded by its type. -/
def Instr.wellFormed : Instr → Bool
  | .rdCtrl _ => true
  | .wrCtrl _ _ => true
  | .rdSrc _ => true
  | .wrSrc _ _ => true
  | .rdDst _ => true
  | .wrDst _ _ => true
  | .rdSize _ => true
  | .wrSize _ _ => true
  | .rdTrigger _ => true
  | .wrTrigger _ _ => true
  | .rdCfg _ => true
  | .wrCfg _ _ => true
  | .rdStatus _ => true
  | .wrStatus _ _ => true
  | .pinWrite p _ => p.wellFormed
  | .portWrite k _ => k < 2 ^ 32
  | .bind a b => a.wellFormed && b.wellFormed
  | .teardown => true
  | .reset => true
  | .createPin _ _ _ _ => true
  | .createPort _ _ width _ _ => 1 ≤ width && width ≤ 64
  | .createReg _ _ _ _ _ => true
  | .rsvChOff14 _ _ => true
  | .rsvChOff18 _ _ _ => true
  | .rsvOff120 _ _ => true
  | .rsvOff140 _ _ => true
  | .rsvOff180 _ _ => true
  | .rsvMisalignedB0 _ _ => true
  | .rsvMisalignedB1 _ _ => true
  | .rsvCls10 _ => true
  | .rsvCls12 _ => true

end Sys2Proof
end

