-- ==== Sys2Proof/Decode.lean ====
section
/-!
DEFINITION. The decoder of an operation packet and its encoder. A packet is the 16-bit descriptor of
30_encoding.md R60, low byte first, and then the operand words. The descriptor's rows are those of
spec/opcode_table.json (R62, R73). The layout of the operands behind it is the model's own, since the spec gives none
(notes/assumptions/2.md, DESIGN CHOICE); only the register data word has a byte order the spec speaks of (R45).
-/

namespace Sys2Proof

/-- Why a packet names no operation. -/
inductive DecodeError where
  /-- fewer than the two bytes of a descriptor -/
  | truncatedDescriptor
  /-- no row of the opcode table has this descriptor (30_encoding.md R73(a2)) -/
  | reservedDescriptor (d : BitVec 16)
  /-- the operand bytes behind the descriptor are too few or hold a value outside an operand's range -/
  | malformedOperands (d : BitVec 16)
deriving DecidableEq, Repr

/-! ### Byte order helpers -/

/-- The four bytes of a word, least significant first. -/
def wordBytes (v : BitVec 32) : List Byte :=
  [v.extractLsb' 0 8, v.extractLsb' 8 8, v.extractLsb' 16 8, v.extractLsb' 24 8]

/-- The word of four bytes, least significant first. -/
def wordOfBytes (b0 b1 b2 b3 : Byte) : BitVec 32 := b3 ++ b2 ++ b1 ++ b0

/-- The 4-byte bus datum of a register value (20_memory.md R45): byte i is bits [8i+7:8i] in little-endian order,
bits [31-8i:24-8i] in big-endian order. -/
def datumBytes : ByteOrder → Word → List Byte
  | .little, v => wordBytes v
  | .big, v => (wordBytes v).reverse

/-- The register value of a 4-byte bus datum (20_memory.md R45). -/
def wordOfDatum : ByteOrder → Byte → Byte → Byte → Byte → Word
  | .little, b0, b1, b2, b3 => wordOfBytes b0 b1 b2 b3
  | .big, b0, b1, b2, b3 => wordOfBytes b3 b2 b1 b0

/-! ### Reading operands -/

/-- The next byte of a packet. -/
def takeByte : List Byte → Option (Byte × List Byte)
  | b :: bs => some (b, bs)
  | [] => none

/-- The next operand word, least significant byte first. -/
def takeWord : List Byte → Option (BitVec 32 × List Byte)
  | b0 :: b1 :: b2 :: b3 :: bs => some (wordOfBytes b0 b1 b2 b3, bs)
  | _ => none

/-- The next 64-bit operand: its low word, then its high word. -/
def takeDouble (bs : List Byte) : Option (BitVec 64 × List Byte) := do
  let (lo, bs) ← takeWord bs
  let (hi, bs) ← takeWord bs
  some (hi ++ lo, bs)

/-- The data word of a register write, in the register byte order (20_memory.md R45). -/
def takeDatum (bo : ByteOrder) : List Byte → Option (Word × List Byte)
  | b0 :: b1 :: b2 :: b3 :: bs => some (wordOfDatum bo b0 b1 b2 b3, bs)
  | _ => none

/-- A one-bit operand: the byte 0 or 1. -/
def takeBool (bs : List Byte) : Option (Bool × List Byte) := do
  let (b, bs) ← takeByte bs
  if b = 0 then some (false, bs) else if b = 1 then some (true, bs) else none

/-- An optional handle: the byte 0, or the byte 1 and the handle's word. -/
def takeTag? (bs : List Byte) : Option (Option Tag × List Byte) := do
  let (present, bs) ← takeBool bs
  if present then
    let (t, bs) ← takeWord bs
    some (some t, bs)
  else some (none, bs)

/-- The pin that a reference word names: bits [31:30] are 0 external, 1 trigger input, 2 done, 3 request. -/
def pinOfWord (w : BitVec 32) : Option Pin :=
  match (w.extractLsb' 30 2).toNat with
  | 0 => some (.ext (w.extractLsb' 0 30).toNat)
  | 1 => if w.extractLsb' 8 22 = 0 then
      some (.trig (Fin.ofNat 8 (w.extractLsb' 5 3).toNat) (Fin.ofNat 32 (w.extractLsb' 0 5).toNat)) else none
  | 2 => if w.extractLsb' 3 27 = 0 then some (.done (Fin.ofNat 8 (w.extractLsb' 0 3).toNat)) else none
  | _ => if w.extractLsb' 3 27 = 0 then some (.reqo (Fin.ofNat 8 (w.extractLsb' 0 3).toNat)) else none

/-- A pin operand. -/
def takePin (bs : List Byte) : Option (Pin × List Byte) := do
  let (w, bs) ← takeWord bs
  let p ← pinOfWord w
  some (p, bs)

/-- A signal operand: the byte 0 and a pin, or the byte 1 and a port's index. -/
def takeSig (bs : List Byte) : Option (Sig × List Byte) := do
  let (isPort, bs) ← takeBool bs
  if isPort then
    let (w, bs) ← takeWord bs
    some (.port w.toNat, bs)
  else
    let (p, bs) ← takePin bs
    some (.pin p, bs)

/-- The mode operand of a pin, in the order of 41_signal_fabric.md R83. -/
def takePinMode (bs : List Byte) : Option (PinMode × List Byte) := do
  let (b, bs) ← takeByte bs
  match b.toNat with
  | 0 => some (.out, bs)
  | 1 => some (.inLevel, bs)
  | 2 => some (.inNegedge, bs)
  | 3 => some (.inPosedge, bs)
  | _ => none

/-- The mode operand of a port, in the order of 41_signal_fabric.md R84. -/
def takePortMode (bs : List Byte) : Option (PortMode × List Byte) := do
  let (isIn, bs) ← takeBool bs
  some (if isIn then .inp else .out, bs)

/-- The width operand of a port: the byte holds the width less 1, so that it can be 1 to 64. -/
def takeWidth (bs : List Byte) : Option (Nat × List Byte) := do
  let (b, bs) ← takeByte bs
  if b.toNat < 64 then some (b.toNat + 1, bs) else none

/-- The permission operand of a register, in the order of 10_state.md R19. -/
def takePerm (bs : List Byte) : Option (Perm × List Byte) := do
  let (b, bs) ← takeByte bs
  match b.toNat with
  | 0 => some (.ro, bs)
  | 1 => some (.wo, bs)
  | 2 => some (.rw, bs)
  | _ => none

/-- The width, initial value and mask of a register cell. -/
def takeCellInit (bs : List Byte) : Option (CellInit × List Byte) := do
  let (wide, bs) ← takeBool bs
  if wide then
    let (init, bs) ← takeDouble bs
    let (mask, bs) ← takeDouble bs
    some (.w64 init mask, bs)
  else
    let (init, bs) ← takeWord bs
    let (mask, bs) ← takeWord bs
    some (.w32 init mask, bs)

/-! ### The descriptor -/

/-- The register at an offset of the window, or none where the offset holds none (30_encoding.md R62). -/
def regAt (off : BitVec 9) : Option RegId :=
  if off.extractLsb' 0 2 ≠ 0 then none
  else if off.extractLsb' 8 1 = 0 then
    let n : Chan := Fin.ofNat 8 (off.extractLsb' 5 3).toNat
    match (off.extractLsb' 2 3).toNat with
    | 0 => some (.ctrl n)
    | 1 => some (.src n)
    | 2 => some (.dst n)
    | 3 => some (.size n)
    | 4 => some (.trigger n)
    | _ => none
  else
    let k : Pair := Fin.ofNat 4 (off.extractLsb' 2 2).toNat
    match (off.extractLsb' 4 4).toNat with
    | 0 => some (.cfg k)
    | 1 => some (.status k)
    | _ => none

/-- The offset of a register (30_encoding.md R62). -/
def RegId.offset : RegId → Nat
  | .ctrl n => 0x20 * n.val
  | .src n => 0x20 * n.val + 0x004
  | .dst n => 0x20 * n.val + 0x008
  | .size n => 0x20 * n.val + 0x00C
  | .trigger n => 0x20 * n.val + 0x010
  | .cfg k => 0x100 + 4 * k.val
  | .status k => 0x110 + 4 * k.val

/-- The reserved row of an offset that holds no register (30_encoding.md R73(a), 20_memory.md R43). -/
def reservedAt (d : Access) (off : BitVec 9) : Instr :=
  if off.extractLsb' 0 1 = 1 then .rsvMisalignedB0 d (Fin.ofNat 256 (off.extractLsb' 1 8).toNat)
  else if off.extractLsb' 1 1 = 1 then .rsvMisalignedB1 d (Fin.ofNat 128 (off.extractLsb' 2 7).toNat)
  else if off.extractLsb' 8 1 = 0 then
    let n : Chan := Fin.ofNat 8 (off.extractLsb' 5 3).toNat
    if off.extractLsb' 3 1 = 0 then .rsvChOff14 d n else .rsvChOff18 d n (off.getLsbD 2)
  else if off.extractLsb' 7 1 = 1 then .rsvOff180 d (Fin.ofNat 32 (off.extractLsb' 2 5).toNat)
  else if off.extractLsb' 6 1 = 1 then .rsvOff140 d (Fin.ofNat 16 (off.extractLsb' 2 4).toNat)
  else .rsvOff120 d (Fin.ofNat 8 (off.extractLsb' 2 3).toNat)

/-- The read of a register. -/
def readOf : RegId → Instr
  | .ctrl n => .rdCtrl n
  | .cfg k => .rdCfg k
  | .src n => .rdSrc n
  | .dst n => .rdDst n
  | .size n => .rdSize n
  | .status k => .rdStatus k
  | .trigger n => .rdTrigger n

/-- The write of a data word to a register. -/
def writeOf (v : Word) : RegId → Instr
  | .ctrl n => .wrCtrl n v
  | .cfg k => .wrCfg k v
  | .src n => .wrSrc n v
  | .dst n => .wrDst n v
  | .size n => .wrSize n v
  | .status k => .wrStatus k v
  | .trigger n => .wrTrigger n v

/-- A register read (class 0): the register at the offset, or the reserved row. -/
def decodeRead (off : BitVec 9) (bs : List Byte) : Option (Instr × List Byte) :=
  match regAt off with
  | some r => some (readOf r, bs)
  | none => some (reservedAt .read off, bs)

/-- A register write (class 1). A write to an offset that holds no register is its reserved row, whatever its data. -/
def decodeWrite (bo : ByteOrder) (off : BitVec 9) (bs : List Byte) : Option (Instr × List Byte) :=
  match regAt off with
  | some r => do
      let (v, bs) ← takeDatum bo bs
      some (writeOf v r, bs)
  | none => some (reservedAt .write off, bs)

/-- The operands of the classes 2 to 9 (30_encoding.md R60). -/
def decodeOperands (cls : Nat) (bs : List Byte) : Option (Instr × List Byte) :=
  match cls with
  | 2 => do
      let (p, bs) ← takePin bs
      let (b, bs) ← takeBool bs
      some (.pinWrite p b, bs)
  | 3 => do
      let (k, bs) ← takeWord bs
      let (v, bs) ← takeDouble bs
      some (.portWrite k.toNat v, bs)
  | 4 => do
      let (a, bs) ← takeSig bs
      let (b, bs) ← takeSig bs
      some (.bind a b, bs)
  | 5 => some (.teardown, bs)
  | 6 => some (.reset, bs)
  | 7 => do
      let (name, bs) ← takeWord bs
      let (mode, bs) ← takePinMode bs
      let (cb, bs) ← takeTag? bs
      let (ctx, bs) ← takeTag? bs
      some (.createPin name mode cb ctx, bs)
  | 8 => do
      let (name, bs) ← takeWord bs
      let (mode, bs) ← takePortMode bs
      let (width, bs) ← takeWidth bs
      let (cb, bs) ← takeTag? bs
      let (ctx, bs) ← takeTag? bs
      some (.createPort name mode width cb ctx, bs)
  | _ => do
      let (name, bs) ← takeWord bs
      let (offset, bs) ← takeWord bs
      let (perm, bs) ← takePerm bs
      let (init, bs) ← takeCellInit bs
      let (cb, bs) ← takeTag? bs
      some (.createReg name offset perm init cb, bs)

/-- Whether a descriptor names an operation or a reserved class row: class 10 or above (with any rest), or `z = 0` and,
outside classes 0 and 1, `off = 0` (30_encoding.md R60, R73(a2)). -/
def namesRow (d : BitVec 16) : Bool :=
  let cls := (d.extractLsb' 12 4).toNat
  10 ≤ cls || (d.extractLsb' 9 3 = 0 && (cls ≤ 1 || d.extractLsb' 0 9 = 0))

/-- The operation of a descriptor that names one, with its operands read from the bytes behind it. -/
def decodeBody (bo : ByteOrder) (d : BitVec 16) (bs : List Byte) : Option (Instr × List Byte) :=
  match (d.extractLsb' 12 4).toNat with
  | 0 => decodeRead (d.extractLsb' 0 9) bs
  | 1 => decodeWrite bo (d.extractLsb' 0 9) bs
  | 10 => some (.rsvCls10 (d.extractLsb' 0 13), bs)
  | 11 => some (.rsvCls10 (d.extractLsb' 0 13), bs)
  | 12 => some (.rsvCls12 (d.extractLsb' 0 14), bs)
  | 13 => some (.rsvCls12 (d.extractLsb' 0 14), bs)
  | 14 => some (.rsvCls12 (d.extractLsb' 0 14), bs)
  | 15 => some (.rsvCls12 (d.extractLsb' 0 14), bs)
  | cls => decodeOperands cls bs

/-- The decoder: total on any bytes. It answers the operation and the bytes behind it, or the reason it names none. -/
def decode (bo : ByteOrder) : List Byte → Except DecodeError (Instr × List Byte)
  | b0 :: b1 :: bs =>
    let d : BitVec 16 := b1 ++ b0
    if namesRow d then
      match decodeBody bo d bs with
      | some r => .ok r
      | none => .error (.malformedOperands d)
    else .error (.reservedDescriptor d)
  | _ => .error .truncatedDescriptor

/-! ### The encoder -/

/-- The two bytes of a descriptor of class `cls` with the low 12 bits `low`. -/
def descriptorBytes (d : BitVec 16) : List Byte := [d.extractLsb' 0 8, d.extractLsb' 8 8]

/-- The descriptor of a register access (30_encoding.md R60). -/
def accessDescriptor (d : Access) (off : Nat) : BitVec 16 :=
  match d with
  | .read => BitVec.ofNat 16 off
  | .write => BitVec.ofNat 16 (0x1000 + off)

def boolByte (b : Bool) : List Byte := [if b then 1 else 0]

def doubleBytes (v : BitVec 64) : List Byte := wordBytes (v.extractLsb' 0 32) ++ wordBytes (v.extractLsb' 32 32)

def tagBytes : Option Tag → List Byte
  | none => boolByte false
  | some t => boolByte true ++ wordBytes t

/-- The reference word of a pin. -/
def Pin.word : Pin → BitVec 32
  | .ext k => BitVec.ofNat 32 k
  | .trig n i => BitVec.ofNat 32 (0x40000000 + 32 * n.val + i.val)
  | .done n => BitVec.ofNat 32 (0x80000000 + n.val)
  | .reqo n => BitVec.ofNat 32 (0xC0000000 + n.val)

def Sig.bytes : Sig → List Byte
  | .pin p => boolByte false ++ wordBytes p.word
  | .port k => boolByte true ++ wordBytes (BitVec.ofNat 32 k)

def PinMode.byte : PinMode → Byte
  | .out => 0
  | .inLevel => 1
  | .inNegedge => 2
  | .inPosedge => 3

def PortMode.bytes : PortMode → List Byte
  | .out => boolByte false
  | .inp => boolByte true

def Perm.byte : Perm → Byte
  | .ro => 0
  | .wo => 1
  | .rw => 2

def CellInit.bytes : CellInit → List Byte
  | .w32 init mask => boolByte false ++ wordBytes init ++ wordBytes mask
  | .w64 init mask => boolByte true ++ doubleBytes init ++ doubleBytes mask

/-- The descriptor of an operation (30_encoding.md R60, R62, R73). -/
def Instr.descriptor : Instr → BitVec 16
  | .rdCtrl n => accessDescriptor .read (RegId.ctrl n).offset
  | .wrCtrl n _ => accessDescriptor .write (RegId.ctrl n).offset
  | .rdSrc n => accessDescriptor .read (RegId.src n).offset
  | .wrSrc n _ => accessDescriptor .write (RegId.src n).offset
  | .rdDst n => accessDescriptor .read (RegId.dst n).offset
  | .wrDst n _ => accessDescriptor .write (RegId.dst n).offset
  | .rdSize n => accessDescriptor .read (RegId.size n).offset
  | .wrSize n _ => accessDescriptor .write (RegId.size n).offset
  | .rdTrigger n => accessDescriptor .read (RegId.trigger n).offset
  | .wrTrigger n _ => accessDescriptor .write (RegId.trigger n).offset
  | .rdCfg k => accessDescriptor .read (RegId.cfg k).offset
  | .wrCfg k _ => accessDescriptor .write (RegId.cfg k).offset
  | .rdStatus k => accessDescriptor .read (RegId.status k).offset
  | .wrStatus k _ => accessDescriptor .write (RegId.status k).offset
  | .pinWrite _ _ => 0x2000
  | .portWrite _ _ => 0x3000
  | .bind _ _ => 0x4000
  | .teardown => 0x5000
  | .reset => 0x6000
  | .createPin _ _ _ _ => 0x7000
  | .createPort _ _ _ _ _ => 0x8000
  | .createReg _ _ _ _ _ => 0x9000
  | .rsvChOff14 d n => accessDescriptor d (0x20 * n.val + 0x014)
  | .rsvChOff18 d n hi => accessDescriptor d (0x20 * n.val + (if hi then 0x01C else 0x018))
  | .rsvOff120 d m => accessDescriptor d (0x120 + 4 * m.val)
  | .rsvOff140 d m => accessDescriptor d (0x140 + 4 * m.val)
  | .rsvOff180 d m => accessDescriptor d (0x180 + 4 * m.val)
  | .rsvMisalignedB0 d m => accessDescriptor d (2 * m.val + 1)
  | .rsvMisalignedB1 d m => accessDescriptor d (4 * m.val + 2)
  | .rsvCls10 rest => 0b101#3 ++ rest
  | .rsvCls12 rest => 0b11#2 ++ rest

/-- The operand bytes of an operation (notes/assumptions/2.md). -/
def Instr.operandBytes (bo : ByteOrder) : Instr → List Byte
  | .rdCtrl _ => []
  | .wrCtrl _ v => datumBytes bo v
  | .rdSrc _ => []
  | .wrSrc _ v => datumBytes bo v
  | .rdDst _ => []
  | .wrDst _ v => datumBytes bo v
  | .rdSize _ => []
  | .wrSize _ v => datumBytes bo v
  | .rdTrigger _ => []
  | .wrTrigger _ v => datumBytes bo v
  | .rdCfg _ => []
  | .wrCfg _ v => datumBytes bo v
  | .rdStatus _ => []
  | .wrStatus _ v => datumBytes bo v
  | .pinWrite p b => wordBytes p.word ++ boolByte b
  | .portWrite k v => wordBytes (BitVec.ofNat 32 k) ++ doubleBytes v
  | .bind a b => a.bytes ++ b.bytes
  | .teardown => []
  | .reset => []
  | .createPin name mode cb ctx => wordBytes name ++ [mode.byte] ++ tagBytes cb ++ tagBytes ctx
  | .createPort name mode width cb ctx =>
      wordBytes name ++ mode.bytes ++ [BitVec.ofNat 8 (width - 1)] ++ tagBytes cb ++ tagBytes ctx
  | .createReg name offset perm init cb =>
      wordBytes name ++ wordBytes offset ++ [perm.byte] ++ init.bytes ++ tagBytes cb
  | .rsvChOff14 _ _ => []
  | .rsvChOff18 _ _ _ => []
  | .rsvOff120 _ _ => []
  | .rsvOff140 _ _ => []
  | .rsvOff180 _ _ => []
  | .rsvMisalignedB0 _ _ => []
  | .rsvMisalignedB1 _ _ => []
  | .rsvCls10 _ => []
  | .rsvCls12 _ => []

/-- The packet of an operation. -/
def encode (bo : ByteOrder) (i : Instr) : List Byte := descriptorBytes i.descriptor ++ i.operandBytes bo

/-! ### One row's word -/

/-- The length of the longest packet, in bytes: CREATE_REG with a 64-bit cell and a callback. -/
def longestPacket : Nat := 33

/-- `n` bytes of a number, least significant first. -/
def bytesOfNat : Nat → Nat → List Byte
  | 0, _ => []
  | n + 1, w => BitVec.ofNat 8 w :: bytesOfNat n (w / 256)

/-- The packet whose first `nbits` bits are `w` and whose further bits, up to the longest packet, are 0. -/
def packetOfWord (nbits w : Nat) : List Byte :=
  bytesOfNat (nbits / 8) (w % 2 ^ nbits) ++ List.replicate (longestPacket - nbits / 8) 0

/-- The operation that the decoder reads from a table row's word (the register byte order at its default: the operand
words are zero). -/
def decodeTableWord (nbits w : Nat) : Option Instr :=
  match decode .little (packetOfWord nbits w) with
  | .ok (i, _) => some i
  | .error _ => none

end Sys2Proof
end

