-- ==== Sys2Proof/Machine/Layout.lean ====
section
/-!
DEFINITION. What is fixed about the block's 48 registers from creation on (10_state.md R19, R20): permission, write
mask, width and role; the defaults of the
parameters `regMap` (30_encoding.md R62) and `ctrlLayout` (R63); and what a pin or port mode says.
-/

namespace Sys2Proof.Machine

/-- The parameter `regMap` (30_encoding.md R62): which register stands at which offset of the window. At an offset that
is listed twice the first entry stands. -/
abbrev RegMap := List (BitVec 9 × RegId)

/-- The default of `regMap`: the table of 30_encoding.md R62. -/
def defaultRegMap : RegMap :=
  (([0, 1, 2, 3, 4, 5, 6, 7] : List Chan).flatMap fun n =>
    [RegId.ctrl n, .src n, .dst n, .size n, .trigger n].map fun r => (BitVec.ofNat 9 r.offset, r)) ++
  (([0, 1, 2, 3] : List Pair).flatMap fun k =>
    [RegId.cfg k, .status k].map fun r => (BitVec.ofNat 9 r.offset, r))

/-- The register at an offset of the window; none where the map lists none, and none at an offset that is not a multiple of
4, whatever the map lists (20_memory.md R42, R43). -/
def regIn (m : RegMap) (off : BitVec 9) : Option RegId :=
  if off.extractLsb' 0 2 = 0 then (m.find? fun e => e.1 = off).map fun e => e.2 else none

/-- The default of `ctrlLayout`: the table of 30_encoding.md R63. -/
def defaultCtrlLayout : CtrlLayout :=
  { req := 0, en := 4, level := 5, srcByte := 6, dstByte := 7, srcInc := 8, dstInc := 10, mode := 12, test := 15 }

/-- `w` ones from bit `lo` up: the bits of one field. -/
def fieldMask (lo w : Nat) : Word := BitVec.ofNat 32 ((2 ^ w - 1) * 2 ^ lo)

/-- The write mask of CTRL: the union of the defined fields (92_eei_decisions.md D3); 0x0000FFF1 for the default
layout (10_state.md R20). -/
def ctrlMask (l : CtrlLayout) : Word :=
  fieldMask l.req 1 ||| fieldMask l.en 1 ||| fieldMask l.level 1 ||| fieldMask l.srcByte 1 ||| fieldMask l.dstByte 1
    ||| fieldMask l.srcInc 2 ||| fieldMask l.dstInc 2 ||| fieldMask l.mode 3 ||| fieldMask l.test 1

/-- The write mask of a register (10_state.md R20). STATUS accepts no write; its mask is never used. -/
def regMask (l : CtrlLayout) : RegId → Word
  | .ctrl _ => ctrlMask l
  | .cfg _ => 0x001F001F
  | .src _ => 0xFFFFFFFF
  | .dst _ => 0xFFFFFFFF
  | .size _ => 0xFFFFFFFF
  | .status _ => 0
  | .trigger _ => 0xFFFFFFFF

/-- The permission of a register (10_state.md R20). -/
def regPerm : RegId → Perm
  | .ctrl _ => .rw
  | .cfg _ => .rw
  | .src _ => .rw
  | .dst _ => .rw
  | .size _ => .rw
  | .status _ => .ro
  | .trigger _ => .rw

/-- The channel of an even or odd slot of a packed word: channels 2k and 2k+1 (10_state.md R20). -/
def evenChan (k : Pair) : Chan := ⟨2 * k.val, by omega⟩
def oddChan (k : Pair) : Chan := ⟨2 * k.val + 1, by omega⟩

/-- The packed word that serves a channel: `n >> 1` (10_state.md R24). -/
def pairOf (n : Chan) : Pair := ⟨n.val / 2, by omega⟩

/-- A pin mode's direction (41_signal_fabric.md R83). -/
def pinDir : PinMode → Dir
  | .out => .output
  | .inLevel => .input
  | .inNegedge => .input
  | .inPosedge => .input

/-- A pin mode's sensitivity (41_signal_fabric.md R83); an output has none, and none is read. -/
def pinSens : PinMode → Sens
  | .out => .level
  | .inLevel => .level
  | .inNegedge => .negedge
  | .inPosedge => .posedge

/-- A port mode's direction (41_signal_fabric.md R84). -/
def portDir : PortMode → Dir
  | .out => .output
  | .inp => .input

end Sys2Proof.Machine
end

