-- ==== Sys2Proof/Machine/State.lean ====
section
/-!
DEFINITION. The state of the block as plain data (10_state.md R19 to R37), the events of the history (R36), the
platform parameters (00_scope.md R11), the reasons a step can stop, and the state after reset.
-/

namespace Sys2Proof.Machine

/-! ### Register cells and channels -/

/-- The changing part of one of the block's register cells (10_state.md R19): current and previous value. -/
structure Cell where
  cur : Word
  prev : Word
deriving DecidableEq, Repr, Inhabited

/-- The status record of a channel (10_state.md R25). -/
structure Flags where
  done : Bool
  run : Bool
  req : Bool
  err : Bool
deriving DecidableEq, Repr, Inhabited

/-- The three 32-bit transfer counters: the working copy of a channel (10_state.md R28), or a view of its backing
registers. -/
structure Counters where
  src : Word
  dst : Word
  size : Word
deriving DecidableEq, Repr, Inhabited

/-- A trigger-input pin (10_state.md R32, R33): sensitivity and state. -/
structure TrigPin where
  sens : Sens
  state : Bool
deriving DecidableEq, Repr, Inhabited

/-- Everything that belongs to one channel n: its registers (10_state.md R20), status flags (R25), working copy (R28),
the active flag (R29) and its 34 pins (R33). -/
structure Channel where
  ctrl : Cell
  src : Cell
  dst : Cell
  size : Cell
  trigger : Cell
  st : Flags
  wk : Counters
  active : Bool
  trig : Vector TrigPin 32
  done : Bool
  reqo : Bool
deriving DecidableEq, Repr, Inhabited

/-! ### Signals and registers of other devices -/

/-- A pin of another device (10_state.md R32, R34; 41_signal_fabric.md R83). -/
structure ExtPin where
  name : Tag
  mode : PinMode
  state : Bool
  cb : Option Tag
  ctx : Option Tag
deriving DecidableEq, Repr, Inhabited

/-- A port of another device (10_state.md R32; 41_signal_fabric.md R84). -/
structure ExtPort where
  name : Tag
  mode : PortMode
  width : Nat
  state : SigVal
  cb : Option Tag
  ctx : Option Tag
deriving DecidableEq, Repr, Inhabited

/-- A register's write handler: the block's own two (70_reset_and_hazards.md R145) or another device's. -/
inductive Handler where
  | ctrl (n : Chan)
  | trigger (n : Chan)
  | ext (cb : Tag)
deriving DecidableEq, Repr, Inhabited

/-- A register's role (40_register_framework.md R81). -/
inductive Role where
  | plain
  | onWrite (h : Handler)
  | readOnly
deriving DecidableEq, Repr, Inhabited

/-- A whole register cell of `w` bits (10_state.md R19), less its name and offset. -/
structure RegCell (w : Nat) where
  cur : BitVec w
  prev : BitVec w
  mask : BitVec w
  perm : Perm
  role : Role
deriving DecidableEq, Repr

/-- A cell of 32 or of 64 bits (10_state.md R19; 90_conflicts.md C15). -/
inductive AnyCell where
  | w32 (c : RegCell 32)
  | w64 (c : RegCell 64)
deriving DecidableEq, Repr

/-- A register of another device, made by `createReg` (40_register_framework.md R76). Its offset is 32 bits wide
(DESIGN CHOICE, notes/assumptions/2.md). -/
structure OtherReg where
  name : Tag
  offset : BitVec 32
  cell : AnyCell
deriving DecidableEq, Repr

/-! ### Events -/

/-- The recorded errors E1 to E11 with their information (60_exceptions.md R127). -/
inductive Err where
  /-- E1 -/
  | unsupportedMode (n : Chan) (mode : BitVec 3)
  /-- E2 -/
  | unitSizeMismatch (n : Chan)
  /-- E3 -/
  | busReadFail (n : Chan) (addr : Word)
  /-- E4 -/
  | busWriteFail (n : Chan) (addr : Word)
  /-- E5 -/
  | triggerWhileDisabled (n : Chan)
  /-- E6 -/
  | writeReadOnly (r : RegId)
  /-- E7 -/
  | readWriteOnly (r : RegId)
  /-- E8 -/
  | writeToInput (p : Sig)
  /-- E9; the two signals of E9 to E11 in argument order (notes/assumptions/17.md) -/
  | bindModeMatch (a b : Sig)
  /-- E10 -/
  | bindInputAlreadyBound (a b : Sig)
  /-- E11 -/
  | bindShapeMismatch (a b : Sig)
deriving DecidableEq, Repr

/-- An entry of the event history (10_state.md R36). -/
inductive Event where
  /-- a register read and the value returned -/
  | regRead (r : RegId) (v : Word)
  /-- a register write and the data word delivered, before it is masked (notes/assumptions/14.md) -/
  | regWrite (r : RegId) (v : Word)
  /-- the invocation of a register's handler with the raw value (40_register_framework.md R80) -/
  | handler (r : RegId) (v : Word)
  /-- a register access that is not accepted, with its own offset and width (20_memory.md R43); no word reaches a register
  (notes/assumptions/14.md) -/
  | badAccess (d : Access) (offset width : Nat)
  /-- a MemRead request with its answer -/
  | memRead (addr : Nat) (bytes : List Byte) (ok : Bool)
  /-- a MemWrite request with its answer -/
  | memWrite (addr : Nat) (bytes : List Byte) (ok : Bool)
  /-- a pin or port write (PinWrite, PortWrite), whether it changes the signal or not -/
  | sigWrite (p : Sig) (v : SigVal)
  /-- the invocation of an input's callback with the input's new state -/
  | callback (i : Sig) (v : SigVal)
  /-- an error (60_exceptions.md R126) -/
  | error (e : Err)
deriving DecidableEq, Repr

/-! ### What the outside supplies -/

/-- One entry of the parameter `envReact` (41_signal_fabric.md R91): what another device's callback of input `input`
performs on this block when its new state is `value`. Its operations name their registers, not offsets (DESIGN CHOICE,
notes/assumptions/16.md). -/
structure EnvReaction where
  input : Sig
  value : SigVal
  ops : List Instr
deriving DecidableEq, Repr

/-- The platform parameters (00_scope.md R11). No step changes them. -/
structure Params where
  /-- 30_encoding.md R62 -/
  regMap : RegMap
  /-- 30_encoding.md R63 -/
  ctrlLayout : CtrlLayout
  /-- 20_memory.md R45 -/
  regByteOrder : ByteOrder
  /-- 20_memory.md R39: at least 32 -/
  busAddrWidth : Nat
  /-- 43_dma_transfer.md R111 -/
  levelFallingTriggers : Bool
  /-- 20_memory.md R38, R52: where the platform maps the register window in the bus address space; none if it maps it
  nowhere a transfer can reach -/
  regBase : Option Nat
  /-- 41_signal_fabric.md R91: for an input not listed, the empty list -/
  envReact : List EnvReaction
  /-- notes/assumptions/5.md -/
  busKind : BusKind
deriving DecidableEq, Repr

/-- One operation an outside agent issues: its packet and, for a register access, the access width in bytes, which
the descriptor does not hold (30_encoding.md R60; 20_memory.md R43). -/
structure Issued where
  bytes : List Byte
  width : Nat
deriving DecidableEq, Repr

/-- The plain byte memory of `BusKind.memory`: addresses strictly rising, no byte equal to what an unlisted address
reads as (notes/assumptions/5.md). -/
abbrev Memory := List Host.Cell

/-! ### The state -/

/-- The whole state (10_state.md R19 to R36). The last four fields are the model's own (notes/assumptions/1.md, 4.md,
5.md). -/
structure State where
  /-- the eight channels -/
  chans : Vector Channel 8
  /-- CFG[k] (30_encoding.md R68) -/
  cfg : Vector Cell 4
  /-- the pins of other devices (10_state.md R34) -/
  extPins : List ExtPin
  /-- the ports of other devices -/
  extPorts : List ExtPort
  /-- the binding list B of (output, input) pairs, in creation order (10_state.md R34) -/
  bindings : List (Sig × Sig)
  /-- outputs whose propagation is in progress, innermost first (10_state.md R35) -/
  propagating : List Sig
  /-- registers whose handler is executing, innermost first (10_state.md R35) -/
  inCallback : List RegId
  /-- registers of other devices (40_register_framework.md R76) -/
  otherRegs : List OtherReg
  /-- the event history, in execution order (10_state.md R36) -/
  hist : List Event
  /-- set by any fault, never cleared (10_state.md R36) -/
  faultMark : Bool
  /-- set by a refused operation, never cleared (10_state.md R36) -/
  refusalMark : Bool
  /-- the platform parameters (00_scope.md R11) -/
  params : Params
  /-- MODEL: the operations the outside agents will issue, next first -/
  pending : List Issued
  /-- MODEL: answers the bus oracle will give, next first; when none is left, free values -/
  answers : List Answer
  /-- MODEL: how many free values have been drawn -/
  draws : Nat
  /-- MODEL: the plain byte memory of `BusKind.memory` -/
  mem : Memory
deriving DecidableEq, Repr

/-! ### Stops -/

/-- The model faults of 60_exceptions.md R131. Each carries the state at its point, with the fault mark set and every
event recorded before it (R132). All are safe: the model stops where the source gives no meaning. -/
inductive Fault where
  /-- raised by a register access of a width other than 4, a misaligned or a reserved offset (20_memory.md R43);
  safe -/
  | badAccess (offset width : Nat) (s : State)
  /-- raised by a write to a register whose own handler is executing (40_register_framework.md R79); safe -/
  | registerReentrancy (r : RegId) (s : State)
  /-- raised by a change of an output during its own propagation (41_signal_fabric.md R90); safe -/
  | outputReentrancy (p : Sig) (s : State)
  /-- raised by a trigger accepted for a channel that is active (43_dma_transfer.md R116); safe -/
  | reentrantChannel (n : Chan) (s : State)
  /-- raised by a unit step with fewer bytes left than a unit (43_dma_transfer.md R121); safe -/
  | sizeUnderrun (n : Chan) (left : Word) (u : Nat) (s : State)
  /-- raised by a transfer address that reaches the block's own window (20_memory.md R52); safe -/
  | selfAccess (addr : Word) (s : State)
  /-- raised where the nesting of signal writes passes the model's bound, which no operation does
  (notes/assumptions/13.md); safe -/
  | nestingExhausted (s : State)
deriving DecidableEq, Repr

/-- The refusals of 60_exceptions.md R133 and of operands no rule gives an effect. Each carries the state it was
refused in, unchanged but for the refusal mark. All are safe: the model stops. -/
inductive Refusal where
  /-- an arm of exec with no meaning yet; safe -/
  | notModelled (mnemonic : String)
  /-- raised by the fetch of a packet too short for a descriptor (notes/assumptions/2.md); safe -/
  | truncatedDescriptor (s : State)
  /-- raised by a descriptor that names no operation, at the fetch or by a reserved class row
  (30_encoding.md R73(a2)); safe -/
  | reservedDescriptor (d : BitVec 16) (s : State)
  /-- raised by the fetch of a packet whose operand bytes name no operand (notes/assumptions/2.md); safe -/
  | malformedOperands (d : BitVec 16) (s : State)
  /-- raised by PIN_WRITE of a pin outside extPins (60_exceptions.md R133); safe -/
  | pinOutsideExtPins (p : Pin) (s : State)
  /-- raised by PORT_WRITE of a port that is no port of another device (60_exceptions.md R133); safe -/
  | portOutsideExtPins (k : Nat) (s : State)
  /-- raised by BIND of a signal that does not exist (notes/assumptions/12.md); safe -/
  | noSuchSignal (p : Sig) (s : State)
  /-- raised by CREATE_PORT with a width outside 1 to 64 (41_signal_fabric.md R84; notes/assumptions/12.md); safe -/
  | portWidthOutOfRange (width : Nat) (s : State)
deriving DecidableEq, Repr

/-- What an operation answers: a next state, a fault or a refusal. -/
abbrev Result := Host.Outcome State Fault Refusal

/-! ### Reset -/

/-- A register cell after reset (10_state.md R37). -/
def Cell.zero : Cell := { cur := 0, prev := 0 }

/-- A channel after reset (10_state.md R37). -/
def Channel.reset : Channel :=
  { ctrl := Cell.zero, src := Cell.zero, dst := Cell.zero, size := Cell.zero, trigger := Cell.zero
    st := { done := false, run := false, req := false, err := false }
    wk := { src := 0, dst := 0, size := 0 }
    active := false
    trig := Vector.replicate 32 { sens := .posedge, state := false }
    done := false
    reqo := false }

/-- The defaults of 00_scope.md R11; no transfer address reaches the window, and the oracle answers bus requests. -/
def Params.default : Params :=
  { regMap := defaultRegMap, ctrlLayout := defaultCtrlLayout, regByteOrder := .little, busAddrWidth := 32, levelFallingTriggers := false
    regBase := none, envReact := [], busKind := .oracle }

/-- The output pin `ext.t` of another device that 95_test_vectors.md starts from, state 0 (notes/assumptions/3.md,
DESIGN CHOICE). -/
def extT : ExtPin := { name := 0x74, mode := .out, state := false, cb := none, ctx := none }

/-- The 8-bit output port `ext.p` of 95_test_vectors.md, state 0 (notes/assumptions/3.md, DESIGN CHOICE). -/
def extP : ExtPort := { name := 0x70, mode := .out, width := 8, state := 0, cb := none, ctx := none }

/-- The machine right after creation and reset (10_state.md R37, 70_reset_and_hazards.md R145). Which pins, ports, bindings and
registers other devices have then is open: `extT`, `extP`, no binding and no register (DESIGN CHOICE,
notes/assumptions/3.md). -/
def State.reset : State :=
  { chans := Vector.replicate 8 Channel.reset
    cfg := Vector.replicate 4 Cell.zero
    extPins := [extT]
    extPorts := [extP]
    bindings := []
    propagating := []
    inCallback := []
    otherRegs := []
    hist := []
    faultMark := false
    refusalMark := false
    params := Params.default
    pending := []
    answers := []
    draws := 0
    mem := [] }

end Sys2Proof.Machine
end

