-- ==== Sys2Proof/Machine/Ops.lean ====
section
/-!
DEFINITION. The named operations over the state: sequencing of outcomes, events and marks (what stands in for taking an
exception, 60_exceptions.md R126, R132, R133, R135), channels, the bus (20_memory.md R46), the plain byte memory, and the
fields of signals (10_state.md R32).
-/

namespace Sys2Proof.Machine

/-! ### Sequencing -/

/-- Go on after a next state; a fault or a refusal ends the operation (60_exceptions.md R132). -/
def andThen {α β : Type} (x : Host.Outcome α Fault Refusal) (f : α → Host.Outcome β Fault Refusal) :
    Host.Outcome β Fault Refusal :=
  match x with
  | .next a => f a
  | .fault r => .fault r
  | .refused r => .refused r

/-! ### Vectors -/

/-- Every entry of a vector changed by `f`. Over lists, so that Lean's kernel can evaluate it. -/
def mapEntries {α β : Type} {n : Nat} (f : α → β) (v : Vector α n) : Vector β n :=
  ⟨⟨v.toList.map f⟩, by simp⟩

/-! ### Events and marks -/

/-- Append an event to the history (10_state.md R36). -/
def State.record (s : State) (e : Event) : State := { s with hist := s.hist ++ [e] }

/-- `raise E(info)`: record an error; control goes on at the next statement (00_scope.md R13, 60_exceptions.md R126).
The block has no trap entry (R135): no state is saved, no mode changes and control goes nowhere else. -/
def State.raise (s : State) (e : Err) : State := s.record (.error e)

/-- The state at a fault: the fault mark is set (60_exceptions.md R132). -/
def State.markFaulted (s : State) : State := { s with faultMark := true }

/-- The state after a refused operation: unchanged but for the refusal mark (60_exceptions.md R133). -/
def State.markRefused (s : State) : State := { s with refusalMark := true }

/-! ### Channels and configuration words -/

/-- Channel n. -/
def State.chan (s : State) (n : Chan) : Channel := s.chans[n]

/-- Channel n changed by `f`. -/
def State.modChan (s : State) (n : Chan) (f : Channel → Channel) : State :=
  { s with chans := s.chans.set n (f s.chans[n]) }

/-- CFG[k]. -/
def State.cfgCell (s : State) (k : Pair) : Cell := s.cfg[k]

/-- CFG[k] replaced. -/
def State.setCfg (s : State) (k : Pair) (c : Cell) : State := { s with cfg := s.cfg.set k c }

/-! ### The plain byte memory (notes/assumptions/5.md) -/

/-- What a byte of memory that nothing has written reads as (DESIGN CHOICE, notes/assumptions/5.md). -/
def unlistedByte : Byte := 0

/-- The byte at an address. -/
def memGet : Memory → Nat → Byte
  | [], _ => unlistedByte
  | (x, b) :: m, a => if a = x then b else memGet m a

/-- Put an entry in front, unless its byte is what an unlisted address reads as. -/
def memCons (a : Nat) (b : Byte) (m : Memory) : Memory := if b = unlistedByte then m else (a, b) :: m

/-- Write one byte, keeping the canonical form. -/
def memSet : Memory → Nat → Byte → Memory
  | [], a, b => memCons a b []
  | (x, c) :: m, a, b =>
    if a < x then memCons a b ((x, c) :: m)
    else if a = x then memCons a b m
    else (x, c) :: memSet m a b

/-- Addresses rise strictly from above `lo`, and no entry holds what an unlisted address reads as. -/
def memRising : Nat → Memory → Bool
  | _, [] => true
  | lo, (x, b) :: m => decide (lo ≤ x) && decide (b ≠ unlistedByte) && memRising (x + 1) m

/-- The canonical form of a memory. -/
def Memory.wf (m : Memory) : Bool := memRising 0 m

/-- Read the bytes at a list of addresses, in order. -/
def memGetAll (m : Memory) (as : List Nat) : List Byte := as.map (memGet m)

/-- Write bytes at a list of addresses, in order. -/
def memSetAll : Memory → List (Nat × Byte) → Memory
  | m, [] => m
  | m, (a, b) :: ws => memSetAll (memSet m a b) ws

/-! ### The bus (20_memory.md R39, R46 to R52) -/

/-- The addresses of the `u` bytes from `a` on, ascending (20_memory.md R48). The register's 32 bits are zero-extended
to `busAddrWidth` (R39); past the top of that space the plain memory wraps (R50 leaves it to the bus;
notes/assumptions/5.md). -/
def byteAddrs (s : State) (a : Word) (u : Nat) : List Nat :=
  (List.range u).map fun i => (a.toNat + i) % 2 ^ s.params.busAddrWidth

/-- Whether a transfer of `u` bytes at `a` reaches the block's own register window of 0x200 bytes
(20_memory.md R38, R52). A word that runs past the top of the bus space is taken to wrap to 0, for either kind of bus; R50
leaves that to the bus (DESIGN CHOICE, notes/assumptions/15.md). -/
def reachesWindow (s : State) (a : Word) (u : Nat) : Bool :=
  match s.params.regBase with
  | none => false
  | some base => (byteAddrs s a u).any fun x => base ≤ x && x < base + 0x200

/-- The next answer of the oracle: the next one supplied, else a free value (20_memory.md R46;
notes/assumptions/4.md). -/
def nextAnswer (s : State) : Answer × State :=
  match s.answers with
  | a :: as => (a, { s with answers := as })
  | [] => (Config.freeAnswer s.draws, { s with draws := s.draws + 1 })

/-- The first `u` bytes of an answer. -/
def answerBytes (a : Answer) (u : Nat) : List Byte := a.bytes.toList.take u

/-- What the bus answers to a read of `u` bytes at `a`: bytes and success bit (20_memory.md R46). -/
def busRead (a : Word) (u : Nat) (s : State) : List Byte × Bool × State :=
  match s.params.busKind with
  | .memory => (memGetAll s.mem (byteAddrs s a u), true, s)
  | .oracle =>
    let (ans, t) := nextAnswer s
    (answerBytes ans u, ans.ok, t)

/-- What the bus answers to a write of bytes at `a`: the success bit (20_memory.md R46). -/
def busWrite (a : Word) (bytes : List Byte) (s : State) : Bool × State :=
  match s.params.busKind with
  | .memory => (true, { s with mem := memSetAll s.mem ((byteAddrs s a bytes.length).zip bytes) })
  | .oracle =>
    let (ans, t) := nextAnswer s
    (ans.ok, t)

/-- `MemRead(a, u)`: one request, recorded with its answer (20_memory.md R46, 10_state.md R36). -/
def memRead (a : Word) (u : Nat) (s : State) : List Byte × Bool × State :=
  let (bytes, ok, t) := busRead a u s
  (bytes, ok, t.record (.memRead a.toNat bytes ok))

/-- `MemWrite(a, n, bytes)`: one request, recorded with its answer (20_memory.md R46, 10_state.md R36). -/
def memWrite (a : Word) (bytes : List Byte) (s : State) : Bool × State :=
  let (ok, t) := busWrite a bytes s
  (ok, t.record (.memWrite a.toNat bytes ok))

/-! ### Signals (10_state.md R32 to R34) -/

/-- A pin's state as a signal value. -/
def pinVal (b : Bool) : SigVal := if b then 1 else 0

/-- A signal's direction; none where no such signal exists. -/
def State.dir (s : State) : Sig → Option Dir
  | .pin (.ext k) => s.extPins[k]?.map fun p => pinDir p.mode
  | .pin (.trig _ _) => some .input
  | .pin (.done _) => some .output
  | .pin (.reqo _) => some .output
  | .port k => s.extPorts[k]?.map fun p => portDir p.mode

/-- A signal's current state. -/
def State.sig (s : State) : Sig → SigVal
  | .pin (.ext k) => ((s.extPins[k]?).map fun p => pinVal p.state).getD 0
  | .pin (.trig n i) => pinVal (s.chan n).trig[i].state
  | .pin (.done n) => pinVal (s.chan n).done
  | .pin (.reqo n) => pinVal (s.chan n).reqo
  | .port k => ((s.extPorts[k]?).map fun p => p.state).getD 0

/-- A signal's state replaced; its sensitivity and everything else kept. -/
def State.setSig (s : State) (p : Sig) (v : SigVal) : State :=
  match p with
  | .pin (.ext k) => { s with extPins := s.extPins.modify k fun q => { q with state := v.getLsbD 0 } }
  | .pin (.trig n i) =>
    s.modChan n fun c => { c with trig := c.trig.set i { c.trig[i] with state := v.getLsbD 0 } }
  | .pin (.done n) => s.modChan n fun c => { c with done := v.getLsbD 0 }
  | .pin (.reqo n) => s.modChan n fun c => { c with reqo := v.getLsbD 0 }
  | .port k => { s with extPorts := s.extPorts.modify k fun q => { q with state := v } }

/-- Keep the low `w` bits of a value. -/
def lowBits (w : Nat) (v : SigVal) : SigVal := BitVec.ofNat 64 (v.toNat % 2 ^ w)

/-- A written value at the signal's own width: 1 bit for a pin; for a port "higher bits are dropped"
(41_signal_fabric.md R88). -/
def State.fit (s : State) (p : Sig) (v : SigVal) : SigVal :=
  match p with
  | .pin _ => lowBits 1 v
  | .port k => lowBits ((s.extPorts[k]?.map fun q => q.width).getD 64) v

/-- An input's sensitivity: a trigger input's own; another device's pin's mode; ports are level-only
(41_signal_fabric.md R84). -/
def State.sens (s : State) : Sig → Sens
  | .pin (.ext k) => (s.extPins[k]?.map fun p => pinSens p.mode).getD .level
  | .pin (.trig n i) => (s.chan n).trig[i].sens
  | .pin (.done _) => .level
  | .pin (.reqo _) => .level
  | .port _ => .level

/-- Whether an input has a callback: every trigger input has (10_state.md R33); another device's signal if it was
created with one (41_signal_fabric.md R83). -/
def State.hasCallback (s : State) : Sig → Bool
  | .pin (.ext k) => (s.extPins[k]?.map fun p => p.cb.isSome).getD false
  | .pin (.trig _ _) => true
  | .pin (.done _) => false
  | .pin (.reqo _) => false
  | .port k => (s.extPorts[k]?.map fun p => p.cb.isSome).getD false

/-- A signal's kind and width (41_signal_fabric.md R85): none for a pin, its width for a port. -/
def State.shape (s : State) : Sig → Option Nat
  | .pin _ => none
  | .port k => some ((s.extPorts[k]?.map fun q => q.width).getD 64)

/-- The inputs bound to an output, in creation order (41_signal_fabric.md R89). -/
def State.inputsOf (s : State) (p : Sig) : List Sig := (s.bindings.filter fun b => b.1 = p).map fun b => b.2

end Sys2Proof.Machine
end

