-- ==== Sys2Proof/Machine/Operands.lean ====
section
/-!
DEFINITION. The fields of the CTRL, CFG and TRIGGER words (30_encoding.md R63 to R72), as views of the registers'
current values (10_state.md R23, R24), the unit length, the address step (43_dma_transfer.md R123) and the edge function
(40_register_framework.md R82).
-/

namespace Sys2Proof.Machine

/-! ### CTRL fields of a word (30_encoding.md R63) -/

def ctrlReq (l : CtrlLayout) (w : Word) : Bool := w.getLsbD l.req
def ctrlEn (l : CtrlLayout) (w : Word) : Bool := w.getLsbD l.en
def ctrlLevel (l : CtrlLayout) (w : Word) : Bool := w.getLsbD l.level
def ctrlSrcByte (l : CtrlLayout) (w : Word) : Bool := w.getLsbD l.srcByte
def ctrlDstByte (l : CtrlLayout) (w : Word) : Bool := w.getLsbD l.dstByte
def ctrlSrcInc (l : CtrlLayout) (w : Word) : BitVec 2 := w.extractLsb' l.srcInc 2
def ctrlDstInc (l : CtrlLayout) (w : Word) : BitVec 2 := w.extractLsb' l.dstInc 2
def ctrlMode (l : CtrlLayout) (w : Word) : BitVec 3 := w.extractLsb' l.mode 3
def ctrlTest (l : CtrlLayout) (w : Word) : Bool := w.getLsbD l.test

/-- A CTRL word with DMAEN cleared and every other bit kept (10_state.md R26). -/
def clearEn (l : CtrlLayout) (w : Word) : Word := w &&& ~~~ fieldMask l.en 1

/-! ### Views of channel n (10_state.md R23, R24) -/

/-- `CTRL[n].cur` -/
def State.ctrlWord (s : State) (n : Chan) : Word := (s.chan n).ctrl.cur

/-- EN(n) -/
def State.en (s : State) (n : Chan) : Bool := ctrlEn s.params.ctrlLayout (s.ctrlWord n)
/-- LVL(n) -/
def State.lvl (s : State) (n : Chan) : Bool := ctrlLevel s.params.ctrlLayout (s.ctrlWord n)
/-- SBYTE(n) -/
def State.sbyte (s : State) (n : Chan) : Bool := ctrlSrcByte s.params.ctrlLayout (s.ctrlWord n)
/-- DBYTE(n) -/
def State.dbyte (s : State) (n : Chan) : Bool := ctrlDstByte s.params.ctrlLayout (s.ctrlWord n)
/-- SINC(n) -/
def State.sinc (s : State) (n : Chan) : BitVec 2 := ctrlSrcInc s.params.ctrlLayout (s.ctrlWord n)
/-- DINC(n) -/
def State.dinc (s : State) (n : Chan) : BitVec 2 := ctrlDstInc s.params.ctrlLayout (s.ctrlWord n)
/-- MODE(n) -/
def State.modeField (s : State) (n : Chan) : BitVec 3 := ctrlMode s.params.ctrlLayout (s.ctrlWord n)
/-- TEST(n) -/
def State.test (s : State) (n : Chan) : Bool := ctrlTest s.params.ctrlLayout (s.ctrlWord n)

/-- The selector of channel n in its CFG word: bits [4:0] for even n, bits [20:16] for odd n (30_encoding.md R68). -/
def tselOf (w : Word) (n : Chan) : Source :=
  if n.val % 2 = 0 then Fin.ofNat 32 (w.extractLsb' 0 5).toNat else Fin.ofNat 32 (w.extractLsb' 16 5).toNat

/-- TSEL(n) (10_state.md R24) -/
def State.tsel (s : State) (n : Chan) : Source := tselOf (s.cfgCell (pairOf n)).cur n

/-! ### Modes, units, addresses -/

/-- The meaningful modes (30_encoding.md R64). -/
inductive Mode where
  | single
  | block
  | repeatedSingle
  | repeatedBlock
deriving DecidableEq, Repr

/-- The MODE field decoded; none for 2, 3, 6 and 7 (30_encoding.md R64). -/
def modeOf (m : BitVec 3) : Option Mode :=
  match m.toNat with
  | 0 => some .single
  | 1 => some .block
  | 4 => some .repeatedSingle
  | 5 => some .repeatedBlock
  | _ => none

/-- The unit length of a byte or word field: 1 or 4 (30_encoding.md R67). -/
def unitLen (isByte : Bool) : Nat := if isByte then 1 else 4

/-- `adj(x, pol, u)`, modulo 2^32 (43_dma_transfer.md R123, 30_encoding.md R65). -/
def adj (x : Word) (pol : BitVec 2) (u : Nat) : Word :=
  match pol.toNat with
  | 3 => x + BitVec.ofNat 32 u
  | 2 => x - BitVec.ofNat 32 u
  | _ => x

/-- `transitioned(prev, cur, bit)` (40_register_framework.md R82). -/
def transitioned (prev cur : Word) (bit : Source) : Bool := prev.getLsbD bit.val != cur.getLsbD bit.val

end Sys2Proof.Machine
end

