-- ==== Sys2Proof/Machine/Flags.lean ====
section
/-!
DEFINITION. The status flags of a channel (10_state.md R25): their packing into STATUS (30_encoding.md R69) and every
value the engine gives them (43_dma_transfer.md R114, R115).
-/

namespace Sys2Proof.Machine

/-- A flag as a one-bit word at bit position `i`. -/
def flagBit (b : Bool) (i : Nat) : Word := if b then BitVec.ofNat 32 (2 ^ i) else 0

/-- One slot of STATUS: done(0), run(1), request(2), error(3) (30_encoding.md R69). -/
def slot (f : Flags) : Word := flagBit f.done 0 ||| flagBit f.run 1 ||| flagBit f.req 2 ||| flagBit f.err 3

/-- The packed STATUS word: channel 2k low, channel 2k+1 at +16 (30_encoding.md R69). -/
def packStatus (a b : Flags) : Word := slot a ||| (slot b <<< 16)

/-- The status of an invocation in progress: "normalize status" (43_dma_transfer.md R115). -/
def Flags.running : Flags := { done := false, run := true, req := false, err := false }

/-- The status after a ConfigurationError (60_exceptions.md R128): err set, run cleared. -/
def Flags.configError (f : Flags) : Flags := { f with err := true, run := false }

/-- The status when an invocation ends with another trigger needed: run cleared, req set (43_dma_transfer.md R117,
R119). -/
def Flags.requested (f : Flags) : Flags := { f with run := false, req := true }

/-- The status when a one-shot transfer ends (43_dma_transfer.md R117, R118). -/
def Flags.completed (f : Flags) : Flags := { f with run := false, done := true }

/-- The status when a repeated pass ends (43_dma_transfer.md R119, R120). -/
def Flags.passEnded (f : Flags) : Flags := { f with run := false, done := true, req := true }

/-- The status after a CTRL write with EN = 1: req set, the others kept (42_dma_registers.md R95). -/
def Flags.armed (f : Flags) : Flags := { f with req := true }

/-- `STATUS[k].cur` (10_state.md R25). -/
def State.statusWord (s : State) (k : Pair) : Word := packStatus (s.chan (evenChan k)).st (s.chan (oddChan k)).st

end Sys2Proof.Machine
end

