-- ==== Sys2Proof/Machine/Registers.lean ====
section
/-!
DEFINITION. The register framework (40_register_framework.md): a cell's create, read and write as plain functions of
the cell (R76, R77, R78, R81), the block's 48 registers as cells (10_state.md R20), and the register read. The write
with its handlers is in Handlers.lean.
-/

namespace Sys2Proof.Machine

/-! ### Cells -/

/-- A cell's role from its permission and callback (40_register_framework.md R76). -/
def roleOf (perm : Perm) (cb : Option Handler) : Role :=
  match perm, cb with
  | .ro, _ => .readOnly
  | .wo, some h => .onWrite h
  | .wo, none => .plain
  | .rw, some h => .onWrite h
  | .rw, none => .plain

/-- `create`: cur = prev = init, stored unmasked (40_register_framework.md R76). -/
def createCell {w : Nat} (perm : Perm) (init mask : BitVec w) (cb : Option Handler) : RegCell w :=
  { cur := init, prev := init, mask := mask, perm := perm, role := roleOf perm cb }

/-- The value a read returns: 0 for a write-only cell, else the current value (40_register_framework.md R77). -/
def cellRead {w : Nat} (c : RegCell w) : BitVec w := if c.perm = .wo then 0 else c.cur

/-- The cell after a write: unchanged if read-only, else prev <- cur and cur <- v & mask
(40_register_framework.md R78). -/
def cellWrite {w : Nat} (c : RegCell w) (v : BitVec w) : RegCell w :=
  if c.perm = .ro then c else { c with prev := c.cur, cur := v &&& c.mask }

/-! ### The block's registers as cells -/

/-- A register's callback at creation (70_reset_and_hazards.md R145). -/
def regHandler : RegId → Option Handler
  | .ctrl n => some (.ctrl n)
  | .trigger n => some (.trigger n)
  | .cfg _ => none
  | .src _ => none
  | .dst _ => none
  | .size _ => none
  | .status _ => none

/-- A register's role (10_state.md R20). -/
def regRole (r : RegId) : Role := roleOf (regPerm r) (regHandler r)

/-- The current and previous value of a register. STATUS is always the packed flags (10_state.md R25); no write of it
is ever accepted, so its previous value is 0. -/
def State.values (s : State) : RegId → Cell
  | .ctrl n => (s.chan n).ctrl
  | .cfg k => s.cfgCell k
  | .src n => (s.chan n).src
  | .dst n => (s.chan n).dst
  | .size n => (s.chan n).size
  | .status k => { cur := s.statusWord k, prev := 0 }
  | .trigger n => (s.chan n).trigger

/-- A register's values replaced. STATUS has no home of its own: nothing is stored. -/
def State.setValues (s : State) (r : RegId) (c : Cell) : State :=
  match r with
  | .ctrl n => s.modChan n fun ch => { ch with ctrl := c }
  | .cfg k => s.setCfg k c
  | .src n => s.modChan n fun ch => { ch with src := c }
  | .dst n => s.modChan n fun ch => { ch with dst := c }
  | .size n => s.modChan n fun ch => { ch with size := c }
  | .status _ => s
  | .trigger n => s.modChan n fun ch => { ch with trigger := c }

/-- A register of the block as a whole cell (10_state.md R19, R20). -/
def State.cell (s : State) (r : RegId) : RegCell 32 :=
  { cur := (s.values r).cur, prev := (s.values r).prev, mask := regMask s.params.ctrlLayout r, perm := regPerm r
    role := regRole r }

/-- The commit of a register write: prev <- cur; cur <- v & mask (40_register_framework.md R78). -/
def State.commit (s : State) (r : RegId) (v : Word) : State :=
  let c := cellWrite (s.cell r) v
  s.setValues r { cur := c.cur, prev := c.prev }

/-- `RegRead(r)`: the access is recorded with the value returned (40_register_framework.md R77, 10_state.md R36). A
write-only register would also record E7; the block has none (10_state.md R20). -/
def regRead (r : RegId) (s : State) : Result :=
  let v := cellRead (s.cell r)
  if regPerm r = .wo then .next ((s.record (.regRead r v)).raise (.readWriteOnly r))
  else .next (s.record (.regRead r v))

end Sys2Proof.Machine
end

