-- ==== Sys2Proof/Machine/Engine.lean ====
section
/-!
DEFINITION. The DMA engine (43_dma_transfer.md): the unit step, the four modes, Run, the output pulses and the two
trigger entry paths. Every procedure that writes an output pin takes the signal write as an argument `write`
(41_signal_fabric.md R86), because a pulse can reach callbacks that come back here.
-/

namespace Sys2Proof.Machine

/-- A signal write: PinWrite or PortWrite (41_signal_fabric.md R86, R88). -/
abbrev Writer := Sig → SigVal → State → Result

/-! ### The transfer counters -/

/-- Which counters a unit step works on: the backing registers in modes 0 and 1, the working copy in modes 4 and 5
(43_dma_transfer.md R121). -/
inductive Bank where
  | backing
  | working
deriving DecidableEq, Repr

/-- `{SRC[n].cur, DST[n].cur, SIZE[n].cur}` -/
def backingCounters (s : State) (n : Chan) : Counters :=
  { src := (s.chan n).src.cur, dst := (s.chan n).dst.cur, size := (s.chan n).size.cur }

/-- The counters of a bank. -/
def counters (s : State) (n : Chan) : Bank → Counters
  | .backing => backingCounters s n
  | .working => (s.chan n).wk

/-- A bank's counters replaced. The backing registers are updated directly: prev and the mask play no part and no
handler runs (10_state.md R26). -/
def setCounters (s : State) (n : Chan) (b : Bank) (c : Counters) : State :=
  match b with
  | .backing => s.modChan n fun ch =>
      { ch with
        src := { ch.src with cur := c.src }
        dst := { ch.dst with cur := c.dst }
        size := { ch.size with cur := c.size } }
  | .working => s.modChan n fun ch => { ch with wk := c }

/-- `wk[n] <- {SRC[n].cur, DST[n].cur, SIZE[n].cur}` (10_state.md R28). -/
def loadWorking (s : State) (n : Chan) : State := s.modChan n fun ch => { ch with wk := backingCounters s n }

/-- The status flags of channel n changed. -/
def modFlags (s : State) (n : Chan) (f : Flags → Flags) : State := s.modChan n fun ch => { ch with st := f ch.st }

/-- The engine's clearing of DMAEN, a direct update (10_state.md R26). -/
def clearEnable (s : State) (n : Chan) : State :=
  s.modChan n fun ch => { ch with ctrl := { ch.ctrl with cur := clearEn s.params.ctrlLayout ch.ctrl.cur } }

/-! ### The unit step (43_dma_transfer.md R121 to R123) -/

/-- The write half of a unit: one MemWrite, E4 if it fails (43_dma_transfer.md R121, R122). -/
def writeUnit (n : Chan) (dst : Word) (bytes : List Byte) (s : State) : State :=
  let (ok, t) := memWrite dst bytes s
  if ok then t else t.raise (.busWriteFail n dst)

/-- What follows a failed read: E3, and then a draw between no write and a write of any bytes
(43_dma_transfer.md R121, parameter `readFailPolicy`, 92_eei_decisions.md D19). -/
def afterFailedRead (n : Chan) (c : Counters) (u : Nat) (s : State) : State :=
  let (ans, t) := nextAnswer (s.raise (.busReadFail n c.src))
  if ans.ok then writeUnit n c.dst (answerBytes ans u) t else t

/-- The bus requests of one unit: one MemRead, then one MemWrite of the bytes read (20_memory.md R47). -/
def moveUnit (n : Chan) (c : Counters) (u : Nat) (s : State) : State :=
  let (bytes, ok, t) := memRead c.src u s
  if ok then writeUnit n c.dst bytes t else afterFailedRead n c u t

/-- The counters after one unit (43_dma_transfer.md R121). -/
def advance (s : State) (n : Chan) (u : Nat) (c : Counters) : Counters :=
  { src := adj c.src (s.sinc n) u, dst := adj c.dst (s.dinc n) u, size := c.size - BitVec.ofNat 32 u }

/-- `Step` (43_dma_transfer.md R121), with its causes in the order of 60_exceptions.md R134: SizeUnderrun, SelfAccess of
the source address and of the destination address (notes/assumptions/11.md), then the bus. -/
def unitStep (b : Bank) (n : Chan) (u : Nat) (s : State) : Result :=
  let c := counters s n b
  if c.size.toNat < u then .fault (.sizeUnderrun n c.size u s.markFaulted)
  else if reachesWindow s c.src u then .fault (.selfAccess c.src s.markFaulted)
  else if reachesWindow s c.dst u then .fault (.selfAccess c.dst s.markFaulted)
  else .next (setCounters (moveUnit n c u s) n b (advance s n u c))

/-- The loop of the Block modes: repeat the unit step until the size counter is 0 (43_dma_transfer.md R118, R120).
`k` bounds the passes; called with size / u, the pass at bound 0 finds fewer than u bytes left and faults. -/
def blockLoop (b : Bank) (n : Chan) (u : Nat) : Nat → State → Result
  | 0, s => unitStep b n u s
  | k + 1, s => andThen (unitStep b n u s) fun t =>
      if (counters t n b).size = 0 then .next t else blockLoop b n u k t

/-- All units of a bank, one invocation. -/
def runBlock (b : Bank) (n : Chan) (u : Nat) (s : State) : Result :=
  blockLoop b n u ((counters s n b).size.toNat / u) s

/-! ### The modes (43_dma_transfer.md R117 to R120) -/

/-- The transitions an invocation ends with, each of which pulses an output (43_dma_transfer.md R124). -/
inductive Pulse where
  | done
  | request
deriving DecidableEq, Repr

/-- The end of a one-shot transfer: DMAEN cleared, done set (43_dma_transfer.md R117, R118). -/
def completeOneShot (n : Chan) (s : State) : State := modFlags (clearEnable s n) n Flags.completed

/-- The end of a repeated pass: the working copy reloaded, done and req set (43_dma_transfer.md R119, R120). -/
def completePass (n : Chan) (s : State) : State := modFlags (loadWorking s n) n Flags.passEnded

/-- Mode 0, Single (43_dma_transfer.md R117). -/
def modeSingle (n : Chan) (u : Nat) (s : State) : Host.Outcome (State × List Pulse) Fault Refusal :=
  andThen (unitStep .backing n u s) fun t =>
    if (counters t n .backing).size = 0 then .next (completeOneShot n t, [.done])
    else .next (modFlags t n Flags.requested, [.request])

/-- Mode 1, Block (43_dma_transfer.md R118). -/
def modeBlock (n : Chan) (u : Nat) (s : State) : Host.Outcome (State × List Pulse) Fault Refusal :=
  andThen (runBlock .backing n u s) fun t => .next (completeOneShot n t, [.done])

/-- Mode 4, Repeated single (43_dma_transfer.md R119). -/
def modeRepeatedSingle (n : Chan) (u : Nat) (s : State) : Host.Outcome (State × List Pulse) Fault Refusal :=
  andThen (unitStep .working n u s) fun t =>
    if (counters t n .working).size = 0 then .next (completePass n t, [.done, .request])
    else .next (modFlags t n Flags.requested, [.request])

/-- Mode 5, Repeated block (43_dma_transfer.md R120). -/
def modeRepeatedBlock (n : Chan) (u : Nat) (s : State) : Host.Outcome (State × List Pulse) Fault Refusal :=
  andThen (runBlock .working n u s) fun t => .next (completePass n t, [.done, .request])

/-- The mode's procedure. -/
def runMode (m : Mode) (n : Chan) (u : Nat) (s : State) : Host.Outcome (State × List Pulse) Fault Refusal :=
  match m with
  | .single => modeSingle n u s
  | .block => modeBlock n u s
  | .repeatedSingle => modeRepeatedSingle n u s
  | .repeatedBlock => modeRepeatedBlock n u s

/-! ### Pulses and Run (43_dma_transfer.md R115, R124) -/

/-- `pulse(p)`: PinWrite(p, 1); PinWrite(p, 0) (00_scope.md R13). -/
def pulse (write : Writer) (p : Pin) (s : State) : Result :=
  andThen (write (.pin p) (pinVal true) s) fun t => write (.pin p) (pinVal false) t

/-- The output pin of a transition (43_dma_transfer.md R115). -/
def pulsePin (n : Chan) : Pulse → Pin
  | .done => .done n
  | .request => .reqo n

/-- The pulses of an invocation, in order (43_dma_transfer.md R115). -/
def emitPulses (write : Writer) (n : Chan) : List Pulse → State → Result
  | [], s => .next s
  | e :: es, s => andThen (pulse write (pulsePin n e) s) fun t => emitPulses write n es t

/-- `active[n] <- true` and the status normalised (43_dma_transfer.md R115). -/
def startInvocation (n : Chan) (s : State) : State :=
  s.modChan n fun ch => { ch with active := true, st := Flags.running }

/-- `active[n] <- false` (43_dma_transfer.md R115). -/
def endInvocation (n : Chan) (s : State) : State := s.modChan n fun ch => { ch with active := false }

/-- A rejected invocation: err set, run cleared, the error recorded; zero bus calls, no pulse
(43_dma_transfer.md R115, 60_exceptions.md R128). -/
def rejectInvocation (n : Chan) (e : Err) (s : State) : State :=
  endInvocation n ((modFlags s n Flags.configError).raise e)

/-- `Run(n)` (43_dma_transfer.md R115). -/
def run (write : Writer) (n : Chan) (s : State) : Result :=
  if (s.chan n).active then .fault (.reentrantChannel n s.markFaulted)
  else
    let t := startInvocation n s
    match modeOf (t.modeField n) with
    | none => .next (rejectInvocation n (.unsupportedMode n (t.modeField n)) t)
    | some m =>
      if t.sbyte n ≠ t.dbyte n then .next (rejectInvocation n (.unitSizeMismatch n) t)
      else
        andThen (runMode m n (unitLen (t.sbyte n)) t) fun r =>
          andThen (emitPulses write n r.2 r.1) fun t => .next (endInvocation n t)

/-! ### Triggers (43_dma_transfer.md R109 to R113) -/

/-- `SwTrigger(n)`, the handler of TRIGGER[n] (43_dma_transfer.md R110). -/
def swTrigger (write : Writer) (n : Chan) (s : State) : Result :=
  if s.en n = false then .next (s.raise (.triggerWhileDisabled n))
  else if s.test n && s.lvl n && transitioned (s.chan n).trigger.prev (s.chan n).trigger.cur (s.tsel n) then
    run write n s
  else .next s

/-- `TrigPinHandler(n, i, s)`, the callback of trigger input i of channel n with the pin's new state
(43_dma_transfer.md R111). -/
def trigPinHandler (write : Writer) (n : Chan) (i : Source) (high : Bool) (s : State) : Result :=
  if i ≠ s.tsel n then .next s
  else if high = false ∧ s.params.levelFallingTriggers = false then .next s
  else if s.en n = false then .next (s.raise (.triggerWhileDisabled n))
  else if s.test n then .next s
  else run write n s

end Sys2Proof.Machine
end

