-- ==== Sys2Proof/Machine/Handlers.lean ====
section
/-!
DEFINITION. The register write (40_register_framework.md R78 to R80) with the block's two handlers: CtrlHandler
(42_dma_registers.md R95) and SwTrigger (43_dma_transfer.md R110).
-/

namespace Sys2Proof.Machine

/-- `setSens` on all 32 trigger inputs of channel n (41_signal_fabric.md R92, 42_dma_registers.md R95). -/
def setSensAll (n : Chan) (sens : Sens) (s : State) : State :=
  s.modChan n fun ch => { ch with trig := mapEntries (fun p => { p with sens := sens }) ch.trig }

/-- The sensitivity that CTRL[n] gives its trigger inputs (42_dma_registers.md R95). -/
def sensOf (level : Bool) : Sens := if level then .level else .posedge

/-- Arming: the working copy loaded and req set (42_dma_registers.md R95). -/
def arm (n : Chan) (s : State) : State := modFlags (loadWorking s n) n Flags.armed

/-- `CtrlHandler(n)` (42_dma_registers.md R95). -/
def ctrlHandler (write : Writer) (n : Chan) (s : State) : Result :=
  let t := setSensAll n (sensOf (s.lvl n)) s
  if t.en n then pulse write (.reqo n) (arm n t) else .next t

/-- A handler of the block. No register of the block has another device's handler (70_reset_and_hazards.md R145), so
that case does nothing here. The raw value is not read: the handlers decode from `cur` (40_register_framework.md R80). -/
def runHandler (write : Writer) (h : Handler) (s : State) : Result :=
  match h with
  | .ctrl n => ctrlHandler write n s
  | .trigger n => swTrigger write n s
  | .ext _ => .next s

/-- `inCallback <- inCallback ∪ {r}` -/
def State.enterHandler (s : State) (r : RegId) : State := { s with inCallback := r :: s.inCallback }

/-- `inCallback <- inCallback \ {r}` -/
def State.leaveHandler (s : State) (r : RegId) : State := { s with inCallback := s.inCallback.erase r }

/-- The commit of a write and the register's handler, if it has one (40_register_framework.md R78, R80). -/
def commitAndHandle (write : Writer) (r : RegId) (v : Word) (s : State) : Result :=
  let t := s.commit r v
  match regRole r with
  | .onWrite h => andThen (runHandler write h ((t.enterHandler r).record (.handler r v))) fun t => .next (t.leaveHandler r)
  | .plain => .next t
  | .readOnly => .next t

/-- `RegWrite(r, v)` (40_register_framework.md R78), its causes in the order of 60_exceptions.md R134. -/
def regWrite (write : Writer) (r : RegId) (v : Word) (s : State) : Result :=
  let t := s.record (.regWrite r v)
  if regPerm r = .ro then .next (t.raise (.writeReadOnly r))
  else if r ∈ t.inCallback then .fault (.registerReentrancy r t.markFaulted)
  else commitAndHandle write r v t

end Sys2Proof.Machine
end

