-- ==== Sys2Proof/Machine/Fabric.lean ====
section
/-!
DEFINITION. The signal fabric (41_signal_fabric.md): sensitivity gating (R87), the signal write with its depth-first
propagation (R86, R88, R89, R90), the callbacks of other devices (R91) and the bind (R85).
-/

namespace Sys2Proof.Machine

/-- `fires(sens, old, new)`, evaluated only when old ≠ new (41_signal_fabric.md R87). Ports are level-only (R88). -/
def fires (sens : Sens) (old new : SigVal) : Bool :=
  match sens with
  | .level => true
  | .negedge => old.getLsbD 0 && !new.getLsbD 0
  | .posedge => !old.getLsbD 0 && new.getLsbD 0

/-! ### Operations from inside a callback (41_signal_fabric.md R91) -/

/-- Whether a pin is a member of `extPins` (10_state.md R34). -/
def State.isExtPin (s : State) : Pin → Bool
  | .ext k => k < s.extPins.length
  | .trig _ _ => false
  | .done _ => false
  | .reqo _ => false

/-- Whether a port exists; all ports belong to other devices (10_state.md R33). -/
def State.isExtPort (s : State) (k : Nat) : Bool := k < s.extPorts.length

/-- The offset field of a descriptor (30_encoding.md R60). -/
def offsetOf (d : BitVec 16) : Nat := (d.extractLsb' 0 9).toNat

/-- Whether the descriptor of a register access reads or writes (30_encoding.md R60). -/
def accessOf (d : BitVec 16) : Access := if d.extractLsb' 12 4 = 0 then .read else .write

/-- `fault BadAccess(offset, width)` of the register access with descriptor `d` (20_memory.md R43). The access is in the
history, as every register access is (10_state.md R36). -/
def badAccess (d : BitVec 16) (width : Nat) (s : State) : Result :=
  .fault (.badAccess (offsetOf d) width (s.record (.badAccess (accessOf d) (offsetOf d) width)).markFaulted)

/-- A refused operation inside a callback: it changes no state and sets the refusal mark; the operation that reached
the callback goes on (60_exceptions.md R133; notes/assumptions/6.md). -/
def refuseNested (s : State) : Result := .next s.markRefused

/-- One operation performed by another device's callback: classes 0 to 3 act as at the top level; any other class is
refused (41_signal_fabric.md R91, 60_exceptions.md R133). An access names its register, is not looked up in `regMap`, and is
4 bytes wide; one at a reserved row has the row's default offset (DESIGN CHOICE, notes/assumptions/16.md). -/
def nestedOp (write : Writer) (i : Instr) (s : State) : Result :=
  match i with
  | .rdCtrl n => regRead (.ctrl n) s
  | .wrCtrl n v => regWrite write (.ctrl n) v s
  | .rdSrc n => regRead (.src n) s
  | .wrSrc n v => regWrite write (.src n) v s
  | .rdDst n => regRead (.dst n) s
  | .wrDst n v => regWrite write (.dst n) v s
  | .rdSize n => regRead (.size n) s
  | .wrSize n v => regWrite write (.size n) v s
  | .rdTrigger n => regRead (.trigger n) s
  | .wrTrigger n v => regWrite write (.trigger n) v s
  | .rdCfg k => regRead (.cfg k) s
  | .wrCfg k v => regWrite write (.cfg k) v s
  | .rdStatus k => regRead (.status k) s
  | .wrStatus k v => regWrite write (.status k) v s
  | .pinWrite p b => if s.isExtPin p then write (.pin p) (pinVal b) s else refuseNested s
  | .portWrite k v => if s.isExtPort k then write (.port k) v s else refuseNested s
  | .bind _ _ => refuseNested s
  | .teardown => refuseNested s
  | .reset => refuseNested s
  | .createPin _ _ _ _ => refuseNested s
  | .createPort _ _ _ _ _ => refuseNested s
  | .createReg _ _ _ _ _ => refuseNested s
  | .rsvChOff14 _ _ => badAccess i.descriptor 4 s
  | .rsvChOff18 _ _ _ => badAccess i.descriptor 4 s
  | .rsvOff120 _ _ => badAccess i.descriptor 4 s
  | .rsvOff140 _ _ => badAccess i.descriptor 4 s
  | .rsvOff180 _ _ => badAccess i.descriptor 4 s
  | .rsvMisalignedB0 _ _ => badAccess i.descriptor 4 s
  | .rsvMisalignedB1 _ _ => badAccess i.descriptor 4 s
  | .rsvCls10 _ => refuseNested s
  | .rsvCls12 _ => refuseNested s

/-- A callback's operations, synchronously and in order (41_signal_fabric.md R91). -/
def nestedOps (write : Writer) : List Instr → State → Result
  | [], s => .next s
  | i :: is, s => andThen (nestedOp write i s) fun t => nestedOps write is t

/-- `envReact(i, v)`: the first entry for this input and value; the empty list where there is none
(41_signal_fabric.md R91). -/
def envReact (s : State) (i : Sig) (v : SigVal) : List Instr :=
  ((s.params.envReact.find? fun e => e.input = i && e.value = v).map fun e => e.ops).getD []

/-! ### Propagation -/

/-- An input's callback with its new state: the block's trigger inputs run TrigPinHandler (43_dma_transfer.md R111);
another device's input performs `envReact` (41_signal_fabric.md R91). -/
def callback (write : Writer) (i : Sig) (v : SigVal) (s : State) : Result :=
  let t := s.record (.callback i v)
  match i with
  | .pin (.trig n j) => trigPinHandler write n j (v.getLsbD 0) t
  | .pin (.ext _) => nestedOps write (envReact t i v) t
  | .port _ => nestedOps write (envReact t i v) t
  | .pin (.done _) => .next t
  | .pin (.reqo _) => .next t

/-- Bring one bound input to the output's new state and run its callback if it fires (41_signal_fabric.md R86). -/
def deliverOne (write : Writer) (old new : SigVal) (i : Sig) (s : State) : Result :=
  let t := s.setSig i new
  if fires (t.sens i) old new && t.hasCallback i then callback write i new t else .next t

/-- Visit the bound inputs in binding order, each to completion before the next (41_signal_fabric.md R86, R89). -/
def deliver (write : Writer) (old new : SigVal) : List Sig → State → Result
  | [], s => .next s
  | i :: is, s => andThen (deliverOne write old new i s) fun t => deliver write old new is t

/-- `p.state <- v; propagating <- propagating ∪ {p}` -/
def State.enterOutput (s : State) (p : Sig) (v : SigVal) : State :=
  { s.setSig p v with propagating := p :: s.propagating }

/-- `propagating <- propagating \ {p}` -/
def State.leaveOutput (s : State) (p : Sig) : State := { s with propagating := s.propagating.erase p }

/-- PinWrite and PortWrite (41_signal_fabric.md R86, R88), the causes in the order of 60_exceptions.md R134. `write` is
the signal write that callbacks use. The history holds the value as it was given, before it is cut to the signal's width
(DEDUCED, notes/assumptions/14.md). -/
def writeSignal (write : Writer) (p : Sig) (v : SigVal) (s : State) : Result :=
  let t := s.record (.sigWrite p v)
  match t.dir p with
  | none => .refused (.noSuchSignal p s.markRefused)
  | some .input => .next (t.raise (.writeToInput p))
  | some .output =>
    let new := t.fit p v
    let old := t.sig p
    if new = old then .next t
    else if p ∈ t.propagating then .fault (.outputReentrancy p t.markFaulted)
    else andThen (deliver write old new (t.inputsOf p) (t.enterOutput p new)) fun t => .next (t.leaveOutput p)

/-- The signal write with `k` levels of nesting allowed inside it. A level is spent only on an output that was not
propagating, so the bound of `nestBound` is never reached (notes/assumptions/13.md). -/
def sigWrite : Nat → Writer
  | 0 => fun _ _ s => .fault (.nestingExhausted s.markFaulted)
  | k + 1 => fun p v s => writeSignal (sigWrite k) p v s

/-- One more than the number of outputs there can be: 16 of the block and those of other devices. -/
def nestBound (s : State) : Nat := 17 + s.extPins.length + s.extPorts.length

/-- The signal write of an operation at the top level. -/
def topWrite (s : State) : Writer := sigWrite (nestBound s)

/-! ### Bind (41_signal_fabric.md R85) -/

/-- `(o, i)` of two signals of which exactly one is an output (41_signal_fabric.md R85). -/
def orient (da : Dir) (a b : Sig) : Sig × Sig :=
  match da with
  | .output => (a, b)
  | .input => (b, a)

/-- Whether an input is bound already, to any output (41_signal_fabric.md R85, 90_conflicts.md C8). -/
def State.bound (s : State) (i : Sig) : Bool := s.bindings.any fun b => b.2 = i

/-- The checks of a bind that come after the directions, in order: shape, then already bound; then the append
(41_signal_fabric.md R85, 60_exceptions.md R134). E10 and E11 record the two signals in argument order (DESIGN CHOICE,
notes/assumptions/17.md). -/
def bindOriented (a b : Sig) (oi : Sig × Sig) (s : State) : Result :=
  if s.shape a ≠ s.shape b then .next (s.raise (.bindShapeMismatch a b))
  else if s.bound oi.2 then .next (s.raise (.bindInputAlreadyBound a b))
  else .next { s with bindings := s.bindings ++ [oi] }

/-- `Bind(a, b)` (41_signal_fabric.md R85). A signal that does not exist is refused (notes/assumptions/12.md); E9 records
the two signals in argument order (DESIGN CHOICE, notes/assumptions/17.md). -/
def bindSignals (a b : Sig) (s : State) : Result :=
  match s.dir a, s.dir b with
  | none, _ => .refused (.noSuchSignal a s.markRefused)
  | some _, none => .refused (.noSuchSignal b s.markRefused)
  | some da, some db =>
    if da = db then .next (s.raise (.bindModeMatch a b)) else bindOriented a b (orient da a b) s

end Sys2Proof.Machine
end

