-- ==== Sys2Proof/Machine/Platform.lean ====
section
/-!
DEFINITION. The meanings of the platform's actions: RESET (70_reset_and_hazards.md R146), CREATE_PIN and CREATE_PORT
(41_signal_fabric.md R83, R84) and CREATE_REG (40_register_framework.md R76).
-/

namespace Sys2Proof.Machine

/-- `Reset()` (70_reset_and_hazards.md R146): registers, flags, working copies, active flags and the block's own pins;
direct, with no callback and no propagation. B, the other devices' pins, the marks and the history are kept. -/
def resetDevice (s : State) : State :=
  { s with
    chans := Vector.replicate 8 Channel.reset
    cfg := Vector.replicate 4 Cell.zero
    inCallback := []
    propagating := [] }

/-- RESET (70_reset_and_hazards.md R146) -/
def execReset (s : State) : Result := .next (resetDevice s)

/-- CREATE_PIN (41_signal_fabric.md R83): the pin joins the pins of other devices, in state 0
(notes/assumptions/7.md). -/
def execCreatePin (name : Tag) (mode : PinMode) (cb ctx : Option Tag) (s : State) : Result :=
  .next { s with extPins := s.extPins ++ [{ name := name, mode := mode, state := false, cb := cb, ctx := ctx }] }

/-- CREATE_PORT (41_signal_fabric.md R84): the port joins the ports of other devices, in state 0. A width outside
1 to 64 is refused (notes/assumptions/12.md). -/
def execCreatePort (name : Tag) (mode : PortMode) (width : Nat) (cb ctx : Option Tag) (s : State) : Result :=
  if 1 ≤ width ∧ width ≤ 64 then
    .next { s with
      extPorts := s.extPorts ++ [{ name := name, mode := mode, width := width, state := 0, cb := cb, ctx := ctx }] }
  else .refused (.portWidthOutOfRange width s.markRefused)

/-- The new cell of a CREATE_REG (40_register_framework.md R76). -/
def newCell (perm : Perm) (init : CellInit) (cb : Option Tag) : AnyCell :=
  match init with
  | .w32 v m => .w32 (createCell perm v m (cb.map Handler.ext))
  | .w64 v m => .w64 (createCell perm v m (cb.map Handler.ext))

/-- CREATE_REG (40_register_framework.md R76): the register joins the registers of other devices
(notes/assumptions/7.md). -/
def execCreateReg (name : Tag) (offset : BitVec 32) (perm : Perm) (init : CellInit) (cb : Option Tag) (s : State) :
    Result :=
  .next { s with otherRegs := s.otherRegs ++ [{ name := name, offset := offset, cell := newCell perm init cb }] }

end Sys2Proof.Machine
end

