-- ==== Sys2Proof/Machine/RegisterAccess.lean ====
section
/-!
DEFINITION. The meanings of the register reads and writes (42_dma_registers.md R95 to R108), one for each row of the
classes 0 and 1, over the framework's read and write.
-/

namespace Sys2Proof.Machine

/-- RD_CTRL (42_dma_registers.md R96) -/
def execRdCtrl (n : Chan) (s : State) : Result := regRead (.ctrl n) s

/-- WR_CTRL (42_dma_registers.md R95) -/
def execWrCtrl (n : Chan) (v : Word) (s : State) : Result := regWrite (topWrite s) (.ctrl n) v s

/-- RD_SRC (42_dma_registers.md R100) -/
def execRdSrc (n : Chan) (s : State) : Result := regRead (.src n) s

/-- WR_SRC (42_dma_registers.md R99) -/
def execWrSrc (n : Chan) (v : Word) (s : State) : Result := regWrite (topWrite s) (.src n) v s

/-- RD_DST (42_dma_registers.md R102) -/
def execRdDst (n : Chan) (s : State) : Result := regRead (.dst n) s

/-- WR_DST (42_dma_registers.md R101) -/
def execWrDst (n : Chan) (v : Word) (s : State) : Result := regWrite (topWrite s) (.dst n) v s

/-- RD_SIZE (42_dma_registers.md R104) -/
def execRdSize (n : Chan) (s : State) : Result := regRead (.size n) s

/-- WR_SIZE (42_dma_registers.md R103) -/
def execWrSize (n : Chan) (v : Word) (s : State) : Result := regWrite (topWrite s) (.size n) v s

/-- RD_TRIGGER (42_dma_registers.md R108) -/
def execRdTrigger (n : Chan) (s : State) : Result := regRead (.trigger n) s

/-- WR_TRIGGER (42_dma_registers.md R107) -/
def execWrTrigger (n : Chan) (v : Word) (s : State) : Result := regWrite (topWrite s) (.trigger n) v s

/-- RD_CFG (42_dma_registers.md R98) -/
def execRdCfg (k : Pair) (s : State) : Result := regRead (.cfg k) s

/-- WR_CFG (42_dma_registers.md R97) -/
def execWrCfg (k : Pair) (v : Word) (s : State) : Result := regWrite (topWrite s) (.cfg k) v s

/-- RD_STATUS (42_dma_registers.md R105) -/
def execRdStatus (k : Pair) (s : State) : Result := regRead (.status k) s

/-- WR_STATUS (42_dma_registers.md R106): rejected, E6 -/
def execWrStatus (k : Pair) (v : Word) (s : State) : Result := regWrite (topWrite s) (.status k) v s

end Sys2Proof.Machine
end

