-- ==== Sys2Proof/Machine/Reserved.lean ====
section
/-!
DEFINITION. The meanings of the reserved rows: `fault BadAccess` at the offsets that hold no register
(30_encoding.md R73(a), 20_memory.md R43) and the refusal of the reserved classes (R73(a2), 60_exceptions.md R133).
-/

namespace Sys2Proof.Machine

/-- RSV_CH_OFF14 (30_encoding.md R73(a)) -/
def execRsvChOff14 (d : Access) (n : Chan) (s : State) : Result :=
  badAccess (Instr.rsvChOff14 d n).descriptor 4 s

/-- RSV_CH_OFF18_1C (30_encoding.md R73(a)) -/
def execRsvChOff18 (d : Access) (n : Chan) (hi : Bool) (s : State) : Result :=
  badAccess (Instr.rsvChOff18 d n hi).descriptor 4 s

/-- RSV_OFF120_13C (30_encoding.md R73(a)) -/
def execRsvOff120 (d : Access) (m : Fin 8) (s : State) : Result :=
  badAccess (Instr.rsvOff120 d m).descriptor 4 s

/-- RSV_OFF140_17C (30_encoding.md R73(a)) -/
def execRsvOff140 (d : Access) (m : Fin 16) (s : State) : Result :=
  badAccess (Instr.rsvOff140 d m).descriptor 4 s

/-- RSV_OFF180_1FC (30_encoding.md R73(a)) -/
def execRsvOff180 (d : Access) (m : Fin 32) (s : State) : Result :=
  badAccess (Instr.rsvOff180 d m).descriptor 4 s

/-- RSV_MISALIGNED_B0 (20_memory.md R43) -/
def execRsvMisalignedB0 (d : Access) (m : Fin 256) (s : State) : Result :=
  badAccess (Instr.rsvMisalignedB0 d m).descriptor 4 s

/-- RSV_MISALIGNED_B1 (20_memory.md R43) -/
def execRsvMisalignedB1 (d : Access) (m : Fin 128) (s : State) : Result :=
  badAccess (Instr.rsvMisalignedB1 d m).descriptor 4 s

/-- The refusal of a descriptor that names no operation (30_encoding.md R73(a2), 60_exceptions.md R133). -/
def refuseDescriptor (d : BitVec 16) (s : State) : Result := .refused (.reservedDescriptor d s.markRefused)

/-- RSV_CLS_10_11 (30_encoding.md R73(a2)) -/
def execRsvCls10 (rest : BitVec 13) (s : State) : Result := refuseDescriptor (Instr.rsvCls10 rest).descriptor s

/-- RSV_CLS_12_15 (30_encoding.md R73(a2)) -/
def execRsvCls12 (rest : BitVec 14) (s : State) : Result := refuseDescriptor (Instr.rsvCls12 rest).descriptor s

end Sys2Proof.Machine
end

