-- ==== Sys2Proof/Machine/Signals.lean ====
section
/-!
DEFINITION. The meanings of the signal operations: PIN_WRITE, PORT_WRITE, BIND and TEARDOWN (41_signal_fabric.md R85,
R86, R88, R94).
-/

namespace Sys2Proof.Machine

/-- PIN_WRITE (41_signal_fabric.md R86): a program may name only the pins of other devices; any other pin is refused
(60_exceptions.md R133). -/
def execPinWrite (p : Pin) (b : Bool) (s : State) : Result :=
  if s.isExtPin p then topWrite s (.pin p) (pinVal b) s else .refused (.pinOutsideExtPins p s.markRefused)

/-- PORT_WRITE (41_signal_fabric.md R88): every port belongs to another device; a port that does not exist is refused
(60_exceptions.md R133). -/
def execPortWrite (k : Nat) (v : SigVal) (s : State) : Result :=
  if s.isExtPort k then topWrite s (.port k) v s else .refused (.portOutsideExtPins k s.markRefused)

/-- BIND (41_signal_fabric.md R85) -/
def execBind (a b : Sig) (s : State) : Result := bindSignals a b s

/-- TEARDOWN (41_signal_fabric.md R94): B <- []; nothing else changes (70_reset_and_hazards.md R149). -/
def execTeardown (s : State) : Result := .next { s with bindings := [] }

end Sys2Proof.Machine
end

