-- ==== Sys2Proof/Machine/Dispatch.lean ====
section
/-!
DEFINITION. The dispatch: one arm for each constructor of Instr, each a direct call of that operation's meaning.
-/

namespace Sys2Proof.Machine

def exec (i : Instr) (s : State) : Host.Outcome State Fault Refusal :=
  match i with
  | .rdCtrl n => Sys2Proof.Machine.execRdCtrl n s
  | .wrCtrl n v => Sys2Proof.Machine.execWrCtrl n v s
  | .rdSrc n => Sys2Proof.Machine.execRdSrc n s
  | .wrSrc n v => Sys2Proof.Machine.execWrSrc n v s
  | .rdDst n => Sys2Proof.Machine.execRdDst n s
  | .wrDst n v => Sys2Proof.Machine.execWrDst n v s
  | .rdSize n => Sys2Proof.Machine.execRdSize n s
  | .wrSize n v => Sys2Proof.Machine.execWrSize n v s
  | .rdTrigger n => Sys2Proof.Machine.execRdTrigger n s
  | .wrTrigger n v => Sys2Proof.Machine.execWrTrigger n v s
  | .rdCfg k => Sys2Proof.Machine.execRdCfg k s
  | .wrCfg k v => Sys2Proof.Machine.execWrCfg k v s
  | .rdStatus k => Sys2Proof.Machine.execRdStatus k s
  | .wrStatus k v => Sys2Proof.Machine.execWrStatus k v s
  | .pinWrite p b => Sys2Proof.Machine.execPinWrite p b s
  | .portWrite k v => Sys2Proof.Machine.execPortWrite k v s
  | .bind a b => Sys2Proof.Machine.execBind a b s
  | .teardown => Sys2Proof.Machine.execTeardown s
  | .reset => Sys2Proof.Machine.execReset s
  | .createPin name mode cb ctx => Sys2Proof.Machine.execCreatePin name mode cb ctx s
  | .createPort name mode width cb ctx => Sys2Proof.Machine.execCreatePort name mode width cb ctx s
  | .createReg name offset perm init cb => Sys2Proof.Machine.execCreateReg name offset perm init cb s
  | .rsvChOff14 d n => Sys2Proof.Machine.execRsvChOff14 d n s
  | .rsvChOff18 d n hi => Sys2Proof.Machine.execRsvChOff18 d n hi s
  | .rsvOff120 d m => Sys2Proof.Machine.execRsvOff120 d m s
  | .rsvOff140 d m => Sys2Proof.Machine.execRsvOff140 d m s
  | .rsvOff180 d m => Sys2Proof.Machine.execRsvOff180 d m s
  | .rsvMisalignedB0 d m => Sys2Proof.Machine.execRsvMisalignedB0 d m s
  | .rsvMisalignedB1 d m => Sys2Proof.Machine.execRsvMisalignedB1 d m s
  | .rsvCls10 rest => Sys2Proof.Machine.execRsvCls10 rest s
  | .rsvCls12 rest => Sys2Proof.Machine.execRsvCls12 rest s

end Sys2Proof.Machine
end

