-- ==== Sys2Proof/Machine/Fetch.lean ====
section
/-!
DEFINITION. How an issued operation reaches the block (00_scope.md R15; notes/assumptions/1.md): the next packet is
taken from the queue of what the outside agents issue, its access width checked (20_memory.md R43), its offset looked up in
the platform's register map (30_encoding.md R62), and decoded (R60).
-/

namespace Sys2Proof.Machine

/-- What the fetch finds. -/
inductive Fetched where
  /-- no operation is issued -/
  | idle
  /-- the packet stops before any operation runs -/
  | stop (o : Result)
  /-- the operation, with the state in which its packet has been taken -/
  | op (i : Instr) (s : State)

/-- Whether a descriptor is that of a register access: class 0 or 1, and z = 0 (30_encoding.md R60). -/
def isAccess (d : BitVec 16) : Bool := d.extractLsb' 9 3 = 0 && (d.extractLsb' 12 4).toNat ≤ 1

/-- The refusal of a packet that names no operation (60_exceptions.md R133). -/
def refusePacket (e : DecodeError) (s : State) : Result :=
  match e with
  | .truncatedDescriptor => .refused (.truncatedDescriptor s.markRefused)
  | .reservedDescriptor d => refuseDescriptor d s
  | .malformedOperands d => .refused (.malformedOperands d s.markRefused)

/-- The descriptor whose row of spec/opcode_table.json a descriptor stands for. The rows are written for the default
`regMap`; with another map, an access to an offset that holds register r is the row of r, and an access to an offset that
holds none is the reserved row of that offset, or none where the default map has a register there
(30_encoding.md R62; notes/assumptions/10.md). -/
def rowDescriptor (m : RegMap) (d : BitVec 16) : Option (BitVec 16) :=
  if isAccess d then
    match regIn m (d.extractLsb' 0 9) with
    | some r => some (accessDescriptor (accessOf d) r.offset)
    | none => if regAt (d.extractLsb' 0 9) = none then some d else none
  else some d

/-- A packet with its descriptor replaced by its row's; none where no row stands for an access to an offset that holds no
register. -/
def rowPacket (m : RegMap) : List Byte → Option (List Byte)
  | b0 :: b1 :: bs => (rowDescriptor m (b1 ++ b0)).map fun d => descriptorBytes d ++ bs
  | bs => some bs

/-- Decode a packet whose access is accepted. -/
def fetchRow (bytes : List Byte) (t : State) : Fetched :=
  match decode t.params.regByteOrder bytes with
  | .ok (i, _) => .op i t
  | .error e => .stop (refusePacket e t)

/-- Take a packet. A register access of a width other than 4 bytes, or at an offset that holds no register, faults before its
operands are looked at (20_memory.md R43; BadAccess comes first in 60_exceptions.md R134). -/
def fetchPacket (p : Issued) (t : State) : Fetched :=
  match p.bytes with
  | b0 :: b1 :: bs =>
    let d : BitVec 16 := b1 ++ b0
    if isAccess d && p.width != 4 then .stop (badAccess d p.width t)
    else
      match rowPacket t.params.regMap (b0 :: b1 :: bs) with
      | none => .stop (badAccess d p.width t)
      | some bytes => fetchRow bytes t
  | bs => fetchRow bs t

/-- Take the next packet. -/
def fetch (s : State) : Fetched :=
  match s.pending with
  | [] => .idle
  | p :: rest => fetchPacket p { s with pending := rest }

/-- The state with one more packet issued, next of all. -/
def State.issueNext (s : State) (p : Issued) : State := { s with pending := p :: s.pending }

end Sys2Proof.Machine
end

