-- ==== Sys2Proof/Machine/Step.lean ====
section
/-!
DEFINITION. One step: the next issued operation runs to completion (00_scope.md R15, 20_memory.md R54). With none
issued nothing happens (70_reset_and_hazards.md R147).
-/

namespace Sys2Proof.Machine

/-- One step of the machine. -/
def step (s : State) : Host.Outcome State Fault Refusal :=
  match fetch s with
  | .idle => .next s
  | .stop o => o
  | .op i t => exec i t

/-- The state with a table row's word issued next, as a packet with an access width of 4 bytes
(notes/assumptions/1.md). -/
def State.withFetchWord (s : State) (nbits w : Nat) : State :=
  s.issueNext { bytes := packetOfWord nbits w, width := 4 }

end Sys2Proof.Machine
end

