-- ==== Sys2Proof/Safety.lean ====
section
/-!
DEFINITION. The words that claims use: what is left unchanged, what the requests of a transfer look like in the history,
when a transfer keeps clear of the register window, and the conditions that hold between operations.
-/

namespace Sys2Proof.Machine

/-- Whether an operation is a register access: class 0 or 1 of its descriptor (30_encoding.md R60). -/
def isRegAccess (i : Instr) : Bool := (i.descriptor.extractLsb' 12 4).toNat ≤ 1

/-- The outcome of a register access that is not accepted: BadAccess with its offset and width, the access in the history,
the fault mark set, and nothing else changed (20_memory.md R43, 60_exceptions.md R132). -/
def rejectedAccess (d : Access) (offset width : Nat) (s : State) : Result :=
  .fault (.badAccess offset width { s with hist := s.hist ++ [.badAccess d offset width], faultMark := true })

/-! ### What is left unchanged -/

/-- Two channels agree in all but their pins: registers, flags, working copy and active flag. -/
structure Channel.SameBody (c d : Channel) : Prop where
  ctrl : c.ctrl = d.ctrl
  src : c.src = d.src
  dst : c.dst = d.dst
  size : c.size = d.size
  trigger : c.trigger = d.trigger
  st : c.st = d.st
  wk : c.wk = d.wk
  active : c.active = d.active

/-- Channel n and the history may differ, and on the bus side the answers, the draws and the plain byte memory; nothing
else. -/
structure OnlyChannel (n : Chan) (s t : State) : Prop where
  others : ∀ m, m ≠ n → t.chan m = s.chan m
  cfg : t.cfg = s.cfg
  extPins : t.extPins = s.extPins
  extPorts : t.extPorts = s.extPorts
  bindings : t.bindings = s.bindings
  propagating : t.propagating = s.propagating
  inCallback : t.inCallback = s.inCallback
  otherRegs : t.otherRegs = s.otherRegs
  faultMark : t.faultMark = s.faultMark
  refusalMark : t.refusalMark = s.refusalMark
  params : t.params = s.params
  pending : t.pending = s.pending

/-- The bus side of the model is as it was. -/
structure BusSame (s t : State) : Prop where
  answers : t.answers = s.answers
  draws : t.draws = s.draws
  mem : t.mem = s.mem

/-! ### The requests of a transfer (43_dma_transfer.md R121; 20_memory.md R47, R48) -/

/-- The error that follows a MemWrite: E4 if it failed. -/
def writeErrors (n : Chan) (d : Word) (ok : Bool) : List Event := if ok then [] else [.error (.busWriteFail n d)]

/-- The events of one unit of `u` bytes from `a` to `d` by channel n: one MemRead and then one MemWrite of the bytes read;
after a failed read E3 and then either no MemWrite or one of any bytes. -/
def UnitEvents (n : Chan) (a d : Word) (u : Nat) (es : List Event) : Prop :=
  (∃ bytes ok, bytes.length = u ∧
    es = [.memRead a.toNat bytes true, .memWrite d.toNat bytes ok] ++ writeErrors n d ok) ∨
  (∃ bytes, bytes.length = u ∧ es = [.memRead a.toNat bytes false, .error (.busReadFail n a)]) ∨
  (∃ bytes any ok, bytes.length = u ∧ any.length = u ∧
    es = [.memRead a.toNat bytes false, .error (.busReadFail n a), .memWrite d.toNat any ok] ++ writeErrors n d ok)

/-- The events of `k` units in a row, the addresses stepped by their policies. -/
def TransferEvents (n : Chan) (sinc dinc : BitVec 2) (u : Nat) : Nat → Word → Word → List Event → Prop
  | 0, _, _, es => es = []
  | k + 1, a, d, es => ∃ e1 e2, es = e1 ++ e2 ∧ UnitEvents n a d u e1 ∧
      TransferEvents n sinc dinc u k (adj a sinc u) (adj d dinc u) e2

/-- An address after `k` units (43_dma_transfer.md R123). -/
def addrAfter (pol : BitVec 2) (u : Nat) : Nat → Word → Word
  | 0, x => x
  | k + 1, x => addrAfter pol u k (adj x pol u)

/-- None of the `k` units from these counters reaches the register window (20_memory.md R52). -/
def ClearOfWindow (s : State) (n : Chan) (u k : Nat) (c : Counters) : Prop :=
  ∀ j, j < k → reachesWindow s (addrAfter (s.sinc n) u j c.src) u = false ∧
    reachesWindow s (addrAfter (s.dinc n) u j c.dst) u = false

/-- Of the plain byte memory only the bytes that the `k` units store to may differ (notes/assumptions/5.md). -/
def StoresOnly (s t : State) (n : Chan) (u k : Nat) (d : Word) : Prop :=
  ∀ x, (∀ j, j < k → x ∉ byteAddrs s (addrAfter (s.dinc n) u j d) u) → memGet t.mem x = memGet s.mem x

/-- The two writes of a pulse of a pin (00_scope.md R13). -/
def pulseEvents (p : Pin) : List Event := [.sigWrite (.pin p) 1, .sigWrite (.pin p) 0]

/-- An output of the block that is bound to nothing, is low and is not propagating: its pulse reaches nobody. -/
structure QuietOutput (s : State) (p : Pin) : Prop where
  unbound : s.inputsOf (.pin p) = []
  low : s.sig (.pin p) = 0
  still : (.pin p) ∉ s.propagating

/-! ### Conditions between operations -/

/-- Nothing is in progress and both outputs of every channel are low (10_state.md R29, R35; 43_dma_transfer.md R124;
70_reset_and_hazards.md R158). -/
structure Quiet (s : State) : Prop where
  propagating : s.propagating = []
  inCallback : s.inCallback = []
  active : ∀ n, (s.chan n).active = false
  run : ∀ n, (s.chan n).st.run = false
  done : ∀ n, (s.chan n).done = false
  reqo : ∀ n, (s.chan n).reqo = false

/-- The reserved bits of CTRL and CFG are 0 (30_encoding.md R63, R68, R73(b)). -/
structure ReservedZero (s : State) : Prop where
  ctrl : ∀ n, (s.chan n).ctrl.cur &&& ~~~ ctrlMask s.params.ctrlLayout = 0
  cfg : ∀ k, (s.cfgCell k).cur &&& ~~~ 0x001F001F#32 = 0

/-- Every trigger input has the sensitivity that DMALEVEL gives it (42_dma_registers.md R95). -/
def SensFollows (s : State) : Prop := ∀ n i, s.sens (.pin (.trig n i)) = sensOf (s.lvl n)

/-- Every binding joins an output to an input of its kind and width, and no input is bound twice (10_state.md R34;
41_signal_fabric.md R85). -/
structure BindingsOk (s : State) : Prop where
  ends : ∀ b ∈ s.bindings, s.dir b.1 = some .output ∧ s.dir b.2 = some .input ∧ s.shape b.1 = s.shape b.2
  once : (s.bindings.map Prod.snd).Nodup

/-- Every port is 1 to 64 bits wide and holds a value of its width (10_state.md R32). -/
def PortsOk (s : State) : Prop := ∀ p ∈ s.extPorts, 1 ≤ p.width ∧ p.width ≤ 64 ∧ p.state.toNat < 2 ^ p.width

/-- Channel n accepts no signal trigger: it is disabled or in test mode (43_dma_transfer.md R111, R113). -/
def Blocked (n : Chan) (s : State) : Prop := s.en n = false ∨ s.test n = true

/-- The state that a fault carries. -/
def Fault.state : Fault → State
  | .badAccess _ _ s => s
  | .registerReentrancy _ s => s
  | .outputReentrancy _ s => s
  | .reentrantChannel _ s => s
  | .sizeUnderrun _ _ _ s => s
  | .selfAccess _ s => s
  | .nestingExhausted s => s

/-- The state that a refusal carries; an operation with no meaning yet carries none. -/
def Refusal.state : Refusal → Option State
  | .truncatedDescriptor s => some s
  | .reservedDescriptor _ s => some s
  | .malformedOperands _ s => some s
  | .pinOutsideExtPins _ s => some s
  | .portOutsideExtPins _ s => some s
  | .noSuchSignal _ s => some s
  | .portWidthOutOfRange _ s => some s
  | _ => none

end Sys2Proof.Machine
end

