-- ==== Sys2Proof/Certificates/Slice0/Obligations.lean ====
section
/-!
DEFINITION. The statements for the provers. Each docstring names the rules of spec/ it formalises, and the log entry where
a clause rests on the model's own choice.
-/

open Sys2Proof Sys2Proof.Machine

/-! ### Decoding and stepping -/

/-- A few descriptors written out from 30_encoding.md R60 and R62 (95_test_vectors.md V3.7 and the programs) decode to
their operations. The operand bytes of the writes are zeros (notes/assumptions/2.md). -/
def Obligations.DecodedWords : Prop :=
  decodeTableWord 16 0x0060 = some (.rdCtrl 3) ∧ decodeTableWord 16 0x1060 = some (.wrCtrl 3 0) ∧
  decodeTableWord 16 0x00EC = some (.rdSize 7) ∧ decodeTableWord 16 0x1090 = some (.wrTrigger 4 0) ∧
  decodeTableWord 16 0x0118 = some (.rdStatus 2) ∧ decodeTableWord 16 0x1104 = some (.wrCfg 1 0) ∧
  decodeTableWord 16 0x5000 = some .teardown ∧ decodeTableWord 16 0x6000 = some .reset ∧
  decodeTableWord 16 0x0014 = some (.rsvChOff14 .read 0) ∧ decodeTableWord 16 0x0200 = none

/-- Decode and encode are inverse to each other: a well-formed operation is read back from its packet with every operand,
in either byte order and whatever follows; and what the decoder reads is a well-formed operation whose packet is exactly
the bytes read (30_encoding.md R60, R62, R73; the operand layout is the model's, notes/assumptions/2.md). -/
def Obligations.DecodeEncodeInverse : Prop :=
  ∀ (bo : ByteOrder) (i : Instr) (bytes rest : List Byte),
    (i.wellFormed = true → decode bo (encode bo i ++ rest) = .ok (i, rest)) ∧
    (decode bo bytes = .ok (i, rest) → i.wellFormed = true ∧ bytes = encode bo i ++ rest)

/-- The offset of every register in the default map, that the decoder finds the register at its offset and at no other, and
that a packet then stands for itself; and that with any map a read or a write at an offset where the map has register r
stands for the default packet of r (30_encoding.md R62). How a packet of another map stands for a row, and that the first of two
entries counts, is the model's choice (notes/assumptions/10.md). -/
def Obligations.OffsetMap : Prop :=
  (∀ n : Chan, (RegId.ctrl n).offset = 0x20 * n.val ∧ (RegId.src n).offset = 0x004 + 0x20 * n.val ∧
    (RegId.dst n).offset = 0x008 + 0x20 * n.val ∧ (RegId.size n).offset = 0x00C + 0x20 * n.val ∧
    (RegId.trigger n).offset = 0x010 + 0x20 * n.val) ∧
  (∀ k : Pair, (RegId.cfg k).offset = 0x100 + 4 * k.val ∧ (RegId.status k).offset = 0x110 + 4 * k.val) ∧
  (∀ (off : BitVec 9) (r : RegId), (regAt off = some r ↔ off.toNat = r.offset) ∧
    (regIn defaultRegMap off = some r ↔ off.toNat = r.offset)) ∧
  (∀ bytes : List Byte, rowPacket defaultRegMap bytes = some bytes) ∧
  (∀ (m : RegMap) (off : BitVec 9) (r : RegId) (bs : List Byte), regIn m off = some r →
    rowPacket m (descriptorBytes (0b0000000#7 ++ off) ++ bs) =
      some (descriptorBytes (BitVec.ofNat 16 r.offset) ++ bs) ∧
    rowPacket m (descriptorBytes (0b0001000#7 ++ off) ++ bs) =
      some (descriptorBytes (BitVec.ofNat 16 (0x1000 + r.offset)) ++ bs))

/-- A descriptor that names no operation is refused: z not 0, cls 10 to 15, or off not 0 in a class other than 0 and 1
(30_encoding.md R73(a2), 60_exceptions.md R133). Nothing changes but the queue, from which the packet is taken
(notes/assumptions/1.md), and the refusal mark. -/
def Obligations.NamelessDescriptorRefused : Prop :=
  ∀ (s : State) (d : BitVec 16) (bs : List Byte) (width : Nat) (rest : List Issued),
    s.pending = { bytes := d.extractLsb' 0 8 :: d.extractLsb' 8 8 :: bs, width := width } :: rest →
    (d.extractLsb' 9 3 ≠ 0 ∨ 10 ≤ (d.extractLsb' 12 4).toNat ∨
      (2 ≤ (d.extractLsb' 12 4).toNat ∧ d.extractLsb' 0 9 ≠ 0)) →
    step s = .refused (.reservedDescriptor d { s with pending := rest, refusalMark := true })

/-- A step runs the decoded operation: when the next packet, its offset looked up in the register map (which by OffsetMap
changes nothing of a packet in the default map), decodes to i, and i is no register access or its access width is 4, the step
is exec of i in the state from which the packet has been taken (00_scope.md R15; notes/assumptions/1.md, 10.md). -/
def Obligations.StepRunsDecoded : Prop :=
  ∀ (s : State) (p : Issued) (rest : List Issued) (bytes : List Byte) (i : Instr) (more : List Byte),
    s.pending = p :: rest → rowPacket s.params.regMap p.bytes = some bytes →
    decode s.params.regByteOrder bytes = .ok (i, more) → (isRegAccess i = false ∨ p.width = 4) →
    step s = exec i { s with pending := rest }

/-- Nothing happens until an agent issues an operation (70_reset_and_hazards.md R147). -/
def Obligations.NothingIssuedNothingHappens : Prop := ∀ s : State, s.pending = [] → step s = .next s

/-- A register access that the block cannot accept has the outcome BadAccess with its offset and width, and changes nothing
but the fault mark and the history, which holds the access: one at an offset where the register map has no register or that is
not a multiple of 4, whatever its width, and one of a width other than 4 bytes, whatever bytes follow its descriptor
(20_memory.md R43, 60_exceptions.md R131, 10_state.md R36; the width stands beside the packet, notes/assumptions/1.md; the
form of the event, notes/assumptions/14.md). -/
def Obligations.UnacceptableAccessesFault : Prop :=
  ∀ (s : State) (d : BitVec 16) (bs : List Byte) (width : Nat) (rest : List Issued),
    s.pending = { bytes := d.extractLsb' 0 8 :: d.extractLsb' 8 8 :: bs, width := width } :: rest →
    d.extractLsb' 9 3 = 0 → (d.extractLsb' 12 4).toNat ≤ 1 →
    (regIn s.params.regMap (d.extractLsb' 0 9) = none ∨ width ≠ 4) →
    step s = rejectedAccess (if (d.extractLsb' 12 4).toNat = 0 then .read else .write) (d.extractLsb' 0 9).toNat width
      { s with pending := rest }

/-- The reserved and the misaligned offsets: every access there has the outcome BadAccess with its offset, and changes
nothing but the fault mark and the history, which holds the access (30_encoding.md R73(a), 20_memory.md R43, 10_state.md R36;
the form of the event, notes/assumptions/14.md). -/
def Obligations.ReservedOffsetsFault : Prop :=
  ∀ (s : State) (d : Access),
    (∀ n : Chan, exec (.rsvChOff14 d n) s = rejectedAccess d (0x14 + 0x20 * n.val) 4 s) ∧
    (∀ n : Chan, exec (.rsvChOff18 d n false) s = rejectedAccess d (0x18 + 0x20 * n.val) 4 s ∧
      exec (.rsvChOff18 d n true) s = rejectedAccess d (0x1C + 0x20 * n.val) 4 s) ∧
    (∀ m : Fin 8, exec (.rsvOff120 d m) s = rejectedAccess d (0x120 + 4 * m.val) 4 s) ∧
    (∀ m : Fin 16, exec (.rsvOff140 d m) s = rejectedAccess d (0x140 + 4 * m.val) 4 s) ∧
    (∀ m : Fin 32, exec (.rsvOff180 d m) s = rejectedAccess d (0x180 + 4 * m.val) 4 s) ∧
    (∀ m : Fin 256, exec (.rsvMisalignedB0 d m) s = rejectedAccess d (2 * m.val + 1) 4 s) ∧
    (∀ m : Fin 128, exec (.rsvMisalignedB1 d m) s = rejectedAccess d (4 * m.val + 2) 4 s)

/-- The reserved classes name no operation: each is refused with its own descriptor and changes nothing but the refusal
mark (60_exceptions.md R133, 30_encoding.md R73(a2)). -/
def Obligations.ReservedClassesRefused : Prop :=
  ∀ s : State,
    (∀ rest : BitVec 13, exec (.rsvCls10 rest) s =
      .refused (.reservedDescriptor (BitVec.ofNat 16 (0xA000 + rest.toNat)) { s with refusalMark := true })) ∧
    (∀ rest : BitVec 14, exec (.rsvCls12 rest) s =
      .refused (.reservedDescriptor (BitVec.ofNat 16 (0xC000 + rest.toNat)) { s with refusalMark := true }))

/-! ### Reset and creation -/

/-- RESET leaves the state of 10_state.md R37, as 70_reset_and_hazards.md R146 says: every register, flag, working copy,
active flag and pin of the block at its reset value, nothing in progress; the bindings, the other devices' pins, ports and
registers, the marks, the history, the parameters and the rest of the model's own fields are kept. -/
def Obligations.ResetLeaves : Prop :=
  ∀ s : State, ∃ t, exec .reset s = .next t ∧
    (∀ r : RegId, t.values r = { cur := 0, prev := 0 }) ∧
    (∀ n, (t.chan n).st = { done := false, run := false, req := false, err := false } ∧
      (t.chan n).wk = { src := 0, dst := 0, size := 0 } ∧ (t.chan n).active = false ∧
      (t.chan n).done = false ∧ (t.chan n).reqo = false ∧ t.en n = false ∧
      ∀ i : Source, (t.chan n).trig[i] = { sens := .posedge, state := false }) ∧
    t.inCallback = [] ∧ t.propagating = [] ∧
    t.bindings = s.bindings ∧ t.extPins = s.extPins ∧ t.extPorts = s.extPorts ∧ t.otherRegs = s.otherRegs ∧
    t.faultMark = s.faultMark ∧ t.refusalMark = s.refusalMark ∧ t.hist = s.hist ∧ t.params = s.params ∧
    t.pending = s.pending ∧ t.answers = s.answers ∧ t.draws = s.draws ∧ t.mem = s.mem

/-- The state after creation: RESET changes nothing of it, no binding exists, nothing is recorded, and the conditions that
hold between operations hold (10_state.md R37, 70_reset_and_hazards.md R145; the other devices' signals, the marks and the
history are the model's choice, notes/assumptions/3.md and 8.md). -/
def Obligations.CreationState : Prop :=
  exec .reset State.reset = .next State.reset ∧ State.reset.bindings = [] ∧ State.reset.hist = [] ∧
  Quiet State.reset ∧ ReservedZero State.reset ∧ SensFollows State.reset ∧ BindingsOk State.reset ∧
  PortsOk State.reset ∧ Memory.wf State.reset.mem = true

/-- CREATE_PIN: the new pin has the direction and sensitivity of its mode, state 0 and its callback and context; nothing
else changes (41_signal_fabric.md R83; it joins the other devices' pins, notes/assumptions/7.md). -/
def Obligations.CreatePinResult : Prop :=
  ∀ (s : State) (name : Tag) (mode : PinMode) (cb ctx : Option Tag), ∃ t,
    exec (.createPin name mode cb ctx) s = .next t ∧
    t = { s with extPins := s.extPins ++ [{ name := name, mode := mode, state := false, cb := cb, ctx := ctx }] } ∧
    t.sig (.pin (.ext s.extPins.length)) = 0 ∧
    t.dir (.pin (.ext s.extPins.length)) = some (if mode = .out then .output else .input) ∧
    (mode = .inLevel → t.sens (.pin (.ext s.extPins.length)) = .level) ∧
    (mode = .inNegedge → t.sens (.pin (.ext s.extPins.length)) = .negedge) ∧
    (mode = .inPosedge → t.sens (.pin (.ext s.extPins.length)) = .posedge)

/-- CREATE_PORT: as CREATE_PIN, with a width of 1 to 64 bits and, for an input, level sensitivity
(41_signal_fabric.md R84). A width outside that range is refused (the model's choice, notes/assumptions/12.md). -/
def Obligations.CreatePortResult : Prop :=
  ∀ (s : State) (name : Tag) (mode : PortMode) (width : Nat) (cb ctx : Option Tag),
    (1 ≤ width → width ≤ 64 → ∃ t,
      exec (.createPort name mode width cb ctx) s = .next t ∧
      t = { s with extPorts :=
        s.extPorts ++ [{ name := name, mode := mode, width := width, state := 0, cb := cb, ctx := ctx }] } ∧
      t.sig (.port s.extPorts.length) = 0 ∧ t.sens (.port s.extPorts.length) = .level ∧
      t.shape (.port s.extPorts.length) = some width ∧
      t.dir (.port s.extPorts.length) = some (if mode = .out then .output else .input)) ∧
    (width = 0 ∨ 64 < width →
      exec (.createPort name mode width cb ctx) s = .refused (.portWidthOutOfRange width { s with refusalMark := true }))

/-- CREATE_REG: the new cell has its name, offset, permission and mask, cur = prev = init stored unmasked, and the role that
permission and callback give it; nothing else changes (40_register_framework.md R76; it joins the other devices' registers,
notes/assumptions/7.md). -/
def Obligations.CreateRegResult : Prop :=
  ∀ (s : State) (name : Tag) (offset : BitVec 32) (perm : Perm) (cb : Option Tag),
    (∀ init mask : BitVec 32, ∃ c : RegCell 32,
      exec (.createReg name offset perm (.w32 init mask) cb) s =
        .next { s with otherRegs := s.otherRegs ++ [{ name := name, offset := offset, cell := .w32 c }] } ∧
      c.cur = init ∧ c.prev = init ∧ c.mask = mask ∧ c.perm = perm ∧
      c.role = if perm = .ro then .readOnly else cb.elim .plain fun h => .onWrite (.ext h)) ∧
    (∀ init mask : BitVec 64, ∃ c : RegCell 64,
      exec (.createReg name offset perm (.w64 init mask) cb) s =
        .next { s with otherRegs := s.otherRegs ++ [{ name := name, offset := offset, cell := .w64 c }] } ∧
      c.cur = init ∧ c.prev = init ∧ c.mask = mask ∧ c.perm = perm ∧
      c.role = if perm = .ro then .readOnly else cb.elim .plain fun h => .onWrite (.ext h))

/-! ### Register reads and writes -/

/-- The reads of CTRL, SRC, DST, SIZE, TRIGGER and CFG return the register's current value and change nothing but the
history (42_dma_registers.md R96, R98, R100, R102, R104, R108; 20_memory.md R44). -/
def Obligations.ReadsReturnCurrent : Prop :=
  ∀ s : State,
    (∀ n : Chan,
      exec (.rdCtrl n) s = .next (s.record (.regRead (.ctrl n) (s.chan n).ctrl.cur)) ∧
      exec (.rdSrc n) s = .next (s.record (.regRead (.src n) (s.chan n).src.cur)) ∧
      exec (.rdDst n) s = .next (s.record (.regRead (.dst n) (s.chan n).dst.cur)) ∧
      exec (.rdSize n) s = .next (s.record (.regRead (.size n) (s.chan n).size.cur)) ∧
      exec (.rdTrigger n) s = .next (s.record (.regRead (.trigger n) (s.chan n).trigger.cur))) ∧
    (∀ k : Pair, exec (.rdCfg k) s = .next (s.record (.regRead (.cfg k) (s.cfgCell k).cur)))

/-- The read of STATUS[k] returns the packing of the flags of channels 2k and 2k+1, bit by bit, and changes nothing but the
history (30_encoding.md R69, 42_dma_registers.md R105). -/
def Obligations.ReadStatusPacks : Prop :=
  ∀ (s : State) (k : Pair), ∃ v : Word,
    exec (.rdStatus k) s = .next (s.record (.regRead (.status k) v)) ∧
    ∀ j, j < 32 → v.getLsbD j =
      if j = 0 then (s.chan (evenChan k)).st.done else if j = 1 then (s.chan (evenChan k)).st.run
      else if j = 2 then (s.chan (evenChan k)).st.req else if j = 3 then (s.chan (evenChan k)).st.err
      else if j = 16 then (s.chan (oddChan k)).st.done else if j = 17 then (s.chan (oddChan k)).st.run
      else if j = 18 then (s.chan (oddChan k)).st.req else if j = 19 then (s.chan (oddChan k)).st.err
      else false

/-- Writes of SRC, DST and SIZE store the whole word, keep the old value as the previous one, and change nothing else but
the history (42_dma_registers.md R99, R101, R103; 40_register_framework.md R78). The working copy is not touched
(10_state.md R28). -/
def Obligations.DataRegisterWrites : Prop :=
  ∀ (s : State) (n : Chan) (v : Word),
    (.src n ∉ s.inCallback → exec (.wrSrc n v) s = .next
      { s.modChan n (fun c => { c with src := { cur := v, prev := c.src.cur } }) with
        hist := s.hist ++ [.regWrite (.src n) v] }) ∧
    (.dst n ∉ s.inCallback → exec (.wrDst n v) s = .next
      { s.modChan n (fun c => { c with dst := { cur := v, prev := c.dst.cur } }) with
        hist := s.hist ++ [.regWrite (.dst n) v] }) ∧
    (.size n ∉ s.inCallback → exec (.wrSize n v) s = .next
      { s.modChan n (fun c => { c with size := { cur := v, prev := c.size.cur } }) with
        hist := s.hist ++ [.regWrite (.size n) v] })

/-- A write of CFG[k] stores the word under its mask; the selectors of channels 2k and 2k+1 are then its bits [4:0] and
[20:16], and no other selector changes (42_dma_registers.md R97, 30_encoding.md R68, 70_reset_and_hazards.md R157;
that the event holds the word delivered, notes/assumptions/14.md). -/
def Obligations.CfgWrite : Prop :=
  ∀ (s : State) (k : Pair) (v : Word), .cfg k ∉ s.inCallback → ∃ t,
    exec (.wrCfg k v) s = .next t ∧
    t = { s.setCfg k { cur := v &&& 0x001F001F, prev := (s.cfgCell k).cur } with
      hist := s.hist ++ [.regWrite (.cfg k) v] } ∧
    (t.tsel (evenChan k)).val = (v.extractLsb' 0 5).toNat ∧ (t.tsel (oddChan k)).val = (v.extractLsb' 16 5).toNat ∧
    ∀ n : Chan, n ≠ evenChan k → n ≠ oddChan k → t.tsel n = s.tsel n

/-- A write of STATUS is rejected with E6: it changes nothing but the history (42_dma_registers.md R106,
40_register_framework.md R78; that the rejected write is recorded, and first, notes/assumptions/14.md). -/
def Obligations.StatusWriteRejected : Prop :=
  ∀ (s : State) (k : Pair) (v : Word), exec (.wrStatus k v) s = .next
    { s with hist := s.hist ++ [.regWrite (.status k) v, .error (.writeReadOnly (.status k))] }

/-- A write to a register whose own handler is executing has the outcome RegisterReentrancy, before anything is stored,
whichever signal write the framework is given: in a callback of another device, where such a write comes from, as at the top
level (40_register_framework.md R79, R78; that the write is recorded, notes/assumptions/14.md). -/
def Obligations.RegisterReentrancyFaults : Prop :=
  ∀ (write : Writer) (s : State) (r : RegId) (v : Word) (o : Result), r ∈ s.inCallback → regPerm r = .rw →
    o = .fault (.registerReentrancy r { s with hist := s.hist ++ [.regWrite r v], faultMark := true }) →
    regWrite write r v s = o ∧ nestedOp write (writeOf v r) s = o ∧ exec (writeOf v r) s = o

/-- A write of CTRL[n] with EN = 0 stores the masked word, sets all 32 sensitivities by DMALEVEL and changes nothing else:
no flag, no pin state, no working copy (42_dma_registers.md R95, 41_signal_fabric.md R92). The mask is 0x0000FFF1 in the default
layout; that of another layout is the model's choice (notes/assumptions/10.md); the order of the events is
notes/assumptions/14.md. -/
def Obligations.CtrlWriteDisabling : Prop :=
  ∀ (s : State) (n : Chan) (v w : Word), .ctrl n ∉ s.inCallback → w = v &&& ctrlMask s.params.ctrlLayout →
    ctrlEn s.params.ctrlLayout w = false → ∃ t,
    exec (.wrCtrl n v) s = .next t ∧ OnlyChannel n s t ∧ BusSame s t ∧
    t.hist = s.hist ++ [.regWrite (.ctrl n) v, .handler (.ctrl n) v] ∧
    (∀ i : Source, (t.chan n).trig[i] =
      { sens := if ctrlLevel s.params.ctrlLayout w then .level else .posedge, state := (s.chan n).trig[i].state }) ∧
    t.chan n = { s.chan n with ctrl := { cur := w, prev := (s.chan n).ctrl.cur }, trig := (t.chan n).trig }

/-- A write of CTRL[n] with EN = 1 whose request output is bound to nothing: as with EN = 0, and the working copy is loaded,
req is set, the other flags are kept, and the request output goes high and low (42_dma_registers.md R95). The mask of a layout
other than the default is the model's choice (notes/assumptions/10.md); the order of the events is
notes/assumptions/14.md. -/
def Obligations.CtrlWriteEnabling : Prop :=
  ∀ (s : State) (n : Chan) (v w : Word), .ctrl n ∉ s.inCallback → w = v &&& ctrlMask s.params.ctrlLayout →
    ctrlEn s.params.ctrlLayout w = true → QuietOutput s (.reqo n) → ∃ t,
    exec (.wrCtrl n v) s = .next t ∧ OnlyChannel n s t ∧ BusSame s t ∧
    t.hist = s.hist ++ [.regWrite (.ctrl n) v, .handler (.ctrl n) v] ++ pulseEvents (.reqo n) ∧
    (∀ i : Source, (t.chan n).trig[i] =
      { sens := if ctrlLevel s.params.ctrlLayout w then .level else .posedge, state := (s.chan n).trig[i].state }) ∧
    t.chan n = { s.chan n with
      ctrl := { cur := w, prev := (s.chan n).ctrl.cur }
      trig := (t.chan n).trig
      st := { (s.chan n).st with req := true }
      wk := { src := (s.chan n).src.cur, dst := (s.chan n).dst.cur, size := (s.chan n).size.cur } }

/-- A write of CTRL[n] with EN = 1 whatever its request output is bound to: the write is the pulse of that output from a
state in which the word, the 32 sensitivities (with the inputs' states kept), the working copy and req are already committed and
the handler of CTRL[n] is executing, and then the handler's leaving (42_dma_registers.md R95, 70_reset_and_hazards.md R156). The
mask of a layout other than the default is the model's choice (notes/assumptions/10.md); the order of the events is
notes/assumptions/14.md. -/
def Obligations.CtrlWritePulsesRequest : Prop :=
  ∀ (s : State) (n : Chan) (v w : Word), .ctrl n ∉ s.inCallback → w = v &&& ctrlMask s.params.ctrlLayout →
    ctrlEn s.params.ctrlLayout w = true → ∃ t,
    exec (.wrCtrl n v) s =
      andThen (pulse (topWrite s) (.reqo n) (t.enterHandler (.ctrl n))) (fun u => .next (u.leaveHandler (.ctrl n))) ∧
    OnlyChannel n s t ∧ BusSame s t ∧ t.hist = s.hist ++ [.regWrite (.ctrl n) v, .handler (.ctrl n) v] ∧
    (∀ i : Source, (t.chan n).trig[i] =
      { sens := if ctrlLevel s.params.ctrlLayout w then .level else .posedge, state := (s.chan n).trig[i].state }) ∧
    t.chan n = { s.chan n with
      ctrl := { cur := w, prev := (s.chan n).ctrl.cur }
      trig := (t.chan n).trig
      st := { (s.chan n).st with req := true }
      wk := { src := (s.chan n).src.cur, dst := (s.chan n).dst.cur, size := (s.chan n).size.cur } }

/-- With the default layout the fields of CTRL[n] are these bits of its word, and its write mask is 0x0000FFF1
(30_encoding.md R63; the positions are the spec's own decision D2). -/
def Obligations.CtrlFieldPositions : Prop :=
  ctrlMask defaultCtrlLayout = 0x0000FFF1 ∧
  ∀ (s : State) (n : Chan) (w : Word), s.params.ctrlLayout = defaultCtrlLayout → (s.chan n).ctrl.cur = w →
    s.en n = w.getLsbD 4 ∧ s.lvl n = w.getLsbD 5 ∧ s.sbyte n = w.getLsbD 6 ∧ s.dbyte n = w.getLsbD 7 ∧
    s.sinc n = w.extractLsb' 8 2 ∧ s.dinc n = w.extractLsb' 10 2 ∧ s.modeField n = w.extractLsb' 12 3 ∧
    s.test n = w.getLsbD 15

/-! ### Triggers -/

/-- A write of TRIGGER[n] that starts no transfer. With EN = 0 it records E5, whatever TEST, DMALEVEL and the bit are; with
EN = 1 it is ignored unless TEST = 1, DMALEVEL = 1 and the selected bit differs from the previous write's. In both cases the
register's current and previous value are updated and nothing else changes but the history (43_dma_transfer.md R110, R113;
42_dma_registers.md R107; 70_reset_and_hazards.md R152; the order of the events, notes/assumptions/14.md). -/
def Obligations.TriggerWriteNotAccepted : Prop :=
  ∀ (s t : State) (n : Chan) (v : Word), .trigger n ∉ s.inCallback →
    t = { s.modChan n (fun c => { c with trigger := { cur := v, prev := c.trigger.cur } }) with
      hist := s.hist ++ [.regWrite (.trigger n) v, .handler (.trigger n) v] } →
    (s.en n = false → exec (.wrTrigger n v) s = .next (t.raise (.triggerWhileDisabled n))) ∧
    (s.en n = true → (s.test n = false ∨ s.lvl n = false ∨
        (s.chan n).trigger.cur.getLsbD (s.tsel n).val = v.getLsbD (s.tsel n).val) →
      exec (.wrTrigger n v) s = .next t)

/-- A write of TRIGGER[n] that is accepted runs the channel, from the state in which the register's values are committed and
its handler is executing (43_dma_transfer.md R110; the order of the events, notes/assumptions/14.md). -/
def Obligations.TriggerWriteRuns : Prop :=
  ∀ (s t : State) (n : Chan) (v : Word), .trigger n ∉ s.inCallback →
    t = { s.modChan n (fun c => { c with trigger := { cur := v, prev := c.trigger.cur } }) with
      hist := s.hist ++ [.regWrite (.trigger n) v, .handler (.trigger n) v] } →
    s.en n = true → s.test n = true → s.lvl n = true →
    (s.chan n).trigger.cur.getLsbD (s.tsel n).val ≠ v.getLsbD (s.tsel n).val →
    exec (.wrTrigger n v) s =
      andThen (run (topWrite s) n (t.enterHandler (.trigger n))) (fun u => .next (u.leaveHandler (.trigger n)))

/-- An accepted software trigger of a Block channel whose done output is bound to nothing: every unit moves, SRC and DST end
stepped past the last unit, SIZE is 0, DMAEN is cleared, done alone is set, and the done output goes high and low; of the
plain byte memory only the destination bytes change (43_dma_transfer.md R118, R121, R124; 42_dma_registers.md R107; the memory,
notes/assumptions/5.md; the order of the events, 14.md). -/
def Obligations.TriggerWriteBlockTransfer : Prop :=
  ∀ (s : State) (n : Chan) (v : Word) (k u : Nat), .trigger n ∉ s.inCallback →
    s.en n = true → s.test n = true → s.lvl n = true →
    (s.chan n).trigger.cur.getLsbD (s.tsel n).val ≠ v.getLsbD (s.tsel n).val →
    (s.chan n).active = false → modeOf (s.modeField n) = some .block → s.sbyte n = s.dbyte n →
    u = unitLen (s.sbyte n) → (s.chan n).size.cur.toNat = (k + 1) * u →
    ClearOfWindow s n u (k + 1) (backingCounters s n) → QuietOutput s (.done n) →
    ∃ t es, exec (.wrTrigger n v) s = .next t ∧ OnlyChannel n s t ∧
      t.hist = s.hist ++ [.regWrite (.trigger n) v, .handler (.trigger n) v] ++ es ++ pulseEvents (.done n) ∧
      TransferEvents n (s.sinc n) (s.dinc n) u (k + 1) (s.chan n).src.cur (s.chan n).dst.cur es ∧
      (Memory.wf s.mem = true → StoresOnly s t n u (k + 1) (s.chan n).dst.cur) ∧
      t.chan n = { s.chan n with
        ctrl := { cur := clearEn s.params.ctrlLayout (s.chan n).ctrl.cur, prev := (s.chan n).ctrl.prev }
        src := { cur := addrAfter (s.sinc n) u (k + 1) (s.chan n).src.cur, prev := (s.chan n).src.prev }
        dst := { cur := addrAfter (s.dinc n) u (k + 1) (s.chan n).dst.cur, prev := (s.chan n).dst.prev }
        size := { cur := 0, prev := (s.chan n).size.prev }
        trigger := { cur := v, prev := (s.chan n).trigger.cur }
        st := { done := true, run := false, req := false, err := false } }

/-! ### Run and the modes -/

/-- A trigger accepted for a channel during its own invocation has the outcome ReentrantChannel and changes nothing but the
fault mark (43_dma_transfer.md R116). -/
def Obligations.ReentrantChannelFaults : Prop :=
  ∀ (write : Writer) (n : Chan) (s : State), (s.chan n).active = true →
    run write n s = .fault (.reentrantChannel n { s with faultMark := true })

/-- A ConfigurationError sets err and clears the other flags, issues no bus request, pulses no pin, and changes nothing else
but the history: E1 for MODE 2, 3, 6 or 7, else E2 for SBYTE and DBYTE that differ; the same trigger again does the same
(60_exceptions.md R128, 43_dma_transfer.md R115). -/
def Obligations.ConfigurationErrors : Prop :=
  ∀ (write : Writer) (n : Chan) (s : State) (e : Err), (s.chan n).active = false →
    ((s.modeField n).toNat ∈ [2, 3, 6, 7] ∧ e = .unsupportedMode n (s.modeField n) ∨
      (s.modeField n).toNat ∈ [0, 1, 4, 5] ∧ s.sbyte n ≠ s.dbyte n ∧ e = .unitSizeMismatch n) →
    ∃ t, run write n s = .next t ∧
      t = { s.modChan n (fun c => { c with st := { done := false, run := false, req := false, err := true } }) with
        hist := s.hist ++ [.error e] } ∧
      run write n t = .next { t with hist := t.hist ++ [.error e] }

/-- Single mode moves one unit per accepted trigger on the backing registers. It ends with req if bytes are left, else with
DMAEN cleared and done; what is left to do is the pulse of the one output and the clearing of the active flag
(43_dma_transfer.md R117, R121, R115). -/
def Obligations.RunSingle : Prop :=
  ∀ (write : Writer) (n : Chan) (s : State) (u : Nat), (s.chan n).active = false →
    modeOf (s.modeField n) = some .single → s.sbyte n = s.dbyte n → u = unitLen (s.sbyte n) →
    u ≤ (s.chan n).size.cur.toNat → ClearOfWindow s n u 1 (backingCounters s n) →
    ∃ t es, run write n s =
        andThen (pulse write (if (s.chan n).size.cur.toNat = u then .done n else .reqo n) t)
          (fun z => .next (endInvocation n z)) ∧
      OnlyChannel n s t ∧ t.hist = s.hist ++ es ∧ UnitEvents n (s.chan n).src.cur (s.chan n).dst.cur u es ∧
      (Memory.wf s.mem = true → StoresOnly s t n u 1 (s.chan n).dst.cur) ∧
      t.chan n = { s.chan n with
        ctrl := { cur := if (s.chan n).size.cur.toNat = u then clearEn s.params.ctrlLayout (s.chan n).ctrl.cur
                         else (s.chan n).ctrl.cur, prev := (s.chan n).ctrl.prev }
        src := { cur := adj (s.chan n).src.cur (s.sinc n) u, prev := (s.chan n).src.prev }
        dst := { cur := adj (s.chan n).dst.cur (s.dinc n) u, prev := (s.chan n).dst.prev }
        size := { cur := (s.chan n).size.cur - BitVec.ofNat 32 u, prev := (s.chan n).size.prev }
        st := { done := decide ((s.chan n).size.cur.toNat = u), run := false
                req := decide ((s.chan n).size.cur.toNat ≠ u), err := false }
        active := true }

/-- Block mode moves all units in one invocation when SIZE is a positive multiple of the unit, whatever the bus answers,
and ends with SIZE 0, DMAEN cleared and done; what is left to do is the done pulse and the clearing of the active flag
(43_dma_transfer.md R118, R121, R125). -/
def Obligations.RunBlock : Prop :=
  ∀ (write : Writer) (n : Chan) (s : State) (k u : Nat), (s.chan n).active = false →
    modeOf (s.modeField n) = some .block → s.sbyte n = s.dbyte n → u = unitLen (s.sbyte n) →
    (s.chan n).size.cur.toNat = (k + 1) * u → ClearOfWindow s n u (k + 1) (backingCounters s n) →
    ∃ t es, run write n s = andThen (pulse write (.done n) t) (fun z => .next (endInvocation n z)) ∧
      OnlyChannel n s t ∧ t.hist = s.hist ++ es ∧
      TransferEvents n (s.sinc n) (s.dinc n) u (k + 1) (s.chan n).src.cur (s.chan n).dst.cur es ∧
      (Memory.wf s.mem = true → StoresOnly s t n u (k + 1) (s.chan n).dst.cur) ∧
      t.chan n = { s.chan n with
        ctrl := { cur := clearEn s.params.ctrlLayout (s.chan n).ctrl.cur, prev := (s.chan n).ctrl.prev }
        src := { cur := addrAfter (s.sinc n) u (k + 1) (s.chan n).src.cur, prev := (s.chan n).src.prev }
        dst := { cur := addrAfter (s.dinc n) u (k + 1) (s.chan n).dst.cur, prev := (s.chan n).dst.prev }
        size := { cur := 0, prev := (s.chan n).size.prev }
        st := { done := true, run := false, req := false, err := false }
        active := true }

/-- Repeated single mode moves one unit per accepted trigger on the working copy; SRC, DST, SIZE and DMAEN keep their values.
With bytes left it ends with req and pulses the request output; else the working copy is reloaded from the backing
registers, done and req are set, and done is pulsed before request (43_dma_transfer.md R119, R121, R124). -/
def Obligations.RunRepeatedSingle : Prop :=
  ∀ (write : Writer) (n : Chan) (s : State) (u : Nat), (s.chan n).active = false →
    modeOf (s.modeField n) = some .repeatedSingle → s.sbyte n = s.dbyte n → u = unitLen (s.sbyte n) →
    u ≤ (s.chan n).wk.size.toNat → ClearOfWindow s n u 1 (s.chan n).wk →
    ∃ t es, run write n s =
        (if (s.chan n).wk.size.toNat = u then
          andThen (pulse write (.done n) t) fun z => andThen (pulse write (.reqo n) z) fun y => .next (endInvocation n y)
        else andThen (pulse write (.reqo n) t) fun z => .next (endInvocation n z)) ∧
      OnlyChannel n s t ∧ t.hist = s.hist ++ es ∧ UnitEvents n (s.chan n).wk.src (s.chan n).wk.dst u es ∧
      (Memory.wf s.mem = true → StoresOnly s t n u 1 (s.chan n).wk.dst) ∧
      t.chan n = { s.chan n with
        wk := if (s.chan n).wk.size.toNat = u then
            { src := (s.chan n).src.cur, dst := (s.chan n).dst.cur, size := (s.chan n).size.cur }
          else { src := adj (s.chan n).wk.src (s.sinc n) u, dst := adj (s.chan n).wk.dst (s.dinc n) u
                 size := (s.chan n).wk.size - BitVec.ofNat 32 u }
        st := { done := decide ((s.chan n).wk.size.toNat = u), run := false, req := true, err := false }
        active := true }

/-- Repeated block mode moves all units of the working copy in one invocation when its size is a positive multiple of the
unit, reloads it from the backing registers, sets done and req, keeps SRC, DST, SIZE and DMAEN, and pulses done before
request (43_dma_transfer.md R120, R121, R124). -/
def Obligations.RunRepeatedBlock : Prop :=
  ∀ (write : Writer) (n : Chan) (s : State) (k u : Nat), (s.chan n).active = false →
    modeOf (s.modeField n) = some .repeatedBlock → s.sbyte n = s.dbyte n → u = unitLen (s.sbyte n) →
    (s.chan n).wk.size.toNat = (k + 1) * u → ClearOfWindow s n u (k + 1) (s.chan n).wk →
    ∃ t es, run write n s =
        (andThen (pulse write (.done n) t) fun z => andThen (pulse write (.reqo n) z) fun y => .next (endInvocation n y)) ∧
      OnlyChannel n s t ∧ t.hist = s.hist ++ es ∧
      TransferEvents n (s.sinc n) (s.dinc n) u (k + 1) (s.chan n).wk.src (s.chan n).wk.dst es ∧
      (Memory.wf s.mem = true → StoresOnly s t n u (k + 1) (s.chan n).wk.dst) ∧
      t.chan n = { s.chan n with
        wk := { src := (s.chan n).src.cur, dst := (s.chan n).dst.cur, size := (s.chan n).size.cur }
        st := { done := true, run := false, req := true, err := false }
        active := true }

/-- A transfer whose counter is 0 or no multiple of the unit has the outcome SizeUnderrun in the Block modes, after the `k`
whole units have moved; in the Single modes a counter below the unit does so before any bus request. The fault names the
bytes left (43_dma_transfer.md R121, R118; 70_reset_and_hazards.md R151). -/
def Obligations.SizeUnderrunFaults : Prop :=
  ∀ (write : Writer) (n : Chan) (s : State) (m : Mode) (b : Bank) (k u r : Nat), (s.chan n).active = false →
    modeOf (s.modeField n) = some m → b = (if m = .single ∨ m = .block then .backing else .working) →
    s.sbyte n = s.dbyte n → u = unitLen (s.sbyte n) →
    (counters s n b).size.toNat = k * u + r → r < u → (k = 0 ∨ r ≠ 0 ∧ (m = .block ∨ m = .repeatedBlock)) →
    ClearOfWindow s n u k (counters s n b) →
    ∃ t es, run write n s = .fault (.sizeUnderrun n (BitVec.ofNat 32 r) u t) ∧ t.faultMark = true ∧
      t.hist = s.hist ++ es ∧
      TransferEvents n (s.sinc n) (s.dinc n) u k (counters s n b).src (counters s n b).dst es

/-- A transfer whose first unit reaches the block's own register window has the outcome SelfAccess before any bus request;
the source address is tested first (20_memory.md R52, 60_exceptions.md R134; the order of the two addresses, and that a word
at the top of the bus space wraps, are the model's choice, notes/assumptions/11.md, 15.md). -/
def Obligations.SelfAccessFaults : Prop :=
  ∀ (write : Writer) (n : Chan) (s : State) (m : Mode) (b : Bank) (u : Nat) (a : Word), (s.chan n).active = false →
    modeOf (s.modeField n) = some m → b = (if m = .single ∨ m = .block then .backing else .working) →
    s.sbyte n = s.dbyte n → u = unitLen (s.sbyte n) → u ≤ (counters s n b).size.toNat →
    (reachesWindow s (counters s n b).src u = true ∧ a = (counters s n b).src ∨
      reachesWindow s (counters s n b).src u = false ∧ reachesWindow s (counters s n b).dst u = true ∧
        a = (counters s n b).dst) →
    ∃ t, run write n s = .fault (.selfAccess a t) ∧ t.faultMark = true ∧ t.hist = s.hist ∧ t.mem = s.mem

/-- Address adjustment: code 3 adds the unit length, code 2 subtracts it, codes 0 and 1 keep the address, modulo 2^32
(43_dma_transfer.md R123, 30_encoding.md R65). -/
def Obligations.AddressAdjustment : Prop :=
  ∀ (x : Word) (u : Nat),
    (adj x 3 u).toNat = (x.toNat + u) % 2 ^ 32 ∧ (u ≤ 4 → (adj x 2 u).toNat = (x.toNat + 2 ^ 32 - u) % 2 ^ 32) ∧
    adj x 1 u = x ∧ adj x 0 u = x

/-- A failed bus request does not stop a unit. With the answers supplied in order: a failed read records E3 and is followed
by a draw between no write and a write of any bytes, whose own failure records E4; a failed write records E4. The counters
advance as for a success, and no flag changes (43_dma_transfer.md R121, R122; 60_exceptions.md R129; the answers are the
model's free values, notes/assumptions/4.md). -/
def Obligations.BusFailuresAreNotFatal : Prop :=
  ∀ (s : State) (n : Chan) (b : Bank) (u : Nat) (c : Counters) (r p w : Answer) (rest : List Answer),
    s.params.busKind = .oracle → c = counters s n b → u ≤ c.size.toNat → reachesWindow s c.src u = false →
    reachesWindow s c.dst u = false →
    ∀ (as used : List Answer) (es : List Event),
    (r.ok = false ∧ p.ok = false ∧ used = [r, p] ∧
        es = [.memRead c.src.toNat (r.bytes.toList.take u) false, .error (.busReadFail n c.src)] ∨
      r.ok = false ∧ p.ok = true ∧ used = [r, p, w] ∧
        es = [.memRead c.src.toNat (r.bytes.toList.take u) false, .error (.busReadFail n c.src),
              .memWrite c.dst.toNat (p.bytes.toList.take u) w.ok] ++ writeErrors n c.dst w.ok ∨
      r.ok = true ∧ used = [r, w] ∧
        es = [.memRead c.src.toNat (r.bytes.toList.take u) true,
              .memWrite c.dst.toNat (r.bytes.toList.take u) w.ok] ++ writeErrors n c.dst w.ok) →
    as = used ++ rest → s.answers = as →
    ∃ t, unitStep b n u s = .next t ∧ t.answers = rest ∧ t.hist = s.hist ++ es ∧ t.mem = s.mem ∧ OnlyChannel n s t ∧
      (t.chan n).st = (s.chan n).st ∧ (t.chan n).ctrl = (s.chan n).ctrl ∧
      counters t n b = { src := adj c.src (s.sinc n) u, dst := adj c.dst (s.dinc n) u
                         size := c.size - BitVec.ofNat 32 u }

/-- On the plain byte memory a unit copies its bytes exactly, in ascending order, and changes no other byte: the byte at each
destination address is the one the source address held before (20_memory.md R48, 43_dma_transfer.md R121; the memory and its
wrap at busAddrWidth are the model's, notes/assumptions/5.md). -/
def Obligations.UnitCopiesBytes : Prop :=
  ∀ (s : State) (n : Chan) (b : Bank) (u : Nat) (c : Counters),
    s.params.busKind = .memory → 32 ≤ s.params.busAddrWidth → Memory.wf s.mem = true → u ≤ 4 → c = counters s n b →
    u ≤ c.size.toNat → reachesWindow s c.src u = false → reachesWindow s c.dst u = false →
    ∃ t, unitStep b n u s = .next t ∧
      (∀ i, i < u → memGet t.mem ((c.dst.toNat + i) % 2 ^ s.params.busAddrWidth) =
        memGet s.mem ((c.src.toNat + i) % 2 ^ s.params.busAddrWidth)) ∧
      (∀ x, (∀ i, i < u → x ≠ (c.dst.toNat + i) % 2 ^ s.params.busAddrWidth) → memGet t.mem x = memGet s.mem x) ∧
      Memory.wf t.mem = true

/-! ### Signals -/

/-- `fires`, and `transitioned`, as tables (41_signal_fabric.md R87, 40_register_framework.md R82). -/
def Obligations.EdgeFunctions : Prop :=
  (∀ old new : Bool, old ≠ new →
    fires .level (pinVal old) (pinVal new) = true ∧
    fires .negedge (pinVal old) (pinVal new) = (old && !new) ∧
    fires .posedge (pinVal old) (pinVal new) = (!old && new)) ∧
  (∀ (prev cur : Word) (bit : Source), transitioned prev cur bit = true ↔ prev.getLsbD bit.val ≠ cur.getLsbD bit.val)

/-- PIN_WRITE outside the pins of other devices is refused; a write to an input records E8; a write of the state held, and a
write of an output that is bound to nothing, reach no callback. Nothing else changes but the history
(41_signal_fabric.md R86, 60_exceptions.md R133; that a rejected write and a write of the state held are recorded,
notes/assumptions/14.md). -/
def Obligations.PinWriteAlone : Prop :=
  ∀ (s : State) (k : Nat) (b : Bool),
    (∀ n i, exec (.pinWrite (.trig n i) b) s = .refused (.pinOutsideExtPins (.trig n i) { s with refusalMark := true }) ∧
      exec (.pinWrite (.done n) b) s = .refused (.pinOutsideExtPins (.done n) { s with refusalMark := true }) ∧
      exec (.pinWrite (.reqo n) b) s = .refused (.pinOutsideExtPins (.reqo n) { s with refusalMark := true })) ∧
    (s.extPins.length ≤ k →
      exec (.pinWrite (.ext k) b) s = .refused (.pinOutsideExtPins (.ext k) { s with refusalMark := true })) ∧
    (∀ p, s.extPins[k]? = some p →
      (p.mode ≠ .out → exec (.pinWrite (.ext k) b) s = .next
        { s with hist := s.hist ++ [.sigWrite (.pin (.ext k)) (pinVal b), .error (.writeToInput (.pin (.ext k)))] }) ∧
      (p.mode = .out → p.state = b → exec (.pinWrite (.ext k) b) s = .next
        { s with hist := s.hist ++ [.sigWrite (.pin (.ext k)) (pinVal b)] }) ∧
      (p.mode = .out → p.state ≠ b → (.pin (.ext k)) ∉ s.propagating → s.inputsOf (.pin (.ext k)) = [] →
        exec (.pinWrite (.ext k) b) s = .next
          { s with
            extPins := s.extPins.set k { p with state := b }
            hist := s.hist ++ [.sigWrite (.pin (.ext k)) (pinVal b)] }))

/-- PORT_WRITE of a port that does not exist is refused; a write to an input records E8; a value is cut to the port's width;
a write of the value held, and a write of an output that is bound to nothing, reach no callback
(41_signal_fabric.md R88, R86; 60_exceptions.md R133; that a rejected write and a write of the value held are recorded, and that
the value recorded is the one given, not the one cut, notes/assumptions/14.md). -/
def Obligations.PortWriteAlone : Prop :=
  ∀ (s : State) (k : Nat) (v w : SigVal),
    (s.extPorts.length ≤ k →
      exec (.portWrite k v) s = .refused (.portOutsideExtPins k { s with refusalMark := true })) ∧
    (∀ p, s.extPorts[k]? = some p →
      (p.mode ≠ .out → exec (.portWrite k v) s = .next
        { s with hist := s.hist ++ [.sigWrite (.port k) v, .error (.writeToInput (.port k))] }) ∧
      (p.mode = .out → w.toNat = v.toNat % 2 ^ p.width →
        (p.state = w → exec (.portWrite k v) s = .next { s with hist := s.hist ++ [.sigWrite (.port k) v] }) ∧
        (p.state ≠ w → (.port k) ∉ s.propagating → s.inputsOf (.port k) = [] →
          exec (.portWrite k v) s = .next
            { s with
              extPorts := s.extPorts.set k { p with state := w }
              hist := s.hist ++ [.sigWrite (.port k) v] })))

/-- A write that changes an output during its own propagation has the outcome OutputReentrancy, before anything changes but
the history and the fault mark (41_signal_fabric.md R90; that the write is recorded, notes/assumptions/14.md). -/
def Obligations.OutputReentrancyFaults : Prop :=
  ∀ (write : Writer) (s : State) (p : Sig) (v : SigVal), s.dir p = some .output → s.fit p v ≠ s.sig p →
    p ∈ s.propagating →
    writeSignal write p v s = .fault (.outputReentrancy p { s with hist := s.hist ++ [.sigWrite p v], faultMark := true })

/-- A signal trigger that starts no transfer. An output of another device is bound to one trigger input and changes: both
pins take the new state. An edge that the input's sensitivity does not pass reaches no handler. The handler does nothing for
an input that is not selected, for a fall (unless levelFallingTriggers), and in test mode; it records E5 for a disabled
channel. Nothing else changes but the history (43_dma_transfer.md R111, R113; 41_signal_fabric.md R86, R87;
60_exceptions.md R134; the order of the events, notes/assumptions/14.md). -/
def Obligations.SignalTriggerNotAccepted : Prop :=
  ∀ (s t : State) (k : Nat) (p : ExtPin) (n : Chan) (i : Source) (b : Bool),
    s.extPins[k]? = some p → p.mode = .out → p.state ≠ b → (.pin (.ext k)) ∉ s.propagating →
    s.inputsOf (.pin (.ext k)) = [.pin (.trig n i)] →
    t = { s.modChan n (fun c => { c with trig := c.trig.set i { c.trig[i] with state := b } }) with
      extPins := s.extPins.set k { p with state := b }
      hist := s.hist ++ [.sigWrite (.pin (.ext k)) (pinVal b)] } →
    ((s.chan n).trig[i].sens = .posedge ∧ b = false ∨ (s.chan n).trig[i].sens = .negedge ∧ b = true →
      exec (.pinWrite (.ext k) b) s = .next t) ∧
    (((s.chan n).trig[i].sens = .posedge ∧ b = true ∨ (s.chan n).trig[i].sens = .negedge ∧ b = false ∨
        (s.chan n).trig[i].sens = .level) →
      (i ≠ s.tsel n ∨ b = false ∧ s.params.levelFallingTriggers = false ∨ s.en n = true ∧ s.test n = true →
        exec (.pinWrite (.ext k) b) s = .next (t.record (.callback (.pin (.trig n i)) (pinVal b)))) ∧
      (i = s.tsel n → (b = true ∨ s.params.levelFallingTriggers = true) → s.en n = false →
        exec (.pinWrite (.ext k) b) s = .next
          ((t.record (.callback (.pin (.trig n i)) (pinVal b))).raise (.triggerWhileDisabled n))))

/-- A rising edge on the selected trigger input of an enabled Single channel out of test mode, whose own outputs are bound
to nothing, moves one unit: the output pin and the input are high, and the channel ends as Single mode says, with one output
pulsed (43_dma_transfer.md R111, R117, R121; 41_signal_fabric.md R86; the memory, notes/assumptions/5.md; the order of the
events, 14.md). -/
def Obligations.PinWriteSingleTransfer : Prop :=
  ∀ (s : State) (k : Nat) (p : ExtPin) (n : Chan) (i : Source) (u : Nat),
    s.extPins[k]? = some p → p.mode = .out → p.state = false → (.pin (.ext k)) ∉ s.propagating →
    s.inputsOf (.pin (.ext k)) = [.pin (.trig n i)] → (s.chan n).trig[i].sens ≠ .negedge → i = s.tsel n →
    s.en n = true → s.test n = false → (s.chan n).active = false → modeOf (s.modeField n) = some .single →
    s.sbyte n = s.dbyte n → u = unitLen (s.sbyte n) → u ≤ (s.chan n).size.cur.toNat →
    ClearOfWindow s n u 1 (backingCounters s n) → QuietOutput s (.done n) → QuietOutput s (.reqo n) →
    ∃ t es, exec (.pinWrite (.ext k) true) s = .next t ∧
      OnlyChannel n { s with extPins := s.extPins.set k { p with state := true } } t ∧
      t.hist = s.hist ++ [.sigWrite (.pin (.ext k)) 1, .callback (.pin (.trig n i)) 1] ++ es ++
        pulseEvents (if (s.chan n).size.cur.toNat = u then .done n else .reqo n) ∧
      UnitEvents n (s.chan n).src.cur (s.chan n).dst.cur u es ∧
      (Memory.wf s.mem = true → StoresOnly s t n u 1 (s.chan n).dst.cur) ∧
      t.chan n = { s.chan n with
        ctrl := { cur := if (s.chan n).size.cur.toNat = u then clearEn s.params.ctrlLayout (s.chan n).ctrl.cur
                         else (s.chan n).ctrl.cur, prev := (s.chan n).ctrl.prev }
        src := { cur := adj (s.chan n).src.cur (s.sinc n) u, prev := (s.chan n).src.prev }
        dst := { cur := adj (s.chan n).dst.cur (s.dinc n) u, prev := (s.chan n).dst.prev }
        size := { cur := (s.chan n).size.cur - BitVec.ofNat 32 u, prev := (s.chan n).size.prev }
        st := { done := decide ((s.chan n).size.cur.toNat = u), run := false
                req := decide ((s.chan n).size.cur.toNat ≠ u), err := false }
        trig := (s.chan n).trig.set i { (s.chan n).trig[i] with state := true } }

/-- BIND of an output and an input of one kind and width, the input bound to nothing yet: the pair is appended, output first,
whichever argument comes first, and nothing else changes (41_signal_fabric.md R85). -/
def Obligations.BindAppends : Prop :=
  ∀ (s : State) (o i : Sig), s.dir o = some .output → s.dir i = some .input → s.shape o = s.shape i →
    (∀ b ∈ s.bindings, b.2 ≠ i) →
    exec (.bind o i) s = .next { s with bindings := s.bindings ++ [(o, i)] } ∧
    exec (.bind i o) s = .next { s with bindings := s.bindings ++ [(o, i)] }

/-- The rejections of BIND, in order: E9 for two signals of one direction; else E11 for kinds or widths that differ; else
E10 for an input bound already, to any output. Each changes nothing but the history. A signal that does not exist is refused
(the model's choice, notes/assumptions/12.md), and the events hold the two signals in argument order (the model's choice,
notes/assumptions/17.md) (41_signal_fabric.md R85, 60_exceptions.md R134). -/
def Obligations.BindRejects : Prop :=
  ∀ (s : State) (a b : Sig) (da db : Dir),
    (s.dir a = some da → s.dir b = some db →
      (da = db → exec (.bind a b) s = .next (s.raise (.bindModeMatch a b))) ∧
      (da ≠ db → s.shape a ≠ s.shape b → exec (.bind a b) s = .next (s.raise (.bindShapeMismatch a b))) ∧
      (da ≠ db → s.shape a = s.shape b → (∃ o, (o, if da = .output then b else a) ∈ s.bindings) →
        exec (.bind a b) s = .next (s.raise (.bindInputAlreadyBound a b)))) ∧
    (s.dir a = none → exec (.bind a b) s = .refused (.noSuchSignal a { s with refusalMark := true })) ∧
    (s.dir a = some da → s.dir b = none →
      exec (.bind a b) s = .refused (.noSuchSignal b { s with refusalMark := true }))

/-- TEARDOWN empties the binding list and changes nothing else; after it a pin write changes only its own pin and the history
(41_signal_fabric.md R94, 70_reset_and_hazards.md R149). -/
def Obligations.TeardownUnbinds : Prop :=
  ∀ s : State, exec .teardown s = .next { s with bindings := [] } ∧
    ∀ (k : Nat) (b : Bool) (t : State), exec (.pinWrite (.ext k) b) { s with bindings := [] } = .next t →
      t = { s with bindings := [], extPins := t.extPins, hist := t.hist } ∧
      (∀ j, j ≠ k → t.extPins[j]? = s.extPins[j]?) ∧ ∀ i v, Event.callback i v ∈ t.hist → Event.callback i v ∈ s.hist

/-! ### Rules over the whole machine -/

/-- The second of two writes of one state to an output changes nothing but the history and reaches no callback, for pins and
for ports, whatever the callbacks of the first one did (41_signal_fabric.md R93, second write; that it is recorded,
notes/assumptions/14.md). -/
def Obligations.SecondWriteIsNoOp : Prop :=
  ∀ (s t : State), BindingsOk s →
    (∀ (k : Nat) (b : Bool), s.dir (.pin (.ext k)) = some .output → exec (.pinWrite (.ext k) b) s = .next t →
      exec (.pinWrite (.ext k) b) t = .next { t with hist := t.hist ++ [.sigWrite (.pin (.ext k)) (pinVal b)] }) ∧
    (∀ (k : Nat) (v : SigVal), s.dir (.port k) = some .output → exec (.portWrite k v) s = .next t →
      exec (.portWrite k v) t = .next { t with hist := t.hist ++ [.sigWrite (.port k) v] })

/-- After a pin or port write that changed an output, every input bound to it holds the output's new state, whatever the
callbacks did; a port takes the value cut to its width (41_signal_fabric.md R86, R88, R89, R90). -/
def Obligations.BoundInputsFollow : Prop :=
  ∀ (s t : State), BindingsOk s →
    (∀ (k : Nat) (b : Bool), s.dir (.pin (.ext k)) = some .output → s.sig (.pin (.ext k)) ≠ pinVal b →
      exec (.pinWrite (.ext k) b) s = .next t →
      t.sig (.pin (.ext k)) = pinVal b ∧ ∀ i, (Sig.pin (.ext k), i) ∈ s.bindings → t.sig i = pinVal b) ∧
    (∀ (k : Nat) (p : ExtPort) (v w : SigVal), s.extPorts[k]? = some p → p.mode = .out →
      w.toNat = v.toNat % 2 ^ p.width → p.state ≠ w → exec (.portWrite k v) s = .next t →
      t.sig (.port k) = w ∧ ∀ i, (Sig.port k, i) ∈ s.bindings → t.sig i = w)

/-- A channel that is disabled or in test mode is not touched by signals: while the callbacks of other devices do nothing, no
pin or port write and no CTRL or TRIGGER write of another channel changes any of its registers, flags or working copy
(43_dma_transfer.md R109, R111, R113; 60_exceptions.md R140). -/
def Obligations.BlockedChannelUntouched : Prop :=
  ∀ (s t : State) (n : Chan) (i : Instr), s.params.envReact = [] → Blocked n s →
    ((∃ p b, i = .pinWrite p b) ∨ (∃ k v, i = .portWrite k v) ∨ (∃ m v, m ≠ n ∧ i = .wrTrigger m v) ∨
      ∃ m v, m ≠ n ∧ i = .wrCtrl m v) →
    exec i s = .next t → Channel.SameBody (t.chan n) (s.chan n)

/-- While the callbacks of other devices do nothing, no signal write, whatever it reaches, changes CFG, the TRIGGER registers
or the previous value of any register (42_dma_registers.md R108, 10_state.md R26). -/
def Obligations.SignalsLeaveProgrammedRegisters : Prop :=
  ∀ (s t : State) (i : Instr), s.params.envReact = [] →
    ((∃ p b, i = .pinWrite p b) ∨ ∃ k v, i = .portWrite k v) → exec i s = .next t →
    t.cfg = s.cfg ∧ (∀ n, (t.chan n).trigger = (s.chan n).trigger) ∧ ∀ r, (t.values r).prev = (s.values r).prev

/-- What a channel's own pulses reach sees the channel's final state and leaves it alone: while the callbacks of other
devices do nothing, no signal write, to any depth, changes the registers, flags or working copy of a channel that is active
(43_dma_transfer.md R124, R116; 20_memory.md R55). -/
def Obligations.PulsesLeaveActiveChannel : Prop :=
  ∀ (s t u : State) (n : Chan) (p : Pin), s.params.envReact = [] → (s.chan n).active = true →
    pulse (topWrite u) p s = .next t → Channel.SameBody (t.chan n) (s.chan n)

/-- Every step keeps the plain byte memory in its canonical form (the model's memory, notes/assumptions/5.md;
20_memory.md R39). -/
def Obligations.MemoryStaysCanonical : Prop :=
  ∀ s t : State, Memory.wf s.mem = true → step s = .next t → Memory.wf t.mem = true

/-- Every step keeps the reserved bits of CTRL and CFG at 0 (30_encoding.md R73(b), R63, R68; the mask of a layout
other than the default is the model's choice, notes/assumptions/10.md). -/
def Obligations.ReservedBitsStayZero : Prop := ∀ s t : State, ReservedZero s → step s = .next t → ReservedZero t

/-- Every step keeps each channel's trigger inputs at the sensitivity that DMALEVEL gives them, in a layout whose DMALEVEL and
DMAEN bits differ (42_dma_registers.md R95, 41_signal_fabric.md R92, 70_reset_and_hazards.md R153). -/
def Obligations.SensitivityFollowsLevel : Prop :=
  ∀ s t : State, s.params.ctrlLayout.level ≠ s.params.ctrlLayout.en → SensFollows s → step s = .next t → SensFollows t

/-- Every step keeps the binding list well formed: each binding joins an output to an input of its kind and width, and no
input is bound twice; and with it every port 1 to 64 bits wide with a value of its width (10_state.md R32, R34;
41_signal_fabric.md R84, R85, R88). -/
def Obligations.BindingsAndPortsStayWellFormed : Prop :=
  ∀ s t : State, BindingsOk s → step s = .next t → BindingsOk t ∧ (PortsOk s → PortsOk t)

/-- Between operations nothing is in progress, no channel shows run and both outputs of every channel are low: every step
keeps it so, whatever the bindings and the callbacks of other devices (43_dma_transfer.md R124, 70_reset_and_hazards.md
R158, 10_state.md R29, R35). -/
def Obligations.QuietBetweenOperations : Prop :=
  ∀ s t : State, BindingsOk s → Quiet s → step s = .next t → Quiet t

/-- No step, however it ends, changes the parameters, clears a mark, or takes an event out of the history; a fault sets the
fault mark and nothing else does, a refusal sets the refusal mark, and the state at a fault keeps every event recorded before
it (00_scope.md R11, 10_state.md R36, 60_exceptions.md R132, R133; that a fault and a refusal carry their state,
notes/assumptions/6.md, 8.md). -/
def Obligations.MarksAndHistory : Prop :=
  (∀ s t : State, step s = .next t → t.params = s.params ∧ t.faultMark = s.faultMark ∧
    (s.refusalMark = true → t.refusalMark = true) ∧ ∃ es, t.hist = s.hist ++ es) ∧
  (∀ (s : State) (f : Fault), step s = .fault f →
    f.state.faultMark = true ∧ (s.refusalMark = true → f.state.refusalMark = true) ∧ f.state.params = s.params ∧
    ∃ es, f.state.hist = s.hist ++ es) ∧
  (∀ (s : State) (r : Refusal), step s = .refused r → ∃ t, r.state = some t ∧
    t.refusalMark = true ∧ t.faultMark = s.faultMark ∧ t.params = s.params ∧ t.hist = s.hist)

/-- A refused operation changes nothing but the refusal mark. At the top level the step is refused, once its packet has been
taken. Inside a callback every operation of class 4 or above, and every write of a pin or port that is none of another
device's, is refused; what is left of the callback goes on (60_exceptions.md R133, 41_signal_fabric.md R91;
notes/assumptions/1.md, 6.md, 16.md). -/
def Obligations.RefusalsChangeNothing : Prop :=
  (∀ (s : State) (r : Refusal), step s = .refused r →
    ∃ p rest, s.pending = p :: rest ∧ r.state = some { s with pending := rest, refusalMark := true }) ∧
  (∀ (write : Writer) (i : Instr) (is : List Instr) (s : State),
    (4 ≤ (i.descriptor.extractLsb' 12 4).toNat ∨
      (∃ p b, i = .pinWrite p b ∧ ∀ k, p = .ext k → s.extPins.length ≤ k) ∨
      ∃ k v, i = .portWrite k v ∧ s.extPorts.length ≤ k) →
    nestedOp write i s = .next { s with refusalMark := true } ∧
    nestedOps write (i :: is) s = nestedOps write is { s with refusalMark := true })

/-- Every operation ends in an outcome the spec names: the bound that the model puts on the nesting of signal writes is never
reached, in any state (00_scope.md R17; notes/assumptions/13.md). -/
def Obligations.NestingBoundNeverReached : Prop := ∀ s t : State, step s ≠ .fault (.nestingExhausted t)
end

