-- ==== Sys2Proof/Laws/State.lean ====
section
/-!
SUPPORT. One lemma per field per named update of the state, true by rfl, so that no later proof unfolds a record update.
-/

namespace Sys2Proof.Machine

/-! ### record -/

@[simp] theorem State.record_chans (s : State) (e : Event) : (s.record e).chans = s.chans := rfl
@[simp] theorem State.record_cfg (s : State) (e : Event) : (s.record e).cfg = s.cfg := rfl
@[simp] theorem State.record_extPins (s : State) (e : Event) : (s.record e).extPins = s.extPins := rfl
@[simp] theorem State.record_extPorts (s : State) (e : Event) : (s.record e).extPorts = s.extPorts := rfl
@[simp] theorem State.record_bindings (s : State) (e : Event) : (s.record e).bindings = s.bindings := rfl
@[simp] theorem State.record_propagating (s : State) (e : Event) : (s.record e).propagating = s.propagating := rfl
@[simp] theorem State.record_inCallback (s : State) (e : Event) : (s.record e).inCallback = s.inCallback := rfl
@[simp] theorem State.record_otherRegs (s : State) (e : Event) : (s.record e).otherRegs = s.otherRegs := rfl
@[simp] theorem State.record_hist (s : State) (e : Event) : (s.record e).hist = s.hist ++ [e] := rfl
@[simp] theorem State.record_faultMark (s : State) (e : Event) : (s.record e).faultMark = s.faultMark := rfl
@[simp] theorem State.record_refusalMark (s : State) (e : Event) : (s.record e).refusalMark = s.refusalMark := rfl
@[simp] theorem State.record_params (s : State) (e : Event) : (s.record e).params = s.params := rfl
@[simp] theorem State.record_pending (s : State) (e : Event) : (s.record e).pending = s.pending := rfl
@[simp] theorem State.record_answers (s : State) (e : Event) : (s.record e).answers = s.answers := rfl
@[simp] theorem State.record_draws (s : State) (e : Event) : (s.record e).draws = s.draws := rfl
@[simp] theorem State.record_mem (s : State) (e : Event) : (s.record e).mem = s.mem := rfl
@[simp] theorem State.record_chan (s : State) (e : Event) (m : Chan) : (s.record e).chan m = s.chan m := rfl
@[simp] theorem State.record_cfgCell (s : State) (e : Event) (j : Pair) : (s.record e).cfgCell j = s.cfgCell j := rfl

/-! ### raise -/

@[simp] theorem State.raise_chans (s : State) (e : Err) : (s.raise e).chans = s.chans := rfl
@[simp] theorem State.raise_cfg (s : State) (e : Err) : (s.raise e).cfg = s.cfg := rfl
@[simp] theorem State.raise_extPins (s : State) (e : Err) : (s.raise e).extPins = s.extPins := rfl
@[simp] theorem State.raise_extPorts (s : State) (e : Err) : (s.raise e).extPorts = s.extPorts := rfl
@[simp] theorem State.raise_bindings (s : State) (e : Err) : (s.raise e).bindings = s.bindings := rfl
@[simp] theorem State.raise_propagating (s : State) (e : Err) : (s.raise e).propagating = s.propagating := rfl
@[simp] theorem State.raise_inCallback (s : State) (e : Err) : (s.raise e).inCallback = s.inCallback := rfl
@[simp] theorem State.raise_otherRegs (s : State) (e : Err) : (s.raise e).otherRegs = s.otherRegs := rfl
@[simp] theorem State.raise_hist (s : State) (e : Err) : (s.raise e).hist = s.hist ++ [.error e] := rfl
@[simp] theorem State.raise_faultMark (s : State) (e : Err) : (s.raise e).faultMark = s.faultMark := rfl
@[simp] theorem State.raise_refusalMark (s : State) (e : Err) : (s.raise e).refusalMark = s.refusalMark := rfl
@[simp] theorem State.raise_params (s : State) (e : Err) : (s.raise e).params = s.params := rfl
@[simp] theorem State.raise_pending (s : State) (e : Err) : (s.raise e).pending = s.pending := rfl
@[simp] theorem State.raise_answers (s : State) (e : Err) : (s.raise e).answers = s.answers := rfl
@[simp] theorem State.raise_draws (s : State) (e : Err) : (s.raise e).draws = s.draws := rfl
@[simp] theorem State.raise_mem (s : State) (e : Err) : (s.raise e).mem = s.mem := rfl
@[simp] theorem State.raise_chan (s : State) (e : Err) (m : Chan) : (s.raise e).chan m = s.chan m := rfl
@[simp] theorem State.raise_cfgCell (s : State) (e : Err) (j : Pair) : (s.raise e).cfgCell j = s.cfgCell j := rfl

/-! ### markFaulted -/

@[simp] theorem State.markFaulted_chans (s : State) : (s.markFaulted).chans = s.chans := rfl
@[simp] theorem State.markFaulted_cfg (s : State) : (s.markFaulted).cfg = s.cfg := rfl
@[simp] theorem State.markFaulted_extPins (s : State) : (s.markFaulted).extPins = s.extPins := rfl
@[simp] theorem State.markFaulted_extPorts (s : State) : (s.markFaulted).extPorts = s.extPorts := rfl
@[simp] theorem State.markFaulted_bindings (s : State) : (s.markFaulted).bindings = s.bindings := rfl
@[simp] theorem State.markFaulted_propagating (s : State) : (s.markFaulted).propagating = s.propagating := rfl
@[simp] theorem State.markFaulted_inCallback (s : State) : (s.markFaulted).inCallback = s.inCallback := rfl
@[simp] theorem State.markFaulted_otherRegs (s : State) : (s.markFaulted).otherRegs = s.otherRegs := rfl
@[simp] theorem State.markFaulted_hist (s : State) : (s.markFaulted).hist = s.hist := rfl
@[simp] theorem State.markFaulted_faultMark (s : State) : (s.markFaulted).faultMark = true := rfl
@[simp] theorem State.markFaulted_refusalMark (s : State) : (s.markFaulted).refusalMark = s.refusalMark := rfl
@[simp] theorem State.markFaulted_params (s : State) : (s.markFaulted).params = s.params := rfl
@[simp] theorem State.markFaulted_pending (s : State) : (s.markFaulted).pending = s.pending := rfl
@[simp] theorem State.markFaulted_answers (s : State) : (s.markFaulted).answers = s.answers := rfl
@[simp] theorem State.markFaulted_draws (s : State) : (s.markFaulted).draws = s.draws := rfl
@[simp] theorem State.markFaulted_mem (s : State) : (s.markFaulted).mem = s.mem := rfl
@[simp] theorem State.markFaulted_chan (s : State) (m : Chan) : (s.markFaulted).chan m = s.chan m := rfl
@[simp] theorem State.markFaulted_cfgCell (s : State) (j : Pair) : (s.markFaulted).cfgCell j = s.cfgCell j := rfl

/-! ### markRefused -/

@[simp] theorem State.markRefused_chans (s : State) : (s.markRefused).chans = s.chans := rfl
@[simp] theorem State.markRefused_cfg (s : State) : (s.markRefused).cfg = s.cfg := rfl
@[simp] theorem State.markRefused_extPins (s : State) : (s.markRefused).extPins = s.extPins := rfl
@[simp] theorem State.markRefused_extPorts (s : State) : (s.markRefused).extPorts = s.extPorts := rfl
@[simp] theorem State.markRefused_bindings (s : State) : (s.markRefused).bindings = s.bindings := rfl
@[simp] theorem State.markRefused_propagating (s : State) : (s.markRefused).propagating = s.propagating := rfl
@[simp] theorem State.markRefused_inCallback (s : State) : (s.markRefused).inCallback = s.inCallback := rfl
@[simp] theorem State.markRefused_otherRegs (s : State) : (s.markRefused).otherRegs = s.otherRegs := rfl
@[simp] theorem State.markRefused_hist (s : State) : (s.markRefused).hist = s.hist := rfl
@[simp] theorem State.markRefused_faultMark (s : State) : (s.markRefused).faultMark = s.faultMark := rfl
@[simp] theorem State.markRefused_refusalMark (s : State) : (s.markRefused).refusalMark = true := rfl
@[simp] theorem State.markRefused_params (s : State) : (s.markRefused).params = s.params := rfl
@[simp] theorem State.markRefused_pending (s : State) : (s.markRefused).pending = s.pending := rfl
@[simp] theorem State.markRefused_answers (s : State) : (s.markRefused).answers = s.answers := rfl
@[simp] theorem State.markRefused_draws (s : State) : (s.markRefused).draws = s.draws := rfl
@[simp] theorem State.markRefused_mem (s : State) : (s.markRefused).mem = s.mem := rfl
@[simp] theorem State.markRefused_chan (s : State) (m : Chan) : (s.markRefused).chan m = s.chan m := rfl
@[simp] theorem State.markRefused_cfgCell (s : State) (j : Pair) : (s.markRefused).cfgCell j = s.cfgCell j := rfl

/-! ### modChan -/

@[simp] theorem State.modChan_chans (s : State) (n : Chan) (f : Channel → Channel) : (s.modChan n f).chans = s.chans.set n (f (s.chan n)) := rfl
@[simp] theorem State.modChan_cfg (s : State) (n : Chan) (f : Channel → Channel) : (s.modChan n f).cfg = s.cfg := rfl
@[simp] theorem State.modChan_extPins (s : State) (n : Chan) (f : Channel → Channel) : (s.modChan n f).extPins = s.extPins := rfl
@[simp] theorem State.modChan_extPorts (s : State) (n : Chan) (f : Channel → Channel) : (s.modChan n f).extPorts = s.extPorts := rfl
@[simp] theorem State.modChan_bindings (s : State) (n : Chan) (f : Channel → Channel) : (s.modChan n f).bindings = s.bindings := rfl
@[simp] theorem State.modChan_propagating (s : State) (n : Chan) (f : Channel → Channel) : (s.modChan n f).propagating = s.propagating := rfl
@[simp] theorem State.modChan_inCallback (s : State) (n : Chan) (f : Channel → Channel) : (s.modChan n f).inCallback = s.inCallback := rfl
@[simp] theorem State.modChan_otherRegs (s : State) (n : Chan) (f : Channel → Channel) : (s.modChan n f).otherRegs = s.otherRegs := rfl
@[simp] theorem State.modChan_hist (s : State) (n : Chan) (f : Channel → Channel) : (s.modChan n f).hist = s.hist := rfl
@[simp] theorem State.modChan_faultMark (s : State) (n : Chan) (f : Channel → Channel) : (s.modChan n f).faultMark = s.faultMark := rfl
@[simp] theorem State.modChan_refusalMark (s : State) (n : Chan) (f : Channel → Channel) : (s.modChan n f).refusalMark = s.refusalMark := rfl
@[simp] theorem State.modChan_params (s : State) (n : Chan) (f : Channel → Channel) : (s.modChan n f).params = s.params := rfl
@[simp] theorem State.modChan_pending (s : State) (n : Chan) (f : Channel → Channel) : (s.modChan n f).pending = s.pending := rfl
@[simp] theorem State.modChan_answers (s : State) (n : Chan) (f : Channel → Channel) : (s.modChan n f).answers = s.answers := rfl
@[simp] theorem State.modChan_draws (s : State) (n : Chan) (f : Channel → Channel) : (s.modChan n f).draws = s.draws := rfl
@[simp] theorem State.modChan_mem (s : State) (n : Chan) (f : Channel → Channel) : (s.modChan n f).mem = s.mem := rfl
@[simp] theorem State.modChan_cfgCell (s : State) (n : Chan) (f : Channel → Channel) (j : Pair) : (s.modChan n f).cfgCell j = s.cfgCell j := rfl

/-! ### setCfg -/

@[simp] theorem State.setCfg_chans (s : State) (k : Pair) (c : Cell) : (s.setCfg k c).chans = s.chans := rfl
@[simp] theorem State.setCfg_cfg (s : State) (k : Pair) (c : Cell) : (s.setCfg k c).cfg = s.cfg.set k c := rfl
@[simp] theorem State.setCfg_extPins (s : State) (k : Pair) (c : Cell) : (s.setCfg k c).extPins = s.extPins := rfl
@[simp] theorem State.setCfg_extPorts (s : State) (k : Pair) (c : Cell) : (s.setCfg k c).extPorts = s.extPorts := rfl
@[simp] theorem State.setCfg_bindings (s : State) (k : Pair) (c : Cell) : (s.setCfg k c).bindings = s.bindings := rfl
@[simp] theorem State.setCfg_propagating (s : State) (k : Pair) (c : Cell) : (s.setCfg k c).propagating = s.propagating := rfl
@[simp] theorem State.setCfg_inCallback (s : State) (k : Pair) (c : Cell) : (s.setCfg k c).inCallback = s.inCallback := rfl
@[simp] theorem State.setCfg_otherRegs (s : State) (k : Pair) (c : Cell) : (s.setCfg k c).otherRegs = s.otherRegs := rfl
@[simp] theorem State.setCfg_hist (s : State) (k : Pair) (c : Cell) : (s.setCfg k c).hist = s.hist := rfl
@[simp] theorem State.setCfg_faultMark (s : State) (k : Pair) (c : Cell) : (s.setCfg k c).faultMark = s.faultMark := rfl
@[simp] theorem State.setCfg_refusalMark (s : State) (k : Pair) (c : Cell) : (s.setCfg k c).refusalMark = s.refusalMark := rfl
@[simp] theorem State.setCfg_params (s : State) (k : Pair) (c : Cell) : (s.setCfg k c).params = s.params := rfl
@[simp] theorem State.setCfg_pending (s : State) (k : Pair) (c : Cell) : (s.setCfg k c).pending = s.pending := rfl
@[simp] theorem State.setCfg_answers (s : State) (k : Pair) (c : Cell) : (s.setCfg k c).answers = s.answers := rfl
@[simp] theorem State.setCfg_draws (s : State) (k : Pair) (c : Cell) : (s.setCfg k c).draws = s.draws := rfl
@[simp] theorem State.setCfg_mem (s : State) (k : Pair) (c : Cell) : (s.setCfg k c).mem = s.mem := rfl
@[simp] theorem State.setCfg_chan (s : State) (k : Pair) (c : Cell) (m : Chan) : (s.setCfg k c).chan m = s.chan m := rfl

/-! ### enterHandler -/

@[simp] theorem State.enterHandler_chans (s : State) (r : RegId) : (s.enterHandler r).chans = s.chans := rfl
@[simp] theorem State.enterHandler_cfg (s : State) (r : RegId) : (s.enterHandler r).cfg = s.cfg := rfl
@[simp] theorem State.enterHandler_extPins (s : State) (r : RegId) : (s.enterHandler r).extPins = s.extPins := rfl
@[simp] theorem State.enterHandler_extPorts (s : State) (r : RegId) : (s.enterHandler r).extPorts = s.extPorts := rfl
@[simp] theorem State.enterHandler_bindings (s : State) (r : RegId) : (s.enterHandler r).bindings = s.bindings := rfl
@[simp] theorem State.enterHandler_propagating (s : State) (r : RegId) : (s.enterHandler r).propagating = s.propagating := rfl
@[simp] theorem State.enterHandler_inCallback (s : State) (r : RegId) : (s.enterHandler r).inCallback = r :: s.inCallback := rfl
@[simp] theorem State.enterHandler_otherRegs (s : State) (r : RegId) : (s.enterHandler r).otherRegs = s.otherRegs := rfl
@[simp] theorem State.enterHandler_hist (s : State) (r : RegId) : (s.enterHandler r).hist = s.hist := rfl
@[simp] theorem State.enterHandler_faultMark (s : State) (r : RegId) : (s.enterHandler r).faultMark = s.faultMark := rfl
@[simp] theorem State.enterHandler_refusalMark (s : State) (r : RegId) : (s.enterHandler r).refusalMark = s.refusalMark := rfl
@[simp] theorem State.enterHandler_params (s : State) (r : RegId) : (s.enterHandler r).params = s.params := rfl
@[simp] theorem State.enterHandler_pending (s : State) (r : RegId) : (s.enterHandler r).pending = s.pending := rfl
@[simp] theorem State.enterHandler_answers (s : State) (r : RegId) : (s.enterHandler r).answers = s.answers := rfl
@[simp] theorem State.enterHandler_draws (s : State) (r : RegId) : (s.enterHandler r).draws = s.draws := rfl
@[simp] theorem State.enterHandler_mem (s : State) (r : RegId) : (s.enterHandler r).mem = s.mem := rfl
@[simp] theorem State.enterHandler_chan (s : State) (r : RegId) (m : Chan) : (s.enterHandler r).chan m = s.chan m := rfl
@[simp] theorem State.enterHandler_cfgCell (s : State) (r : RegId) (j : Pair) : (s.enterHandler r).cfgCell j = s.cfgCell j := rfl

/-! ### leaveHandler -/

@[simp] theorem State.leaveHandler_chans (s : State) (r : RegId) : (s.leaveHandler r).chans = s.chans := rfl
@[simp] theorem State.leaveHandler_cfg (s : State) (r : RegId) : (s.leaveHandler r).cfg = s.cfg := rfl
@[simp] theorem State.leaveHandler_extPins (s : State) (r : RegId) : (s.leaveHandler r).extPins = s.extPins := rfl
@[simp] theorem State.leaveHandler_extPorts (s : State) (r : RegId) : (s.leaveHandler r).extPorts = s.extPorts := rfl
@[simp] theorem State.leaveHandler_bindings (s : State) (r : RegId) : (s.leaveHandler r).bindings = s.bindings := rfl
@[simp] theorem State.leaveHandler_propagating (s : State) (r : RegId) : (s.leaveHandler r).propagating = s.propagating := rfl
@[simp] theorem State.leaveHandler_inCallback (s : State) (r : RegId) : (s.leaveHandler r).inCallback = s.inCallback.erase r := rfl
@[simp] theorem State.leaveHandler_otherRegs (s : State) (r : RegId) : (s.leaveHandler r).otherRegs = s.otherRegs := rfl
@[simp] theorem State.leaveHandler_hist (s : State) (r : RegId) : (s.leaveHandler r).hist = s.hist := rfl
@[simp] theorem State.leaveHandler_faultMark (s : State) (r : RegId) : (s.leaveHandler r).faultMark = s.faultMark := rfl
@[simp] theorem State.leaveHandler_refusalMark (s : State) (r : RegId) : (s.leaveHandler r).refusalMark = s.refusalMark := rfl
@[simp] theorem State.leaveHandler_params (s : State) (r : RegId) : (s.leaveHandler r).params = s.params := rfl
@[simp] theorem State.leaveHandler_pending (s : State) (r : RegId) : (s.leaveHandler r).pending = s.pending := rfl
@[simp] theorem State.leaveHandler_answers (s : State) (r : RegId) : (s.leaveHandler r).answers = s.answers := rfl
@[simp] theorem State.leaveHandler_draws (s : State) (r : RegId) : (s.leaveHandler r).draws = s.draws := rfl
@[simp] theorem State.leaveHandler_mem (s : State) (r : RegId) : (s.leaveHandler r).mem = s.mem := rfl
@[simp] theorem State.leaveHandler_chan (s : State) (r : RegId) (m : Chan) : (s.leaveHandler r).chan m = s.chan m := rfl
@[simp] theorem State.leaveHandler_cfgCell (s : State) (r : RegId) (j : Pair) : (s.leaveHandler r).cfgCell j = s.cfgCell j := rfl

/-! ### leaveOutput -/

@[simp] theorem State.leaveOutput_chans (s : State) (p : Sig) : (s.leaveOutput p).chans = s.chans := rfl
@[simp] theorem State.leaveOutput_cfg (s : State) (p : Sig) : (s.leaveOutput p).cfg = s.cfg := rfl
@[simp] theorem State.leaveOutput_extPins (s : State) (p : Sig) : (s.leaveOutput p).extPins = s.extPins := rfl
@[simp] theorem State.leaveOutput_extPorts (s : State) (p : Sig) : (s.leaveOutput p).extPorts = s.extPorts := rfl
@[simp] theorem State.leaveOutput_bindings (s : State) (p : Sig) : (s.leaveOutput p).bindings = s.bindings := rfl
@[simp] theorem State.leaveOutput_propagating (s : State) (p : Sig) : (s.leaveOutput p).propagating = s.propagating.erase p := rfl
@[simp] theorem State.leaveOutput_inCallback (s : State) (p : Sig) : (s.leaveOutput p).inCallback = s.inCallback := rfl
@[simp] theorem State.leaveOutput_otherRegs (s : State) (p : Sig) : (s.leaveOutput p).otherRegs = s.otherRegs := rfl
@[simp] theorem State.leaveOutput_hist (s : State) (p : Sig) : (s.leaveOutput p).hist = s.hist := rfl
@[simp] theorem State.leaveOutput_faultMark (s : State) (p : Sig) : (s.leaveOutput p).faultMark = s.faultMark := rfl
@[simp] theorem State.leaveOutput_refusalMark (s : State) (p : Sig) : (s.leaveOutput p).refusalMark = s.refusalMark := rfl
@[simp] theorem State.leaveOutput_params (s : State) (p : Sig) : (s.leaveOutput p).params = s.params := rfl
@[simp] theorem State.leaveOutput_pending (s : State) (p : Sig) : (s.leaveOutput p).pending = s.pending := rfl
@[simp] theorem State.leaveOutput_answers (s : State) (p : Sig) : (s.leaveOutput p).answers = s.answers := rfl
@[simp] theorem State.leaveOutput_draws (s : State) (p : Sig) : (s.leaveOutput p).draws = s.draws := rfl
@[simp] theorem State.leaveOutput_mem (s : State) (p : Sig) : (s.leaveOutput p).mem = s.mem := rfl
@[simp] theorem State.leaveOutput_chan (s : State) (p : Sig) (m : Chan) : (s.leaveOutput p).chan m = s.chan m := rfl
@[simp] theorem State.leaveOutput_cfgCell (s : State) (p : Sig) (j : Pair) : (s.leaveOutput p).cfgCell j = s.cfgCell j := rfl

/-! ### issueNext -/

@[simp] theorem State.issueNext_chans (s : State) (p : Issued) : (s.issueNext p).chans = s.chans := rfl
@[simp] theorem State.issueNext_cfg (s : State) (p : Issued) : (s.issueNext p).cfg = s.cfg := rfl
@[simp] theorem State.issueNext_extPins (s : State) (p : Issued) : (s.issueNext p).extPins = s.extPins := rfl
@[simp] theorem State.issueNext_extPorts (s : State) (p : Issued) : (s.issueNext p).extPorts = s.extPorts := rfl
@[simp] theorem State.issueNext_bindings (s : State) (p : Issued) : (s.issueNext p).bindings = s.bindings := rfl
@[simp] theorem State.issueNext_propagating (s : State) (p : Issued) : (s.issueNext p).propagating = s.propagating := rfl
@[simp] theorem State.issueNext_inCallback (s : State) (p : Issued) : (s.issueNext p).inCallback = s.inCallback := rfl
@[simp] theorem State.issueNext_otherRegs (s : State) (p : Issued) : (s.issueNext p).otherRegs = s.otherRegs := rfl
@[simp] theorem State.issueNext_hist (s : State) (p : Issued) : (s.issueNext p).hist = s.hist := rfl
@[simp] theorem State.issueNext_faultMark (s : State) (p : Issued) : (s.issueNext p).faultMark = s.faultMark := rfl
@[simp] theorem State.issueNext_refusalMark (s : State) (p : Issued) : (s.issueNext p).refusalMark = s.refusalMark := rfl
@[simp] theorem State.issueNext_params (s : State) (p : Issued) : (s.issueNext p).params = s.params := rfl
@[simp] theorem State.issueNext_pending (s : State) (p : Issued) : (s.issueNext p).pending = p :: s.pending := rfl
@[simp] theorem State.issueNext_answers (s : State) (p : Issued) : (s.issueNext p).answers = s.answers := rfl
@[simp] theorem State.issueNext_draws (s : State) (p : Issued) : (s.issueNext p).draws = s.draws := rfl
@[simp] theorem State.issueNext_mem (s : State) (p : Issued) : (s.issueNext p).mem = s.mem := rfl
@[simp] theorem State.issueNext_chan (s : State) (p : Issued) (m : Chan) : (s.issueNext p).chan m = s.chan m := rfl
@[simp] theorem State.issueNext_cfgCell (s : State) (p : Issued) (j : Pair) : (s.issueNext p).cfgCell j = s.cfgCell j := rfl

/-! ### Reading back -/

theorem State.modChan_chan (s : State) (n m : Chan) (f : Channel → Channel) :
    (s.modChan n f).chan m = if n = m then f (s.chan n) else s.chan m := by
  simp only [State.chan, State.modChan, Fin.getElem_fin, Vector.getElem_set, Fin.ext_iff]

@[simp] theorem State.modChan_chan_same (s : State) (n : Chan) (f : Channel → Channel) :
    (s.modChan n f).chan n = f (s.chan n) := by
  simp [State.modChan_chan]

theorem State.modChan_chan_ne (s : State) {n m : Chan} (f : Channel → Channel) (h : n ≠ m) :
    (s.modChan n f).chan m = s.chan m := by
  simp [State.modChan_chan, h]

theorem State.setCfg_cfgCell (s : State) (k j : Pair) (c : Cell) :
    (s.setCfg k c).cfgCell j = if k = j then c else s.cfgCell j := by
  simp only [State.cfgCell, State.setCfg, Fin.getElem_fin, Vector.getElem_set, Fin.ext_iff]

@[simp] theorem State.setCfg_cfgCell_same (s : State) (k : Pair) (c : Cell) : (s.setCfg k c).cfgCell k = c := by
  simp [State.setCfg_cfgCell]

/-! ### setSig: only the signal's own home changes -/

@[simp] theorem State.setSig_cfg (s : State) (p : Sig) (v : SigVal) : (s.setSig p v).cfg = s.cfg := by
  rcases p with (_ | _ | _ | _) | _ <;> rfl
@[simp] theorem State.setSig_bindings (s : State) (p : Sig) (v : SigVal) : (s.setSig p v).bindings = s.bindings := by
  rcases p with (_ | _ | _ | _) | _ <;> rfl
@[simp] theorem State.setSig_propagating (s : State) (p : Sig) (v : SigVal) : (s.setSig p v).propagating = s.propagating := by
  rcases p with (_ | _ | _ | _) | _ <;> rfl
@[simp] theorem State.setSig_inCallback (s : State) (p : Sig) (v : SigVal) : (s.setSig p v).inCallback = s.inCallback := by
  rcases p with (_ | _ | _ | _) | _ <;> rfl
@[simp] theorem State.setSig_otherRegs (s : State) (p : Sig) (v : SigVal) : (s.setSig p v).otherRegs = s.otherRegs := by
  rcases p with (_ | _ | _ | _) | _ <;> rfl
@[simp] theorem State.setSig_hist (s : State) (p : Sig) (v : SigVal) : (s.setSig p v).hist = s.hist := by
  rcases p with (_ | _ | _ | _) | _ <;> rfl
@[simp] theorem State.setSig_faultMark (s : State) (p : Sig) (v : SigVal) : (s.setSig p v).faultMark = s.faultMark := by
  rcases p with (_ | _ | _ | _) | _ <;> rfl
@[simp] theorem State.setSig_refusalMark (s : State) (p : Sig) (v : SigVal) : (s.setSig p v).refusalMark = s.refusalMark := by
  rcases p with (_ | _ | _ | _) | _ <;> rfl
@[simp] theorem State.setSig_params (s : State) (p : Sig) (v : SigVal) : (s.setSig p v).params = s.params := by
  rcases p with (_ | _ | _ | _) | _ <;> rfl
@[simp] theorem State.setSig_pending (s : State) (p : Sig) (v : SigVal) : (s.setSig p v).pending = s.pending := by
  rcases p with (_ | _ | _ | _) | _ <;> rfl
@[simp] theorem State.setSig_answers (s : State) (p : Sig) (v : SigVal) : (s.setSig p v).answers = s.answers := by
  rcases p with (_ | _ | _ | _) | _ <;> rfl
@[simp] theorem State.setSig_draws (s : State) (p : Sig) (v : SigVal) : (s.setSig p v).draws = s.draws := by
  rcases p with (_ | _ | _ | _) | _ <;> rfl
@[simp] theorem State.setSig_mem (s : State) (p : Sig) (v : SigVal) : (s.setSig p v).mem = s.mem := by
  rcases p with (_ | _ | _ | _) | _ <;> rfl
@[simp] theorem State.setSig_cfgCell (s : State) (p : Sig) (v : SigVal) (k : Pair) :
    (s.setSig p v).cfgCell k = s.cfgCell k := by
  rcases p with (_ | _ | _ | _) | _ <;> rfl

/-! ### enterOutput -/

@[simp] theorem State.enterOutput_chans (s : State) (p : Sig) (v : SigVal) :
    (s.enterOutput p v).chans = (s.setSig p v).chans := rfl
@[simp] theorem State.enterOutput_cfg (s : State) (p : Sig) (v : SigVal) : (s.enterOutput p v).cfg = s.cfg := by
  simp [State.enterOutput]
@[simp] theorem State.enterOutput_extPins (s : State) (p : Sig) (v : SigVal) :
    (s.enterOutput p v).extPins = (s.setSig p v).extPins := rfl
@[simp] theorem State.enterOutput_extPorts (s : State) (p : Sig) (v : SigVal) :
    (s.enterOutput p v).extPorts = (s.setSig p v).extPorts := rfl
@[simp] theorem State.enterOutput_bindings (s : State) (p : Sig) (v : SigVal) : (s.enterOutput p v).bindings = s.bindings := by
  simp [State.enterOutput]
@[simp] theorem State.enterOutput_propagating (s : State) (p : Sig) (v : SigVal) :
    (s.enterOutput p v).propagating = p :: s.propagating := rfl
@[simp] theorem State.enterOutput_inCallback (s : State) (p : Sig) (v : SigVal) : (s.enterOutput p v).inCallback = s.inCallback := by
  simp [State.enterOutput]
@[simp] theorem State.enterOutput_otherRegs (s : State) (p : Sig) (v : SigVal) : (s.enterOutput p v).otherRegs = s.otherRegs := by
  simp [State.enterOutput]
@[simp] theorem State.enterOutput_hist (s : State) (p : Sig) (v : SigVal) : (s.enterOutput p v).hist = s.hist := by
  simp [State.enterOutput]
@[simp] theorem State.enterOutput_faultMark (s : State) (p : Sig) (v : SigVal) : (s.enterOutput p v).faultMark = s.faultMark := by
  simp [State.enterOutput]
@[simp] theorem State.enterOutput_refusalMark (s : State) (p : Sig) (v : SigVal) : (s.enterOutput p v).refusalMark = s.refusalMark := by
  simp [State.enterOutput]
@[simp] theorem State.enterOutput_params (s : State) (p : Sig) (v : SigVal) : (s.enterOutput p v).params = s.params := by
  simp [State.enterOutput]
@[simp] theorem State.enterOutput_pending (s : State) (p : Sig) (v : SigVal) : (s.enterOutput p v).pending = s.pending := by
  simp [State.enterOutput]
@[simp] theorem State.enterOutput_answers (s : State) (p : Sig) (v : SigVal) : (s.enterOutput p v).answers = s.answers := by
  simp [State.enterOutput]
@[simp] theorem State.enterOutput_draws (s : State) (p : Sig) (v : SigVal) : (s.enterOutput p v).draws = s.draws := by
  simp [State.enterOutput]
@[simp] theorem State.enterOutput_mem (s : State) (p : Sig) (v : SigVal) : (s.enterOutput p v).mem = s.mem := by
  simp [State.enterOutput]
@[simp] theorem State.enterOutput_chan (s : State) (p : Sig) (v : SigVal) (m : Chan) :
    (s.enterOutput p v).chan m = (s.setSig p v).chan m := rfl
@[simp] theorem State.enterOutput_cfgCell (s : State) (p : Sig) (v : SigVal) (k : Pair) :
    (s.enterOutput p v).cfgCell k = s.cfgCell k := by
  simp [State.cfgCell]

end Sys2Proof.Machine
end

