-- ==== Sys2Proof/Laws/Ops.lean ====
section
/-!
SUPPORT. What sequencing, the plain byte memory and a bus request can do, each said once.
-/

namespace Sys2Proof.Machine

/-! ### Sequencing -/

@[simp] theorem andThen_next {α β : Type} (a : α) (f : α → Host.Outcome β Fault Refusal) : andThen (.next a) f = f a := rfl

@[simp] theorem andThen_fault {α β : Type} (r : Fault) (f : α → Host.Outcome β Fault Refusal) :
    andThen (.fault r : Host.Outcome α Fault Refusal) f = .fault r := rfl

@[simp] theorem andThen_refused {α β : Type} (r : Refusal) (f : α → Host.Outcome β Fault Refusal) :
    andThen (.refused r : Host.Outcome α Fault Refusal) f = .refused r := rfl

/-- A sequence answers a next state exactly when both parts do. -/
theorem andThen_eq_next {α β : Type} {x : Host.Outcome α Fault Refusal} {f : α → Host.Outcome β Fault Refusal} {b : β} :
    andThen x f = .next b ↔ ∃ a, x = .next a ∧ f a = .next b := by
  cases x <;> simp [andThen]

/-- A sequence faults exactly when its first part does, or its second part after a next state. -/
theorem andThen_eq_fault {α β : Type} {x : Host.Outcome α Fault Refusal} {f : α → Host.Outcome β Fault Refusal}
    {r : Fault} : andThen x f = .fault r ↔ x = .fault r ∨ ∃ a, x = .next a ∧ f a = .fault r := by
  cases x <;> simp [andThen]

theorem andThen_assoc {α β γ : Type} (x : Host.Outcome α Fault Refusal) (f : α → Host.Outcome β Fault Refusal)
    (g : β → Host.Outcome γ Fault Refusal) : andThen (andThen x f) g = andThen x fun a => andThen (f a) g := by
  cases x <;> rfl

/-! ### Vectors -/

@[simp] theorem mapEntries_getElem {α β : Type} {n : Nat} (f : α → β) (v : Vector α n) (i : Nat) (h : i < n) :
    (mapEntries f v)[i] = f v[i] := by
  simp [mapEntries]

/-! ### The plain byte memory -/

theorem memGet_memCons (m : Memory) (a x : Nat) (b : Byte) (h : b = unlistedByte → memGet m a = unlistedByte) :
    memGet (memCons a b m) x = if x = a then b else memGet m x := by
  unfold memCons
  split
  · next hb =>
    split
    · next hx => rw [hx, hb, h hb]
    · rfl
  · simp [memGet]

/-- Nothing is listed below the bound. -/
theorem memGet_of_lt {m : Memory} : ∀ {lo a : Nat}, memRising lo m = true → a < lo → memGet m a = unlistedByte := by
  induction m with
  | nil => intros; rfl
  | cons e m ih =>
    intro lo a h hlt
    obtain ⟨x, b⟩ := e
    simp only [memRising, Bool.and_eq_true, decide_eq_true_eq] at h
    simp only [memGet]
    rw [if_neg (by omega)]
    exact ih h.2 (by omega)

theorem memRising_mono {m : Memory} {lo lo' : Nat} (h : memRising lo m = true) (hle : lo' ≤ lo) :
    memRising lo' m = true := by
  cases m with
  | nil => rfl
  | cons e m =>
    simp only [memRising, Bool.and_eq_true, decide_eq_true_eq] at h ⊢
    exact ⟨⟨by omega, h.1.2⟩, h.2⟩

theorem memRising_memCons {m : Memory} {lo a : Nat} (b : Byte) (h : memRising (a + 1) m = true) (hlo : lo ≤ a) :
    memRising lo (memCons a b m) = true := by
  unfold memCons
  split
  · exact memRising_mono h (by omega)
  · next hb => simp [memRising, hlo, hb, h]

/-- A write keeps the addresses rising and lists no unlisted byte. -/
theorem memRising_memSet {m : Memory} : ∀ {lo : Nat} (a : Nat) (b : Byte), memRising lo m = true → lo ≤ a →
    memRising lo (memSet m a b) = true := by
  induction m with
  | nil => intro lo a b _ hlo; exact memRising_memCons b rfl hlo
  | cons e m ih =>
    intro lo a b h hlo
    obtain ⟨x, c⟩ := e
    simp only [memRising, Bool.and_eq_true, decide_eq_true_eq] at h
    simp only [memSet]
    split
    · next hx =>
      refine memRising_memCons b ?_ hlo
      simp only [memRising, Bool.and_eq_true, decide_eq_true_eq]
      exact ⟨⟨by omega, h.1.2⟩, h.2⟩
    · split
      · next hx => subst hx; exact memRising_memCons b h.2 hlo
      · simp only [memRising, Bool.and_eq_true, decide_eq_true_eq]
        exact ⟨h.1, ih a b h.2 (by omega)⟩

/-- A write keeps the canonical form. -/
theorem memSet_wf {m : Memory} (a : Nat) (b : Byte) (h : Memory.wf m = true) : Memory.wf (memSet m a b) = true :=
  memRising_memSet a b h (Nat.zero_le a)

theorem memSetAll_wf (ws : List (Nat × Byte)) : ∀ {m : Memory}, Memory.wf m = true → Memory.wf (memSetAll m ws) = true := by
  induction ws with
  | nil => intro m h; exact h
  | cons w ws ih => intro m h; exact ih (memSet_wf w.1 w.2 h)

/-- Read after write: the written byte at its address, every other byte as before. -/
theorem memGet_memSet {m : Memory} : ∀ {lo : Nat} (a x : Nat) (b : Byte), memRising lo m = true →
    memGet (memSet m a b) x = if x = a then b else memGet m x := by
  induction m with
  | nil => intro lo a x b _; exact memGet_memCons [] a x b (fun _ => rfl)
  | cons e m ih =>
    intro lo a x b h
    obtain ⟨y, c⟩ := e
    simp only [memSet]
    have h' := h
    simp only [memRising, Bool.and_eq_true, decide_eq_true_eq] at h
    split
    · next hx =>
      refine memGet_memCons _ a x b fun _ => ?_
      simp only [memGet]
      rw [if_neg (by omega)]
      exact memGet_of_lt h.2 (by omega)
    · split
      · next hx =>
        subst hx
        rw [memGet_memCons m a x b (fun _ => memGet_of_lt h.2 (by omega))]
        simp only [memGet]
        split <;> rfl
      · next hlt hne =>
        simp only [memGet]
        split
        · next hxy => subst hxy; rw [if_neg (by omega)]
        · exact ih a x b h.2

theorem memGet_memSet_wf {m : Memory} (h : Memory.wf m = true) (a x : Nat) (b : Byte) :
    memGet (memSet m a b) x = if x = a then b else memGet m x := memGet_memSet a x b h

/-- A byte outside the written addresses reads as before. -/
theorem memGet_memSetAll_of_notMem (ws : List (Nat × Byte)) : ∀ {m : Memory} (x : Nat), Memory.wf m = true →
    x ∉ ws.map Prod.fst → memGet (memSetAll m ws) x = memGet m x := by
  induction ws with
  | nil => intros; rfl
  | cons w ws ih =>
    intro m x h hx
    simp only [List.map_cons, List.mem_cons, not_or] at hx
    rw [memSetAll, ih x (memSet_wf _ _ h) hx.2, memGet_memSet_wf h, if_neg hx.1]

/-! ### The bus -/

/-- What one oracle answer can change: the answers supplied and the count of free values drawn. -/
theorem nextAnswer_state (s : State) :
    ∃ as d, (nextAnswer s).2 = { s with answers := as, draws := d } := by
  unfold nextAnswer
  split
  · exact ⟨_, s.draws, rfl⟩
  · next h => exact ⟨s.answers, _, rfl⟩

theorem answerBytes_length (a : Answer) {u : Nat} (h : u ≤ 4) : (answerBytes a u).length = u := by
  simp [answerBytes, h]

/-- What a MemRead can change: the history, and of the model's own fields the answers and the draws. -/
theorem memRead_state (a : Word) (u : Nat) (s : State) :
    ∃ as d, (memRead a u s).2.2 =
      { s with answers := as, draws := d, hist := s.hist ++ [.memRead a.toNat (memRead a u s).1 (memRead a u s).2.1] } := by
  unfold memRead busRead
  cases h : s.params.busKind with
  | memory => exact ⟨s.answers, s.draws, rfl⟩
  | oracle =>
    obtain ⟨as, d, hs⟩ := nextAnswer_state s
    refine ⟨as, d, ?_⟩
    simp only [State.record, hs]

/-- What a MemWrite can change: the history, the plain byte memory, and of the model's own fields the answers and the
draws. -/
theorem memWrite_state (a : Word) (bytes : List Byte) (s : State) :
    ∃ as d ws, (memWrite a bytes s).2 =
      { s with answers := as, draws := d, mem := memSetAll s.mem ws
               hist := s.hist ++ [.memWrite a.toNat bytes (memWrite a bytes s).1] } := by
  unfold memWrite busWrite
  cases h : s.params.busKind with
  | memory => exact ⟨s.answers, s.draws, (byteAddrs s a bytes.length).zip bytes, rfl⟩
  | oracle =>
    obtain ⟨as, d, hs⟩ := nextAnswer_state s
    refine ⟨as, d, [], ?_⟩
    simp only [State.record, hs, memSetAll]

end Sys2Proof.Machine
end

