-- ==== Sys2Proof/Laws/Engine.lean ====
section
/-!
SUPPORT. What the shared operations of the engine and the register framework can do, each said once: one unit's bus
requests, the unit step, the register read and the register write.
-/

namespace Sys2Proof.Machine

/-! ### Views that a change of other fields keeps -/

@[simp] theorem State.record_ctrlWord (s : State) (e : Event) (n : Chan) : (s.record e).ctrlWord n = s.ctrlWord n := rfl

@[simp] theorem State.record_values (s : State) (e : Event) (r : RegId) : (s.record e).values r = s.values r := by
  cases r <;> rfl

@[simp] theorem State.record_cell (s : State) (e : Event) (r : RegId) : (s.record e).cell r = s.cell r := by
  simp [State.cell]

/-- What the bus requests of one unit, with their answers, can change: nothing of the block but the history; of the
model's own fields the answers, the draws and the plain byte memory. -/
def BusOnly (s t : State) : Prop :=
  ∃ as d ws es, t = { s with answers := as, draws := d, mem := memSetAll s.mem ws, hist := s.hist ++ es }

theorem memSetAll_append (ws vs : List (Nat × Byte)) : ∀ m : Memory,
    memSetAll (memSetAll m ws) vs = memSetAll m (ws ++ vs) := by
  induction ws with
  | nil => intro m; rfl
  | cons w ws ih => intro m; exact ih _

theorem BusOnly.refl (s : State) : BusOnly s s := ⟨s.answers, s.draws, [], [], by simp [memSetAll]⟩

theorem BusOnly.trans {s t u : State} (h : BusOnly s t) (k : BusOnly t u) : BusOnly s u := by
  obtain ⟨as, d, ws, es, rfl⟩ := h
  obtain ⟨as', d', ws', es', rfl⟩ := k
  exact ⟨as', d', ws ++ ws', es ++ es', by simp [memSetAll_append, List.append_assoc]⟩

theorem BusOnly.record (s : State) (e : Event) : BusOnly s (s.record e) :=
  ⟨s.answers, s.draws, [], [e], by simp [State.record, memSetAll]⟩

theorem BusOnly.raise (s : State) (e : Err) : BusOnly s (s.raise e) := BusOnly.record s _

theorem nextAnswer_busOnly (s : State) : BusOnly s (nextAnswer s).2 := by
  obtain ⟨as, d, h⟩ := nextAnswer_state s
  exact ⟨as, d, [], [], by simp [h, memSetAll]⟩

theorem memRead_busOnly (a : Word) (u : Nat) (s : State) : BusOnly s (memRead a u s).2.2 := by
  obtain ⟨as, d, h⟩ := memRead_state a u s
  exact ⟨as, d, [], _, h⟩

theorem memWrite_busOnly (a : Word) (bytes : List Byte) (s : State) : BusOnly s (memWrite a bytes s).2 := by
  obtain ⟨as, d, ws, h⟩ := memWrite_state a bytes s
  exact ⟨as, d, ws, _, h⟩

theorem writeUnit_busOnly (n : Chan) (dst : Word) (bytes : List Byte) (s : State) : BusOnly s (writeUnit n dst bytes s) := by
  unfold writeUnit
  simp only
  split
  · exact memWrite_busOnly dst bytes s
  · exact (memWrite_busOnly dst bytes s).trans (BusOnly.raise _ _)

theorem afterFailedRead_busOnly (n : Chan) (c : Counters) (u : Nat) (s : State) :
    BusOnly s (afterFailedRead n c u s) := by
  unfold afterFailedRead
  simp only
  have h := (BusOnly.raise s (.busReadFail n c.src)).trans (nextAnswer_busOnly _)
  split
  · exact h.trans (writeUnit_busOnly _ _ _ _)
  · exact h

/-- One unit's bus requests change nothing of the block but the history (43_dma_transfer.md R121, R122). -/
theorem moveUnit_busOnly (n : Chan) (c : Counters) (u : Nat) (s : State) : BusOnly s (moveUnit n c u s) := by
  unfold moveUnit
  simp only
  split
  · exact (memRead_busOnly _ _ _).trans (writeUnit_busOnly _ _ _ _)
  · exact (memRead_busOnly _ _ _).trans (afterFailedRead_busOnly _ _ _ _)

/-- The unit step answers a next state exactly when enough bytes are left and neither address reaches the window; the
counters then advance by one unit (43_dma_transfer.md R121). -/
theorem unitStep_eq_next {b : Bank} {n : Chan} {u : Nat} {s t : State} :
    unitStep b n u s = .next t ↔
      u ≤ (counters s n b).size.toNat ∧ reachesWindow s (counters s n b).src u = false ∧
      reachesWindow s (counters s n b).dst u = false ∧
      t = setCounters (moveUnit n (counters s n b) u s) n b (advance s n u (counters s n b)) := by
  unfold unitStep
  simp only
  split
  · next h => simp; omega
  · next h =>
    split
    · next h2 => simp [h2]
    · next h2 =>
      split
      · next h3 => simp [h3]
      · next h3 =>
        simp only [Bool.not_eq_true] at h2 h3
        simp only [Host.Outcome.next.injEq, h2, h3, true_and]
        constructor
        · rintro rfl; exact ⟨by omega, rfl⟩
        · rintro ⟨_, rfl⟩; rfl

/-! ### The register framework -/

/-- A register read answers the state with the access recorded and nothing else changed
(40_register_framework.md R77). -/
theorem regRead_eq (r : RegId) (s : State) : regRead r s = .next (s.record (.regRead r (s.values r).cur)) := by
  cases r <;> rfl

/-- What a register write can do (40_register_framework.md R78): the rejection, the reentrancy fault, or the commit
followed by the handler. -/
theorem regWrite_eq (write : Writer) (r : RegId) (v : Word) (s : State) :
    regWrite write r v s =
      if regPerm r = .ro then .next ((s.record (.regWrite r v)).raise (.writeReadOnly r))
      else if r ∈ s.inCallback then .fault (.registerReentrancy r (s.record (.regWrite r v)).markFaulted)
      else commitAndHandle write r v (s.record (.regWrite r v)) := rfl

/-- The commit of a plain register is the whole write (40_register_framework.md R81). -/
theorem commitAndHandle_plain (write : Writer) (r : RegId) (v : Word) (s : State) (h : regHandler r = none) :
    commitAndHandle write r v s = .next (s.commit r v) := by
  cases r <;> first | rfl | simp [regHandler] at h

end Sys2Proof.Machine
end

