-- ==== Sys2Proof/Laws/Stable.lean ====
section
/-!
SUPPORT. One induction over the nesting of signal writes, packaged once: a relation between the state before and after
that every primitive update of the engine, the register framework and the fabric respects is respected by every signal
write, whatever it reaches.
-/

namespace Sys2Proof.Machine

/-- The state in which the handler of a CTRL write starts to pulse: the value committed, the handler entered and the
sensitivities set. -/
def ctrlCommitted (n : Chan) (v : Word) (s : State) : State :=
  let t := ((s.commit (.ctrl n) v).enterHandler (.ctrl n)).record (.handler (.ctrl n) v)
  setSensAll n (sensOf (t.lvl n)) t

/-- A relation `R` that every primitive update respects in the states that meet `I`. `may` holds of the channels that can
run there, `reacts` if callbacks of other devices can write registers. The brackets (invocation, handler, propagation)
say what becomes of the relation across an entry and its leaving; inside the propagation of `o` the relation is `Q o`.
In the plainest use `I`, `may` and `reacts` are true and `Q o` is `R`. Nothing is said yet of a whole signal write. -/
structure StableInside (I : State → Prop) (may : Chan → Prop) (reacts : Prop) (R : State → State → Prop)
    (Q : Sig → State → State → Prop) : Prop where
  refl : ∀ s, R s s
  trans : ∀ {s t u}, R s t → R t u → R s u
  bindings : ∀ {s t}, R s t → t.bindings = s.bindings
  bus : ∀ {s t}, BusOnly s t → R s t
  counters : ∀ s n b c, may n → R s (setCounters s n b c)
  loadWorking : ∀ s n, may n → R s (loadWorking s n)
  configError : ∀ s n, may n → R s (modFlags s n Flags.configError)
  requested : ∀ s n, may n → R s (modFlags s n Flags.requested)
  completed : ∀ s n, may n → R s (modFlags s n Flags.completed)
  passEnded : ∀ s n, may n → R s (modFlags s n Flags.passEnded)
  clearEnable : ∀ s n, may n → R s (clearEnable s n)
  invocation : ∀ {s t u n}, may n → (s.chan n).active = false → R (startInvocation n s) t →
    (t.chan n).st.run = false → R t u → R s (endInvocation n u)
  inner : ∀ {o s t}, R s t → Q o s t
  innerTrans : ∀ {o s t u}, Q o s t → Q o t u → Q o s u
  innerBindings : ∀ {o s t}, Q o s t → t.bindings = s.bindings
  setSig : ∀ s o i v, (o, i) ∈ s.bindings → Q o s (s.setSig i v)
  markRefused : reacts → ∀ s, R s s.markRefused
  commit : reacts → ∀ s r v, regPerm r ≠ .ro → regHandler r = none → R s (s.commit r v)
  arm : reacts → ∀ s n, R s (arm n s)
  ctrlWrite : ∀ {s t n v}, reacts → .ctrl n ∉ s.inCallback → R (ctrlCommitted n v s) t → R s (t.leaveHandler (.ctrl n))
  triggerWrite : ∀ {s t n v}, reacts → .trigger n ∉ s.inCallback →
    R ((s.commit (.trigger n) v).enterHandler (.trigger n)) t → R s (t.leaveHandler (.trigger n))
  inv : ∀ {s t}, R s t → I s → I t := by intros; trivial
  invInner : ∀ {o s t}, Q o s t → I s → I t := by intros; trivial
  invStart : ∀ {s n}, may n → (s.chan n).active = false → I s → I (startInvocation n s) := by intros; trivial
  invOutput : ∀ {s p v}, p ∉ s.propagating → s.dir p = some .output → I s → I (s.enterOutput p v) := by intros; trivial
  invCtrl : ∀ {s n v}, reacts → .ctrl n ∉ s.inCallback → I s → I (ctrlCommitted n v s) := by intros; trivial
  invTrigger : ∀ {s n v}, reacts → .trigger n ∉ s.inCallback → I s →
    I ((s.commit (.trigger n) v).enterHandler (.trigger n)) := by intros; trivial
  mayRun : ∀ {s n}, I s → (s.chan n).active = false → s.en n = true → s.test n = false ∨ reacts → may n := by
    intros; trivial
  silent : ∀ {s}, I s → reacts ∨ s.params.envReact = [] := by intros; exact Or.inl trivial

/-- A relation that every signal write respects too: the bracket of an output's propagation. -/
structure Stable (I : State → Prop) (may : Chan → Prop) (reacts : Prop) (R : State → State → Prop)
    (Q : Sig → State → State → Prop) : Prop extends StableInside I may reacts R Q where
  output : ∀ {s t p v}, p ∉ s.propagating → s.dir p = some .output → Q p (s.enterOutput p v) t → R s (t.leaveOutput p)

variable {I : State → Prop} {may : Chan → Prop} {reacts : Prop} {R : State → State → Prop}
  {Q : Sig → State → State → Prop}

theorem StableInside.record (h : StableInside I may reacts R Q) (s : State) (e : Event) : R s (s.record e) :=
  h.bus (BusOnly.record s e)

theorem StableInside.raise (h : StableInside I may reacts R Q) (s : State) (e : Err) : R s (s.raise e) := h.bus (BusOnly.raise s e)

/-- A signal write that respects the relation. -/
def Respects (I : State → Prop) (R : State → State → Prop) (write : Writer) : Prop :=
  ∀ p v s t, I s → write p v s = .next t → R s t

/-- What the engine and callbacks do with a signal write respects the relation: the pulses of the block's outputs, and the
writes of other devices' pins and ports. -/
structure RespectsUses (I : State → Prop) (R : State → State → Prop) (write : Writer) : Prop where
  pulse : ∀ n e s t, I s → Machine.pulse write (pulsePin n e) s = .next t → R s t
  pin : ∀ k v s t, I s → write (.pin (.ext k)) v s = .next t → R s t
  port : ∀ k v s t, I s → write (.port k) v s = .next t → R s t

section
variable (h : StableInside I may reacts R Q) {write : Writer} (hw : RespectsUses I R write)
include h

theorem unitStep_stable {b : Bank} {n : Chan} {u : Nat} {s t : State} (hm : may n) (e : unitStep b n u s = .next t) :
    R s t := by
  obtain ⟨-, -, -, rfl⟩ := unitStep_eq_next.mp e
  exact h.trans (h.bus (moveUnit_busOnly _ _ _ _)) (h.counters _ _ _ _ hm)

theorem blockLoop_stable {b : Bank} {n : Chan} {u : Nat} (hm : may n) : ∀ (k : Nat) {s t : State},
    blockLoop b n u k s = .next t → R s t := by
  intro k
  induction k with
  | zero => intro s t e; exact unitStep_stable h hm e
  | succ k ih =>
    intro s t e
    obtain ⟨a, ha, hb⟩ := andThen_eq_next.mp e
    have hs := unitStep_stable h hm ha
    split at hb
    · cases hb; exact hs
    · exact h.trans hs (ih hb)

theorem completeOneShot_stable (n : Chan) (s : State) (hm : may n) : R s (completeOneShot n s) :=
  h.trans (h.clearEnable s n hm) (h.completed _ n hm)

theorem completePass_stable (n : Chan) (s : State) (hm : may n) : R s (completePass n s) :=
  h.trans (h.loadWorking s n hm) (h.passEnded _ n hm)

/-- A mode's procedure respects the relation and leaves the run flag clear. -/
theorem runMode_stable {m : Mode} {n : Chan} {u : Nat} {s : State} {r : State × List Pulse} (hm : may n)
    (e : runMode m n u s = .next r) : R s r.1 ∧ (r.1.chan n).st.run = false := by
  cases m with
  | single =>
    obtain ⟨a, ha, hb⟩ := andThen_eq_next.mp e
    have hs := unitStep_stable h hm ha
    split at hb <;> cases hb
    · exact ⟨h.trans hs (completeOneShot_stable h n a hm), by simp [completeOneShot, modFlags, Flags.completed]⟩
    · exact ⟨h.trans hs (h.requested _ n hm), by simp [modFlags, Flags.requested]⟩
  | block =>
    obtain ⟨a, ha, hb⟩ := andThen_eq_next.mp e
    cases hb
    exact ⟨h.trans (blockLoop_stable h hm _ ha) (completeOneShot_stable h n a hm),
      by simp [completeOneShot, modFlags, Flags.completed]⟩
  | repeatedSingle =>
    obtain ⟨a, ha, hb⟩ := andThen_eq_next.mp e
    have hs := unitStep_stable h hm ha
    split at hb <;> cases hb
    · exact ⟨h.trans hs (completePass_stable h n a hm), by simp [completePass, modFlags, Flags.passEnded]⟩
    · exact ⟨h.trans hs (h.requested _ n hm), by simp [modFlags, Flags.requested]⟩
  | repeatedBlock =>
    obtain ⟨a, ha, hb⟩ := andThen_eq_next.mp e
    cases hb
    exact ⟨h.trans (blockLoop_stable h hm _ ha) (completePass_stable h n a hm),
      by simp [completePass, modFlags, Flags.passEnded]⟩

include hw

theorem emitPulses_stable {n : Chan} : ∀ (es : List Pulse) {s t : State}, I s →
    emitPulses write n es s = .next t → R s t := by
  intro es
  induction es with
  | nil => intro s t _ e; cases e; exact h.refl s
  | cons p es ih =>
    intro s t hI e
    obtain ⟨a, ha, hb⟩ := andThen_eq_next.mp e
    have h1 := hw.pulse n p s a hI ha
    exact h.trans h1 (ih (h.inv h1 hI) hb)

theorem run_stable {n : Chan} {s t : State} (hI : I s) (hm : (s.chan n).active = false → may n)
    (e : run write n s = .next t) : R s t := by
  unfold run at e
  split at e
  · cases e
  · next hact =>
    simp only [Bool.not_eq_true] at hact
    have hn := hm hact
    have hs := h.invStart hn hact hI
    simp only at e
    split at e
    · cases e
      exact h.invocation hn hact (h.trans (h.configError _ n hn) (h.raise _ _)) (by simp [modFlags, Flags.configError])
        (h.refl _)
    · split at e
      · cases e
        exact h.invocation hn hact (h.trans (h.configError _ n hn) (h.raise _ _)) (by simp [modFlags, Flags.configError])
          (h.refl _)
      · obtain ⟨r, hr, hb⟩ := andThen_eq_next.mp e
        obtain ⟨a, ha, hc⟩ := andThen_eq_next.mp hb
        cases hc
        obtain ⟨h1, h2⟩ := runMode_stable h hn hr
        exact h.invocation hn hact h1 h2 (emitPulses_stable h hw _ (h.inv h1 hs) ha)

theorem swTrigger_stable {n : Chan} {s t : State} (hI : I s) (hm : (s.chan n).active = false → s.en n = true → may n)
    (e : swTrigger write n s = .next t) : R s t := by
  unfold swTrigger at e
  split at e
  · cases e; exact h.raise _ _
  · next hen =>
    split at e
    · exact run_stable h hw hI (fun ha => hm ha (by simpa using hen)) e
    · cases e; exact h.refl s

theorem trigPinHandler_stable {n : Chan} {i : Source} {b : Bool} {s t : State} (hI : I s)
    (e : trigPinHandler write n i b s = .next t) : R s t := by
  unfold trigPinHandler at e
  split at e
  · cases e; exact h.refl s
  · split at e
    · cases e; exact h.refl s
    · split at e
      · cases e; exact h.raise _ _
      · next hen =>
        split at e
        · cases e; exact h.refl s
        · next ht =>
          exact run_stable h hw hI (fun ha => h.mayRun hI ha (by simpa using hen) (.inl (by simpa using ht))) e

/-- A nested register write: the bracket of its handler. -/
theorem regWrite_stable {r : RegId} {v : Word} {s t : State} (hr : reacts) (hI : I s)
    (e : regWrite write r v s = .next t) : R s t := by
  rw [regWrite_eq] at e
  split at e
  · cases e; exact h.trans (h.record _ _) (h.raise _ _)
  · next hro =>
    split at e
    · cases e
    · next hin =>
      have h0 := h.record s (.regWrite r v)
      have hI0 := h.inv h0 hI
      refine h.trans h0 ?_
      cases r with
      | ctrl n =>
        have hin' : (.ctrl n) ∉ (s.record (.regWrite (.ctrl n) v)).inCallback := hin
        obtain ⟨a, ha, hb⟩ := andThen_eq_next.mp (show andThen (ctrlHandler write n _) _ = .next t from e)
        cases hb
        refine h.ctrlWrite hr hin' (v := v) ?_
        have hI1 := h.invCtrl hr (v := v) hin' hI0
        unfold ctrlHandler at ha
        simp only at ha
        split at ha
        · exact h.trans (h.arm hr _ n) (hw.pulse n .request _ _ (h.inv (h.arm hr _ n) hI1) ha)
        · cases ha; exact h.refl _
      | trigger n =>
        have hin' : (.trigger n) ∉ (s.record (.regWrite (.trigger n) v)).inCallback := hin
        obtain ⟨a, ha, hb⟩ := andThen_eq_next.mp (show andThen (swTrigger write n _) _ = .next t from e)
        cases hb
        refine h.triggerWrite hr hin' (v := v) ?_
        have hI1 := h.invTrigger hr (v := v) hin' hI0
        have h2 := h.record (((s.record (.regWrite (.trigger n) v)).commit (.trigger n) v).enterHandler (.trigger n))
          (.handler (.trigger n) v)
        have hI2 := h.inv h2 hI1
        exact h.trans h2 (swTrigger_stable h hw hI2 (fun ha he => h.mayRun hI2 ha he (.inr hr)) ha)
      | status k => exact absurd rfl hro
      | cfg k => cases e; exact h.commit hr _ _ _ hro rfl
      | src n => cases e; exact h.commit hr _ _ _ hro rfl
      | dst n => cases e; exact h.commit hr _ _ _ hro rfl
      | size n => cases e; exact h.commit hr _ _ _ hro rfl

theorem nestedOp_stable {i : Instr} {s t : State} (hr : reacts) (hI : I s) (e : nestedOp write i s = .next t) :
    R s t := by
  cases i <;> simp only [nestedOp, regRead_eq, refuseNested, badAccess] at e
  all_goals first
    | (cases e; done)
    | (cases e; exact h.record _ _)
    | (cases e; exact h.markRefused hr _)
    | exact regWrite_stable h hw hr hI e
    | (split at e
       · next hp =>
         first
           | exact hw.port _ _ _ _ hI e
           | (rename_i p b
              cases p <;> first | exact hw.pin _ _ _ _ hI e | simp [State.isExtPin] at hp)
       · cases e; exact h.markRefused hr _)

theorem nestedOps_stable (hr : reacts) : ∀ (is : List Instr) {s t : State}, I s →
    nestedOps write is s = .next t → R s t := by
  intro is
  induction is with
  | nil => intro s t _ e; cases e; exact h.refl s
  | cons i is ih =>
    intro s t hI e
    obtain ⟨a, ha, hb⟩ := andThen_eq_next.mp e
    have h1 := nestedOp_stable h hw hr hI ha
    exact h.trans h1 (ih (h.inv h1 hI) hb)

theorem reaction_stable {i : Sig} {v : SigVal} {s t : State} (hI : I s)
    (e : nestedOps write (envReact s i v) s = .next t) : R s t := by
  rcases h.silent hI with hr | hs
  · exact nestedOps_stable h hw hr _ hI e
  · simp only [envReact, hs, List.find?_nil, Option.map_none, Option.getD_none, nestedOps] at e
    cases e; exact h.refl s

theorem callback_stable {i : Sig} {v : SigVal} {s t : State} (hI : I s) (e : callback write i v s = .next t) : R s t := by
  unfold callback at e
  simp only at e
  have h0 := h.record s (.callback i v)
  have hI0 := h.inv h0 hI
  refine h.trans h0 ?_
  split at e
  · exact trigPinHandler_stable h hw hI0 e
  · exact reaction_stable h hw hI0 e
  · exact reaction_stable h hw hI0 e
  · cases e; exact h.refl _
  · cases e; exact h.refl _

theorem deliver_stable {old new : SigVal} {o : Sig} : ∀ (is : List Sig) {s t : State}, I s →
    (∀ i ∈ is, (o, i) ∈ s.bindings) → deliver write old new is s = .next t → Q o s t := by
  intro is
  induction is with
  | nil => intro s t _ _ e; cases e; exact h.inner (h.refl s)
  | cons i is ih =>
    intro s t hI hb e
    obtain ⟨a, ha, hc⟩ := andThen_eq_next.mp e
    have hs : Q o s a := by
      unfold deliverOne at ha
      simp only at ha
      have h1 := h.setSig s o i new (hb i (List.mem_cons_self ..))
      split at ha
      · exact h.innerTrans h1 (h.inner (callback_stable h hw (h.invInner h1 hI) ha))
      · cases ha; exact h1
    refine h.innerTrans hs (ih (h.invInner hs hI) (fun j hj => ?_) hc)
    rw [h.innerBindings hs]
    exact hb j (List.mem_cons_of_mem _ hj)

end

/-- A signal write over a writer that respects the relation in its uses respects it. -/
theorem writeSignal_stable (h : Stable I may reacts R Q) {write : Writer} (hw : RespectsUses I R write) :
    Respects I R (writeSignal write) := by
  intro p v s t hI e
  unfold writeSignal at e
  simp only at e
  have h0 := h.record s (.sigWrite p v)
  have hI0 := h.inv h0 hI
  refine h.trans h0 ?_
  split at e
  · cases e
  · cases e; exact h.raise _ _
  · next hdir =>
    split at e
    · cases e; exact h.refl _
    · split at e
      · cases e
      · next hp =>
        obtain ⟨a, ha, hb⟩ := andThen_eq_next.mp e
        cases hb
        refine h.output hp hdir (deliver_stable (o := p) h.toStableInside hw _ (h.invOutput hp hdir hI0) (fun i hi => ?_) ha)
        simp only [State.inputsOf, List.mem_map, List.mem_filter, decide_eq_true_eq] at hi
        obtain ⟨b, ⟨hb, rfl⟩, rfl⟩ := hi
        simpa using hb

/-- A writer that respects the relation respects it in its uses. -/
theorem Respects.uses (h : StableInside I may reacts R Q) {write : Writer} (hw : Respects I R write) :
    RespectsUses I R write where
  pulse _ _ _ _ hI e := by
    obtain ⟨a, ha, hb⟩ := andThen_eq_next.mp e
    have h1 := hw _ _ _ _ hI ha
    exact h.trans h1 (hw _ _ _ _ (h.inv h1 hI) hb)
  pin _ _ _ _ hI e := hw _ _ _ _ hI e
  port _ _ _ _ hI e := hw _ _ _ _ hI e

/-- Every signal write respects a stable relation, to any depth of nesting. -/
theorem sigWrite_stable (h : Stable I may reacts R Q) : ∀ k, Respects I R (sigWrite k) := by
  intro k
  induction k with
  | zero => intro p v s t _ e; cases e
  | succ k ih => exact writeSignal_stable h (ih.uses h.toStableInside)

theorem topWrite_stable (h : Stable I may reacts R Q) (s : State) : Respects I R (topWrite s) := sigWrite_stable h _

/-- The stable relation in its plainest use: in every state, for every channel, whatever callbacks do. -/
abbrev StableEverywhere (R : State → State → Prop) : Prop := Stable (fun _ => True) (fun _ => True) True R fun _ => R

end Sys2Proof.Machine
end

