-- ==== Sys2Proof/Laws/Frames.lean ====
section
/-!
SUPPORT. What no signal write, whatever it reaches, leaves changed: the parameters, the bindings, the other devices'
registers, the directions, sensitivities, callbacks and widths of their signals, the queue, the sets of registers and
outputs in progress, the active flags and the fault mark. The history only grows, and a refusal mark that is set stays set.
-/

namespace Sys2Proof.Machine

/-- The parts of the other devices' pins that a write of their state leaves alone. -/
def pinStatics (s : State) : List ExtPin := s.extPins.map fun p => { p with state := false }

/-- The parts of the other devices' ports that a write of their state leaves alone. -/
def portStatics (s : State) : List ExtPort := s.extPorts.map fun p => { p with state := 0 }

/-- What every signal write leaves as it was. -/
structure Kept (s t : State) : Prop where
  params : t.params = s.params
  bindings : t.bindings = s.bindings
  otherRegs : t.otherRegs = s.otherRegs
  pending : t.pending = s.pending
  propagating : t.propagating = s.propagating
  inCallback : t.inCallback = s.inCallback
  faultMark : t.faultMark = s.faultMark
  refusalMark : s.refusalMark = true → t.refusalMark = true
  active : ∀ n, (t.chan n).active = (s.chan n).active
  pins : pinStatics t = pinStatics s
  ports : portStatics t = portStatics s
  hist : ∃ es, t.hist = s.hist ++ es

theorem Kept.refl (s : State) : Kept s s := ⟨rfl, rfl, rfl, rfl, rfl, rfl, rfl, id, fun _ => rfl, rfl, rfl, ⟨[], by simp⟩⟩

theorem Kept.trans {s t u : State} (h : Kept s t) (k : Kept t u) : Kept s u := by
  obtain ⟨es, he⟩ := h.hist
  obtain ⟨fs, hf⟩ := k.hist
  exact ⟨k.params.trans h.params, k.bindings.trans h.bindings, k.otherRegs.trans h.otherRegs,
    k.pending.trans h.pending, k.propagating.trans h.propagating, k.inCallback.trans h.inCallback,
    k.faultMark.trans h.faultMark, k.refusalMark ∘ h.refusalMark, fun n => (k.active n).trans (h.active n),
    k.pins.trans h.pins, k.ports.trans h.ports, ⟨es ++ fs, by rw [hf, he, List.append_assoc]⟩⟩

/-- A change of one channel that keeps its active flag. -/
theorem Kept.modChan (s : State) (n : Chan) (f : Channel → Channel) (hf : (f (s.chan n)).active = (s.chan n).active) :
    Kept s (s.modChan n f) := by
  refine ⟨rfl, rfl, rfl, rfl, rfl, rfl, rfl, id, fun m => ?_, rfl, rfl, ⟨[], by simp⟩⟩
  rw [State.modChan_chan]
  split
  · next h => subst h; exact hf
  · rfl

theorem Kept.setCfg (s : State) (k : Pair) (c : Cell) : Kept s (s.setCfg k c) :=
  ⟨rfl, rfl, rfl, rfl, rfl, rfl, rfl, id, fun _ => rfl, rfl, rfl, ⟨[], by simp⟩⟩

theorem Kept.setValues (s : State) (r : RegId) (c : Cell) : Kept s (s.setValues r c) := by
  cases r
  case cfg k => exact Kept.setCfg s k c
  case status k => exact Kept.refl s
  all_goals
    unfold State.setValues
    exact Kept.modChan s _ _ (by rfl)

/-- A change of entries that a map forgets is forgotten. -/
theorem map_modify_of_forgets {α β : Type} (g : α → β) (f : α → α) (h : ∀ a, g (f a) = g a) :
    ∀ (l : List α) (k : Nat), (l.modify k f).map g = l.map g := by
  intro l
  induction l with
  | nil => intro k; cases k <;> rfl
  | cons a l ih =>
    intro k
    cases k with
    | zero => simp [List.modify, h]
    | succ k => simpa [List.modify] using ih k

theorem Kept.setSig (s : State) (p : Sig) (v : SigVal) : Kept s (s.setSig p v) := by
  obtain (k | ⟨n, i⟩ | n | n) | k := p
  · refine ⟨rfl, rfl, rfl, rfl, rfl, rfl, rfl, id, fun _ => rfl, ?_, rfl, ⟨[], by simp⟩⟩
    exact map_modify_of_forgets (fun q : ExtPin => { q with state := false })
      (fun q => { q with state := v.getLsbD 0 }) (fun _ => rfl) s.extPins k
  · unfold State.setSig; exact Kept.modChan s n _ (by rfl)
  · unfold State.setSig; exact Kept.modChan s n _ (by rfl)
  · unfold State.setSig; exact Kept.modChan s n _ (by rfl)
  · refine ⟨rfl, rfl, rfl, rfl, rfl, rfl, rfl, id, fun _ => rfl, rfl, ?_, ⟨[], by simp⟩⟩
    exact map_modify_of_forgets (fun q : ExtPort => { q with state := 0 })
      (fun q => { q with state := v }) (fun _ => rfl) s.extPorts k

theorem Kept.bus {s t : State} (h : BusOnly s t) : Kept s t := by
  obtain ⟨as, d, ws, es, rfl⟩ := h
  exact ⟨rfl, rfl, rfl, rfl, rfl, rfl, rfl, id, fun _ => rfl, rfl, rfl, ⟨es, rfl⟩⟩

/-- A change of the sets of what is in progress that is undone. -/
theorem Kept.leaveHandler {s t : State} {r : RegId} (h : Kept (s.enterHandler r) t) : Kept s (t.leaveHandler r) := by
  refine ⟨h.params, h.bindings, h.otherRegs, h.pending, h.propagating, ?_, h.faultMark, h.refusalMark, h.active, h.pins, h.ports,
    h.hist⟩
  have hi := h.inCallback
  simp only [State.enterHandler_inCallback] at hi
  simp [hi]

theorem Kept.endInvocation {s t : State} {n : Chan} (hact : (s.chan n).active = false)
    (h : Kept (startInvocation n s) t) : Kept s (endInvocation n t) := by
  refine ⟨h.params, h.bindings, h.otherRegs, h.pending, h.propagating, h.inCallback, h.faultMark, h.refusalMark,
    fun m => ?_, h.pins, h.ports, h.hist⟩
  have hm := h.active m
  simp only [Machine.endInvocation, startInvocation, State.modChan_chan] at hm ⊢
  by_cases hnm : n = m
  · subst hnm; simp [hact]
  · simpa [hnm] using hm

theorem Kept.leaveOutput {s t : State} {p : Sig} {v : SigVal} (h : Kept (s.enterOutput p v) t) :
    Kept s (t.leaveOutput p) := by
  have hs := Kept.setSig s p v
  obtain ⟨es, he⟩ := h.hist
  refine ⟨?_, ?_, ?_, ?_, ?_, ?_, ?_, fun hm => ?_, fun n => (h.active n).trans (hs.active n), ?_, ?_, ⟨es, ?_⟩⟩
  · simpa using h.params
  · simpa using h.bindings
  · simpa using h.otherRegs
  · simpa using h.pending
  · have hp := h.propagating
    simp only [State.enterOutput_propagating] at hp
    simp [hp]
  · simpa using h.inCallback
  · simpa using h.faultMark
  · simpa using h.refusalMark (by simpa using hm)
  · exact h.pins.trans hs.pins
  · exact h.ports.trans hs.ports
  · simpa using he

theorem Kept.commit (s : State) (r : RegId) (v : Word) : Kept s (s.commit r v) := Kept.setValues s r _

theorem Kept.setSensAll (s : State) (n : Chan) (sens : Sens) : Kept s (setSensAll n sens s) := Kept.modChan s n _ (by rfl)

theorem Kept.arm (s : State) (n : Chan) : Kept s (arm n s) :=
  Kept.trans (t := loadWorking s n) (Kept.modChan s n _ (by rfl))
    (show Kept (loadWorking s n) (modFlags (loadWorking s n) n Flags.armed) from Kept.modChan _ n _ (by rfl))

theorem Kept.record (s : State) (e : Event) : Kept s (s.record e) := Kept.bus (BusOnly.record s e)

theorem Kept.markRefused (s : State) : Kept s s.markRefused :=
  ⟨rfl, rfl, rfl, rfl, rfl, rfl, rfl, fun _ => rfl, fun _ => rfl, rfl, rfl, ⟨[], by simp⟩⟩

theorem Kept.ctrlWrite {s t : State} {n : Chan} {v : Word} (h : Kept (ctrlCommitted n v s) t) :
    Kept s (t.leaveHandler (.ctrl n)) := by
  refine (Kept.commit s (.ctrl n) v).trans (Kept.leaveHandler (Kept.trans ?_ h))
  exact (Kept.record _ (.handler (.ctrl n) v)).trans (Kept.setSensAll _ n _)

/-- Every signal write keeps what `Kept` lists. -/
theorem kept_stable : StableEverywhere Kept where
  refl := Kept.refl
  trans := Kept.trans
  bindings h := h.bindings
  bus := Kept.bus
  counters s n b c _ := by cases b <;> (unfold setCounters; exact Kept.modChan s n _ (by rfl))
  loadWorking s n _ := Kept.modChan s n _ (by rfl)
  configError s n _ := Kept.modChan s n _ (by rfl)
  requested s n _ := Kept.modChan s n _ (by rfl)
  completed s n _ := Kept.modChan s n _ (by rfl)
  passEnded s n _ := Kept.modChan s n _ (by rfl)
  clearEnable s n _ := Kept.modChan s n _ (by rfl)
  invocation _ hact h _ k := Kept.endInvocation hact (h.trans k)
  inner h := h
  innerTrans := Kept.trans
  innerBindings h := h.bindings
  setSig s o i v _ := Kept.setSig s i v
  output _ _ h := Kept.leaveOutput h
  markRefused _ s := Kept.markRefused s
  commit _ s r v _ _ := Kept.commit s r v
  arm _ s n := Kept.arm s n
  ctrlWrite _ _ h := Kept.ctrlWrite h
  triggerWrite _ _ h := (Kept.commit _ _ _).trans (Kept.leaveHandler h)

/-- Every register write keeps what `Kept` lists. -/
theorem regWrite_kept {s u t : State} {r : RegId} {v : Word} (e : regWrite (topWrite u) r v s = .next t) : Kept s t :=
  regWrite_stable kept_stable.toStableInside ((topWrite_stable kept_stable u).uses kept_stable.toStableInside) trivial trivial e

/-- Every signal write at the top level keeps what `Kept` lists. -/
theorem topWrite_kept {s u t : State} {p : Sig} {v : SigVal} (e : topWrite u p v s = .next t) : Kept s t :=
  topWrite_stable kept_stable u p v s t trivial e

end Sys2Proof.Machine
end

