-- ==== Sys2Proof/Laws/Transfer.lean ====
section
/-!
SUPPORT. What the unit step and the loop of the Block modes can do, said once: the events they record, the counters they
leave, the bytes they may store to, and what they leave alone.
-/

namespace Sys2Proof.Machine

/-! ### One unit -/

/-- A channel changed by nothing. -/
theorem State.modChan_same (s : State) (n : Chan) (f : Channel → Channel) (h : f (s.chan n) = s.chan n) :
    s.modChan n f = s := by
  have : (s.chans.set n.val (f (s.chans[n]))) = s.chans := by
    rw [show f (s.chans[n]) = s.chans[n] from h]
    simp
  rw [State.modChan, this]

theorem OnlyChannel.refl (n : Chan) (s : State) : OnlyChannel n s s :=
  ⟨fun _ _ => rfl, rfl, rfl, rfl, rfl, rfl, rfl, rfl, rfl, rfl, rfl, rfl⟩

theorem OnlyChannel.trans {n : Chan} {s t u : State} (h : OnlyChannel n s t) (k : OnlyChannel n t u) :
    OnlyChannel n s u :=
  ⟨fun m hm => (k.others m hm).trans (h.others m hm), k.cfg.trans h.cfg, k.extPins.trans h.extPins,
    k.extPorts.trans h.extPorts, k.bindings.trans h.bindings, k.propagating.trans h.propagating,
    k.inCallback.trans h.inCallback, k.otherRegs.trans h.otherRegs, k.faultMark.trans h.faultMark,
    k.refusalMark.trans h.refusalMark, k.params.trans h.params, k.pending.trans h.pending⟩

theorem OnlyChannel.modChan (s : State) (n : Chan) (f : Channel → Channel) : OnlyChannel n s (s.modChan n f) :=
  ⟨fun _ hm => State.modChan_chan_ne s f (Ne.symm hm), rfl, rfl, rfl, rfl, rfl, rfl, rfl, rfl, rfl, rfl, rfl⟩

theorem BusOnly.onlyChannel {s t : State} (h : BusOnly s t) (n : Chan) : OnlyChannel n s t := by
  obtain ⟨as, d, ws, es, rfl⟩ := h
  exact ⟨fun _ _ => rfl, rfl, rfl, rfl, rfl, rfl, rfl, rfl, rfl, rfl, rfl, rfl⟩

theorem BusOnly.chan {s t : State} (h : BusOnly s t) (n : Chan) : t.chan n = s.chan n := by
  obtain ⟨as, d, ws, es, rfl⟩ := h
  rfl

theorem byteAddrs_length (s : State) (a : Word) (u : Nat) : (byteAddrs s a u).length = u := by simp [byteAddrs]

theorem byteAddrs_params {s t : State} (h : t.params = s.params) (a : Word) (u : Nat) :
    byteAddrs t a u = byteAddrs s a u := by
  simp [byteAddrs, h]

theorem reachesWindow_params {s t : State} (h : t.params = s.params) (a : Word) (u : Nat) :
    reachesWindow t a u = reachesWindow s a u := by
  simp only [reachesWindow, h, byteAddrs_params h]

/-- A MemWrite records itself and E4 if it failed, and stores to no byte outside its own. -/
theorem writeUnit_spec (n : Chan) (d : Word) (bytes : List Byte) (s : State) :
    ∃ ok, (writeUnit n d bytes s).hist = s.hist ++ [.memWrite d.toNat bytes ok] ++ writeErrors n d ok ∧
      (Memory.wf s.mem = true → Memory.wf (writeUnit n d bytes s).mem = true ∧
        ∀ x, x ∉ byteAddrs s d bytes.length → memGet (writeUnit n d bytes s).mem x = memGet s.mem x) := by
  have hm : ∀ (t : State) (ok : Bool), (if ok then t else t.raise (.busWriteFail n d) : State).mem = t.mem := by
    intro t ok; cases ok <;> rfl
  have hh : ∀ (t : State) (ok : Bool),
      (if ok then t else t.raise (.busWriteFail n d) : State).hist = t.hist ++ writeErrors n d ok := by
    intro t ok; cases ok <;> simp [writeErrors]
  refine ⟨(memWrite d bytes s).1, ?_, ?_⟩
  · simp only [writeUnit, hh]
    obtain ⟨as, k, ws, h⟩ := memWrite_state d bytes s
    rw [h]
  · intro hwf
    simp only [writeUnit, hm]
    unfold memWrite busWrite
    cases s.params.busKind with
    | memory =>
      refine ⟨memSetAll_wf _ hwf, fun x hx => ?_⟩
      refine memGet_memSetAll_of_notMem _ x hwf ?_
      rwa [List.map_fst_zip (by simp [byteAddrs])]
    | oracle =>
      obtain ⟨as, k, h⟩ := nextAnswer_state s
      simp only [h, State.record_mem]
      exact ⟨hwf, fun _ _ => trivial⟩

/-- What one MemRead answers has the length asked for, and the request is recorded with its answer. -/
theorem memRead_spec (a : Word) {u : Nat} (hu : u ≤ 4) (s : State) :
    (memRead a u s).1.length = u ∧ (memRead a u s).2.2.mem = s.mem ∧
    (memRead a u s).2.2.params = s.params ∧
    (memRead a u s).2.2.hist = s.hist ++ [.memRead a.toNat (memRead a u s).1 (memRead a u s).2.1] := by
  obtain ⟨as, d, h⟩ := memRead_state a u s
  refine ⟨?_, by rw [h], by rw [h], by rw [h]⟩
  unfold memRead busRead
  cases s.params.busKind with
  | memory => simp [memGetAll, byteAddrs]
  | oracle => exact answerBytes_length _ hu

/-- One unit's events, and the bytes it may store to (43_dma_transfer.md R121, 20_memory.md R47). -/
theorem moveUnit_spec (n : Chan) (c : Counters) {u : Nat} (hu : u ≤ 4) (s : State) :
    ∃ es, (moveUnit n c u s).hist = s.hist ++ es ∧ UnitEvents n c.src c.dst u es ∧
      (Memory.wf s.mem = true → Memory.wf (moveUnit n c u s).mem = true ∧
        ∀ x, x ∉ byteAddrs s c.dst u → memGet (moveUnit n c u s).mem x = memGet s.mem x) := by
  obtain ⟨hl, hmem, hpar, hh⟩ := memRead_spec c.src hu s
  unfold moveUnit
  simp only
  generalize memRead c.src u s = r at *
  obtain ⟨bytes, ok, t⟩ := r
  simp only at *
  cases ok with
  | true =>
    obtain ⟨okw, h1, h2⟩ := writeUnit_spec n c.dst bytes t
    refine ⟨[.memRead c.src.toNat bytes true, .memWrite c.dst.toNat bytes okw] ++ writeErrors n c.dst okw, ?_,
      .inl ⟨bytes, okw, hl, rfl⟩, fun hwf => ?_⟩
    · simp [h1, hh]
    · rw [← hmem] at hwf
      have := h2 hwf
      rw [hl, byteAddrs_params hpar, hmem] at this
      exact this
  | false =>
    simp only [Bool.false_eq_true, if_false, afterFailedRead]
    obtain ⟨as, d, hn⟩ := nextAnswer_state (t.raise (.busReadFail n c.src))
    generalize nextAnswer (t.raise (.busReadFail n c.src)) = q at *
    obtain ⟨ans, z⟩ := q
    simp only at hn ⊢
    have zh : z.hist = t.hist ++ [.error (.busReadFail n c.src)] := by rw [hn]; rfl
    have zm : z.mem = s.mem := by rw [hn]; exact hmem
    have zp : z.params = s.params := by rw [hn]; exact hpar
    cases hok : ans.ok with
    | false =>
      refine ⟨[.memRead c.src.toNat bytes false, .error (.busReadFail n c.src)], ?_, .inr (.inl ⟨bytes, hl, rfl⟩),
        fun hwf => ?_⟩
      · simp [hh, zh]
      · simp only [Bool.false_eq_true, if_false, zm]
        exact ⟨hwf, fun _ _ => trivial⟩
    | true =>
      simp only [if_true]
      obtain ⟨okw, h1, h2⟩ := writeUnit_spec n c.dst (answerBytes ans u) z
      refine ⟨[.memRead c.src.toNat bytes false, .error (.busReadFail n c.src),
        .memWrite c.dst.toNat (answerBytes ans u) okw] ++ writeErrors n c.dst okw, ?_,
        .inr (.inr ⟨bytes, answerBytes ans u, okw, hl, answerBytes_length _ hu, rfl⟩), fun hwf => ?_⟩
      · simp [h1, zh, hh]
      · rw [← zm] at hwf
        have := h2 hwf
        rw [answerBytes_length _ hu, byteAddrs_params zp, zm] at this
        exact this

/-! ### The loop of the Block modes -/

/-- The counters after `k` units. -/
def countersAfter (s : State) (n : Chan) (u k : Nat) (c : Counters) : Counters :=
  { src := addrAfter (s.sinc n) u k c.src, dst := addrAfter (s.dinc n) u k c.dst
    size := c.size - BitVec.ofNat 32 (k * u) }

theorem countersAfter_congr {s t : State} {n : Chan} (hs : t.sinc n = s.sinc n) (hd : t.dinc n = s.dinc n) {u k : Nat}
    {c : Counters} : countersAfter t n u k c = countersAfter s n u k c := by
  simp [countersAfter, hs, hd]

theorem countersAfter_succ (s : State) (n : Chan) (u k : Nat) (c : Counters) :
    countersAfter s n u k (countersAfter s n u 1 c) = countersAfter s n u (k + 1) c := by
  have hsize : c.size - BitVec.ofNat 32 (1 * u) - BitVec.ofNat 32 (k * u) = c.size - BitVec.ofNat 32 ((k + 1) * u) := by
    rw [BitVec.sub_sub, ← BitVec.ofNat_add]
    congr 2
    rw [Nat.add_mul, Nat.add_comm]
  simp only [countersAfter, addrAfter, hsize]

@[simp] theorem counters_setCounters (s : State) (n : Chan) (b : Bank) (c : Counters) :
    counters (setCounters s n b c) n b = c := by
  cases b <;> simp [setCounters, counters, backingCounters]

/-- A bank's counters replaced twice is the second replacement. -/
theorem setCounters_setCounters (s : State) (n : Chan) (b : Bank) (c d : Counters) :
    setCounters (setCounters s n b c) n b d = setCounters s n b d := by
  cases b <;> simp [setCounters, State.modChan]

theorem setCounters_views (s : State) (n : Chan) (b : Bank) (c : Counters) :
    (setCounters s n b c).params = s.params ∧ (setCounters s n b c).sinc n = s.sinc n ∧
    (setCounters s n b c).dinc n = s.dinc n ∧ (setCounters s n b c).mem = s.mem ∧
    (setCounters s n b c).hist = s.hist := by
  cases b <;> simp [setCounters, State.sinc, State.dinc, State.ctrlWord]

/-- A bank's counters replaced by themselves. -/
theorem setCounters_self (s : State) (n : Chan) (b : Bank) : setCounters s n b (counters s n b) = s := by
  cases b
  · exact State.modChan_same s n (fun ch => { ch with
        src := { ch.src with cur := (backingCounters s n).src }
        dst := { ch.dst with cur := (backingCounters s n).dst }
        size := { ch.size with cur := (backingCounters s n).size } }) rfl
  · exact State.modChan_same s n (fun ch => { ch with wk := (s.chan n).wk }) rfl

/-- What `k` units of a bank leave: the bank's counters stepped `k` times and nothing else of the block changed but the
history; the events of `k` units; stores to no byte but theirs. -/
structure UnitsMoved (n : Chan) (b : Bank) (u k : Nat) (s t : State) : Prop where
  state : ∃ z, BusOnly s z ∧ t = setCounters z n b (countersAfter s n u k (counters s n b))
  events : ∃ es, t.hist = s.hist ++ es ∧
    TransferEvents n (s.sinc n) (s.dinc n) u k (counters s n b).src (counters s n b).dst es
  stores : Memory.wf s.mem = true → Memory.wf t.mem = true ∧ StoresOnly s t n u k (counters s n b).dst

theorem UnitsMoved.none (n : Chan) (b : Bank) (u : Nat) (s : State) : UnitsMoved n b u 0 s s where
  state := ⟨s, BusOnly.refl s, by
    have : countersAfter s n u 0 (counters s n b) = counters s n b := by simp [countersAfter, addrAfter]
    rw [this, setCounters_self]⟩
  events := ⟨[], by simp, rfl⟩
  stores h := ⟨h, fun _ _ => rfl⟩

theorem BusOnly.views {s z : State} (h : BusOnly s z) (n : Chan) :
    z.params = s.params ∧ z.sinc n = s.sinc n ∧ z.dinc n = s.dinc n := by
  obtain ⟨as, d, ws, es, rfl⟩ := h
  exact ⟨rfl, rfl, rfl⟩

/-- A change of one bank's counters commutes with what the bus does. -/
theorem BusOnly.setCounters {s z : State} (h : BusOnly s z) (n : Chan) (b : Bank) (c : Counters) :
    BusOnly (Machine.setCounters s n b c) (Machine.setCounters z n b c) := by
  obtain ⟨as, d, ws, es, rfl⟩ := h
  refine ⟨as, d, ws, es, ?_⟩
  cases b <;> rfl

theorem BusOnly.of_setCounters {s y : State} {n : Chan} {b : Bank} {c : Counters}
    (h : BusOnly (Machine.setCounters s n b c) y) (d : Counters) :
    ∃ z, BusOnly s z ∧ Machine.setCounters y n b d = Machine.setCounters z n b d := by
  obtain ⟨as, k, ws, es, rfl⟩ := h
  refine ⟨{ s with answers := as, draws := k, mem := memSetAll s.mem ws, hist := s.hist ++ es },
    ⟨as, k, ws, es, rfl⟩, ?_⟩
  rw [← setCounters_setCounters { s with answers := as, draws := k, mem := memSetAll s.mem ws, hist := s.hist ++ es } n b
    c d]
  cases b <;> rfl

/-- One unit step is the move of one unit (43_dma_transfer.md R121). -/
theorem unitStep_moved {b : Bank} {n : Chan} {u : Nat} {s : State} (hu : u ≤ 4) (hs : u ≤ (counters s n b).size.toNat)
    (hc : ClearOfWindow s n u 1 (counters s n b)) :
    ∃ t, unitStep b n u s = .next t ∧ UnitsMoved n b u 1 s t := by
  obtain ⟨es, h1, h2, h3⟩ := moveUnit_spec n (counters s n b) hu s
  obtain ⟨hw1, hw2⟩ := hc 0 (by omega)
  have hadv : advance s n u (counters s n b) = countersAfter s n u 1 (counters s n b) := by
    simp [advance, countersAfter, addrAfter]
  obtain ⟨-, -, -, hm, hh⟩ := setCounters_views (moveUnit n (counters s n b) u s) n b (advance s n u (counters s n b))
  refine ⟨_, unitStep_eq_next.mpr ⟨hs, hw1, hw2, rfl⟩, ⟨_, moveUnit_busOnly _ _ _ _, by rw [hadv]⟩, ⟨es, ?_, ?_⟩, ?_⟩
  · rw [hh, h1]
  · exact ⟨es, [], by simp, h2, rfl⟩
  · intro hwf
    rw [hm]
    exact ⟨(h3 hwf).1, fun x hx => by rw [hm]; exact (h3 hwf).2 x (hx 0 (by omega))⟩

/-- One unit and then `k` more are `k + 1`. -/
theorem UnitsMoved.cons {n : Chan} {b : Bank} {u k : Nat} {s t v : State} (h : UnitsMoved n b u 1 s t)
    (g : UnitsMoved n b u k t v) : UnitsMoved n b u (k + 1) s v := by
  obtain ⟨⟨z, hz, rfl⟩, ⟨es, he, ⟨e1, e2, rfl, hu1, rfl⟩⟩, hst⟩ := h
  obtain ⟨⟨y, hy, rfl⟩, ⟨fs, hf, hf'⟩, gst⟩ := g
  obtain ⟨hp, hsi, hdi⟩ := hz.views n
  obtain ⟨vp, vsi, vdi, -, -⟩ := setCounters_views z n b (countersAfter s n u 1 (counters s n b))
  rw [hp] at vp
  rw [hsi] at vsi
  rw [hdi] at vdi
  have hcc : countersAfter (setCounters z n b (countersAfter s n u 1 (counters s n b))) n u k
      (counters (setCounters z n b (countersAfter s n u 1 (counters s n b))) n b) =
      countersAfter s n u (k + 1) (counters s n b) := by
    rw [counters_setCounters]
    rw [countersAfter_congr vsi vdi, countersAfter_succ]
  refine ⟨?_, ⟨e1 ++ fs, by rw [hf, he]; simp only [List.append_nil, List.append_assoc], ⟨e1, fs, rfl, hu1, ?_⟩⟩, fun hwf => ?_⟩
  · obtain ⟨w, hw, hweq⟩ := hy.of_setCounters (countersAfter s n u (k + 1) (counters s n b))
    exact ⟨w, hz.trans hw, by rw [hcc, hweq]⟩
  · rw [counters_setCounters, vsi, vdi] at hf'
    exact hf'
  · obtain ⟨w1, w2⟩ := hst hwf
    obtain ⟨g1, g2⟩ := gst w1
    refine ⟨g1, fun x hx => ?_⟩
    rw [g2 x ?_, w2 x ?_]
    · intro j hj
      have : j = 0 := by omega
      subst this
      exact hx 0 (by omega)
    · intro j hj
      rw [vdi, byteAddrs_params vp, counters_setCounters]
      exact hx (j + 1) (by omega)

theorem ClearOfWindow.tail {n : Chan} {b : Bank} {u k : Nat} {s t : State} (h : UnitsMoved n b u 1 s t)
    (hc : ClearOfWindow s n u (k + 1) (counters s n b)) : ClearOfWindow t n u k (counters t n b) := by
  obtain ⟨⟨z, hz, rfl⟩, -, -⟩ := h
  obtain ⟨hp, hsi, hdi⟩ := hz.views n
  obtain ⟨vp, vsi, vdi, -, -⟩ := setCounters_views z n b (countersAfter s n u 1 (counters s n b))
  intro j hj
  rw [counters_setCounters, vsi, vdi, hsi, hdi, reachesWindow_params (vp.trans hp), reachesWindow_params (vp.trans hp)]
  exact hc (j + 1) (by omega)

theorem UnitsMoved.counters_eq {n : Chan} {b : Bank} {u k : Nat} {s t : State} (h : UnitsMoved n b u k s t) :
    counters t n b = countersAfter s n u k (counters s n b) := by
  obtain ⟨⟨z, hz, rfl⟩, -, -⟩ := h
  simp

theorem size_after {x : Word} {u k r : Nat} (h : x.toNat = (k + 1) * u + r) :
    (x - BitVec.ofNat 32 (1 * u)).toNat = k * u + r := by
  have := x.isLt
  rw [Nat.add_mul] at h
  simp only [BitVec.toNat_sub, BitVec.toNat_ofNat, Nat.one_mul] at *
  omega

/-- The loop moves all units when the size is a positive multiple of the unit (43_dma_transfer.md R118, R120). -/
theorem blockLoop_moved {b : Bank} {n : Chan} {u : Nat} (h0 : 0 < u) (hu : u ≤ 4) : ∀ (k : Nat) (s : State),
    (counters s n b).size.toNat = (k + 1) * u → ClearOfWindow s n u (k + 1) (counters s n b) →
    ∃ t, blockLoop b n u (k + 1) s = .next t ∧ UnitsMoved n b u (k + 1) s t := by
  intro k
  induction k with
  | zero =>
    intro s hs hc
    obtain ⟨t, ht, hm⟩ := unitStep_moved (b := b) (n := n) hu (by omega) hc
    refine ⟨t, ?_, hm⟩
    have hz : (counters t n b).size = 0 := by
      apply BitVec.eq_of_toNat_eq
      rw [hm.counters_eq]
      exact size_after (k := 0) (r := 0) (by omega) |>.trans (by simp)
    simp only [blockLoop, ht, andThen_next, hz, if_true]
  | succ k ih =>
    intro s hs hc
    obtain ⟨t, ht, hm⟩ := unitStep_moved (b := b) (n := n) hu
      (by have := Nat.le_mul_of_pos_left u (show 0 < k + 1 + 1 by omega); omega) (fun j hj => hc j (by omega))
    have hz : (counters t n b).size.toNat = (k + 1) * u := by
      rw [hm.counters_eq]
      exact size_after (k := k + 1) (r := 0) (by omega)
    obtain ⟨v, hv, gm⟩ := ih t hz (hc.tail hm)
    refine ⟨v, ?_, hm.cons gm⟩
    have hnz : (counters t n b).size ≠ 0 := by
      intro h
      rw [h] at hz
      have := Nat.mul_pos (Nat.succ_pos k) h0
      simp at hz
      omega
    rw [blockLoop, ht, andThen_next, if_neg hnz, hv]

/-- The loop faults after the whole units when bytes are left over, or at once when there is no unit
(43_dma_transfer.md R118, R121). -/
theorem blockLoop_underrun {b : Bank} {n : Chan} {u r : Nat} (hu : u ≤ 4) (hr : r < u) : ∀ (k : Nat) (s : State),
    (counters s n b).size.toNat = k * u + r → (k = 0 ∨ r ≠ 0) → ClearOfWindow s n u k (counters s n b) →
    ∃ t, blockLoop b n u k s = .fault (.sizeUnderrun n (BitVec.ofNat 32 r) u t.markFaulted) ∧ UnitsMoved n b u k s t := by
  intro k
  induction k with
  | zero =>
    intro s hs _ _
    refine ⟨s, ?_, UnitsMoved.none n b u s⟩
    have hz : (counters s n b).size = BitVec.ofNat 32 r := by
      apply BitVec.eq_of_toNat_eq
      simp only [BitVec.toNat_ofNat]
      omega
    simp only [blockLoop, unitStep]
    rw [if_pos (by omega), hz]
  | succ k ih =>
    intro s hs h0 hc
    obtain ⟨t, ht, hm⟩ := unitStep_moved (b := b) (n := n) hu
      (by have := Nat.le_mul_of_pos_left u (show 0 < k + 1 by omega); omega) (fun j hj => hc j (by omega))
    have hz : (counters t n b).size.toNat = k * u + r := by
      rw [hm.counters_eq]
      exact size_after hs
    obtain ⟨v, hv, gm⟩ := ih t hz (by omega) (hc.tail hm)
    refine ⟨v, ?_, hm.cons gm⟩
    have hnz : (counters t n b).size ≠ 0 := by
      intro h
      rw [h] at hz
      simp at hz
      omega
    rw [blockLoop, ht, andThen_next, if_neg hnz, hv]

end Sys2Proof.Machine
end

