-- ==== Sys2Proof/Laws/Fabric.lean ====
section
/-!
SUPPORT. What a signal write can do, said once: the rejections and no-ops, the write of an output that is bound to nothing,
the pulse of such an output; and the commits of register writes as single changes of a channel.
-/

namespace Sys2Proof.Machine

/-! ### Views that records keep -/

@[simp] theorem State.record_dir (s : State) (e : Event) (p : Sig) : (s.record e).dir p = s.dir p := by
  rcases p with (_ | _ | _ | _) | _ <;> rfl
@[simp] theorem State.record_sig (s : State) (e : Event) (p : Sig) : (s.record e).sig p = s.sig p := by
  rcases p with (_ | _ | _ | _) | _ <;> rfl
@[simp] theorem State.record_fit (s : State) (e : Event) (p : Sig) (v : SigVal) : (s.record e).fit p v = s.fit p v := by
  cases p <;> rfl
@[simp] theorem State.record_inputsOf (s : State) (e : Event) (p : Sig) : (s.record e).inputsOf p = s.inputsOf p := rfl

@[simp] theorem fit_pinVal (s : State) (p : Pin) (b : Bool) : s.fit (.pin p) (pinVal b) = pinVal b := by
  cases b <;> rfl

@[simp] theorem pinVal_getLsbD (b : Bool) : (pinVal b).getLsbD 0 = b := by cases b <;> rfl

@[simp] theorem pinVal_getElem (b : Bool) : (pinVal b)[0] = b := by cases b <;> rfl

theorem pinVal_inj {a b : Bool} : pinVal a = pinVal b ↔ a = b := by revert a b; decide

/-! ### Leaving what was entered -/

/-- Two changes of one channel are one. -/
theorem State.modChan_modChan (s : State) (n : Chan) (f g : Channel → Channel) :
    (s.modChan n f).modChan n g = s.modChan n fun c => g (f c) := by
  simp [State.modChan]

/-- An output entered and left has its new state, and nothing else is changed. -/
theorem State.leaveOutput_enterOutput (s : State) (p : Sig) (v : SigVal) :
    (s.enterOutput p v).leaveOutput p = s.setSig p v := by
  have h : (s.setSig p v).propagating = s.propagating := State.setSig_propagating s p v
  simp only [State.leaveOutput, State.enterOutput, List.erase_cons_head]
  rw [← h]

/-- A handler entered and left. -/
theorem State.leaveHandler_enterHandler (s : State) (r : RegId) : (s.enterHandler r).leaveHandler r = s := by
  simp [State.leaveHandler, State.enterHandler]

/-! ### Signal writes -/

/-- A write to an input is rejected with E8 (41_signal_fabric.md R86). -/
theorem writeSignal_input (write : Writer) {s : State} {p : Sig} (v : SigVal) (h : s.dir p = some .input) :
    writeSignal write p v s = .next ((s.record (.sigWrite p v)).raise (.writeToInput p)) := by
  simp [writeSignal, h]

/-- A write of the state held reaches nothing (41_signal_fabric.md R86). -/
theorem writeSignal_same (write : Writer) {s : State} {p : Sig} {v : SigVal} (h : s.dir p = some .output)
    (hv : s.fit p v = s.sig p) : writeSignal write p v s = .next (s.record (.sigWrite p v)) := by
  simp [writeSignal, h, hv]

/-- A write that changes an output delivers the new state to its inputs in order (41_signal_fabric.md R86, R89). -/
theorem writeSignal_change (write : Writer) {s : State} {p : Sig} {v : SigVal} (h : s.dir p = some .output)
    (hv : s.fit p v ≠ s.sig p) (hp : p ∉ s.propagating) :
    writeSignal write p v s =
      andThen (deliver write (s.sig p) (s.fit p v) (s.inputsOf p)
        ((s.record (.sigWrite p v)).enterOutput p (s.fit p v))) fun t => .next (t.leaveOutput p) := by
  simp [writeSignal, h, hv, hp]

/-- A write that changes an output during its own propagation faults (41_signal_fabric.md R90). -/
theorem writeSignal_reentrant (write : Writer) {s : State} {p : Sig} {v : SigVal} (h : s.dir p = some .output)
    (hv : s.fit p v ≠ s.sig p) (hp : p ∈ s.propagating) :
    writeSignal write p v s = .fault (.outputReentrancy p (s.record (.sigWrite p v)).markFaulted) := by
  simp [writeSignal, h, hv, hp]

/-- A write that changes an output bound to nothing changes that output only (41_signal_fabric.md R86). -/
theorem writeSignal_unbound (write : Writer) {s : State} {p : Sig} {v : SigVal} (h : s.dir p = some .output)
    (hv : s.fit p v ≠ s.sig p) (hp : p ∉ s.propagating) (hi : s.inputsOf p = []) :
    writeSignal write p v s = .next ((s.record (.sigWrite p v)).setSig p (s.fit p v)) := by
  rw [writeSignal_change write h hv hp, hi]
  simp [deliver, State.leaveOutput_enterOutput]

theorem sigWrite_succ (k : Nat) (p : Sig) (v : SigVal) (s : State) :
    sigWrite (k + 1) p v s = writeSignal (sigWrite k) p v s := rfl

/-- The signal write of an operation allows at least one level of nesting. -/
theorem topWrite_succ (s : State) : ∃ k, topWrite s = sigWrite (k + 1) :=
  ⟨16 + s.extPins.length + s.extPorts.length, by
    unfold topWrite nestBound
    congr 1
    omega⟩

theorem QuietOutput.congr {s t : State} {p : Pin} (h : QuietOutput s p) (hb : t.bindings = s.bindings)
    (hs : t.sig (.pin p) = s.sig (.pin p)) (hp : (.pin p) ∉ t.propagating) : QuietOutput t p :=
  ⟨by rw [← h.unbound]; simp [State.inputsOf, hb], by rw [hs, h.low], hp⟩

/-- The pulse of an output of the block that reaches nobody leaves only its two writes in the history
(43_dma_transfer.md R124). -/
theorem pulse_quiet (k : Nat) {s : State} (n : Chan) (e : Pulse) (h : QuietOutput s (pulsePin n e)) :
    pulse (sigWrite (k + 1)) (pulsePin n e) s =
      .next { s with hist := s.hist ++ pulseEvents (pulsePin n e) } := by
  have hdir : ∀ t : State, t.dir (.pin (pulsePin n e)) = some .output := by intro t; cases e <;> rfl
  have h1 : s.fit (.pin (pulsePin n e)) (pinVal true) ≠ s.sig (.pin (pulsePin n e)) := by
    rw [fit_pinVal, h.low]; decide
  unfold pulse
  simp only [sigWrite_succ]
  rw [writeSignal_unbound _ (hdir s) h1 h.still h.unbound, andThen_next, fit_pinVal]
  generalize ht : (s.record (.sigWrite (.pin (pulsePin n e)) (pinVal true))).setSig (.pin (pulsePin n e)) (pinVal true) = t
  have hs : t.sig (.pin (pulsePin n e)) = pinVal true := by
    subst ht; cases e <;> simp [pulsePin, State.sig, State.setSig]
  have hp : (.pin (pulsePin n e)) ∉ t.propagating := by subst ht; simpa using h.still
  have hi : t.inputsOf (.pin (pulsePin n e)) = [] := by
    rw [← h.unbound]; subst ht; simp [State.inputsOf]
  rw [writeSignal_unbound _ (hdir t) (by rw [fit_pinVal, hs]; decide) hp hi, fit_pinVal]
  subst ht
  have hlow := h.low
  congr 1
  cases e
  · have hd : (s.chan n).done = false := pinVal_inj.mp hlow
    simp only [pulsePin, State.setSig, State.record]
    rw [show ∀ (a : State) (f g : Channel → Channel) (x : List Event),
      ({ a.modChan n f with hist := x } : State).modChan n g = { (a.modChan n f).modChan n g with hist := x } from
      fun _ _ _ _ => rfl, State.modChan_modChan]
    rw [State.modChan_same _ n _ (by simp [State.chan] at hd ⊢; cases hc : s.chans[n.val]; simp_all)]
    simp [pulseEvents, State.modChan, pinVal]
  · have hd : (s.chan n).reqo = false := pinVal_inj.mp hlow
    simp only [pulsePin, State.setSig, State.record]
    rw [show ∀ (a : State) (f g : Channel → Channel) (x : List Event),
      ({ a.modChan n f with hist := x } : State).modChan n g = { (a.modChan n f).modChan n g with hist := x } from
      fun _ _ _ _ => rfl, State.modChan_modChan]
    rw [State.modChan_same _ n _ (by simp [State.chan] at hd ⊢; cases hc : s.chans[n.val]; simp_all)]
    simp [pulseEvents, State.modChan, pinVal]

/-! ### Commits -/

theorem and_ones (v : Word) : v &&& 0xFFFFFFFF = v := BitVec.and_allOnes

theorem commit_ctrl (s : State) (n : Chan) (v : Word) : s.commit (.ctrl n) v =
    s.modChan n fun c => { c with ctrl := { cur := v &&& ctrlMask s.params.ctrlLayout, prev := c.ctrl.cur } } := rfl

theorem commit_trigger (s : State) (n : Chan) (v : Word) : s.commit (.trigger n) v =
    s.modChan n fun c => { c with trigger := { cur := v, prev := c.trigger.cur } } := by
  simp only [State.commit, cellWrite, State.cell, regPerm, regMask, State.setValues, State.values, and_ones]; rfl

theorem commit_src (s : State) (n : Chan) (v : Word) : s.commit (.src n) v =
    s.modChan n fun c => { c with src := { cur := v, prev := c.src.cur } } := by
  simp only [State.commit, cellWrite, State.cell, regPerm, regMask, State.setValues, State.values, and_ones]; rfl

theorem commit_dst (s : State) (n : Chan) (v : Word) : s.commit (.dst n) v =
    s.modChan n fun c => { c with dst := { cur := v, prev := c.dst.cur } } := by
  simp only [State.commit, cellWrite, State.cell, regPerm, regMask, State.setValues, State.values, and_ones]; rfl

theorem commit_size (s : State) (n : Chan) (v : Word) : s.commit (.size n) v =
    s.modChan n fun c => { c with size := { cur := v, prev := c.size.cur } } := by
  simp only [State.commit, cellWrite, State.cell, regPerm, regMask, State.setValues, State.values, and_ones]; rfl

theorem commit_cfg (s : State) (k : Pair) (v : Word) : s.commit (.cfg k) v =
    s.setCfg k { cur := v &&& 0x001F001F, prev := (s.cfgCell k).cur } := rfl

/-- A write of a plain register is its commit (40_register_framework.md R81). -/
theorem regWrite_plain (write : Writer) {r : RegId} (v : Word) {s : State} (hp : regPerm r ≠ .ro)
    (hh : regHandler r = none) (hr : r ∉ s.inCallback) :
    regWrite write r v s = .next ((s.record (.regWrite r v)).commit r v) := by
  rw [regWrite_eq, if_neg hp, if_neg hr, commitAndHandle_plain _ _ _ _ hh]

/-- A CTRL write: the commit, the handler, and its leaving (40_register_framework.md R78). -/
theorem regWrite_ctrl (write : Writer) {n : Chan} (v : Word) {s : State} (hr : .ctrl n ∉ s.inCallback) :
    regWrite write (.ctrl n) v s =
      andThen (ctrlHandler write n ((((s.record (.regWrite (.ctrl n) v)).commit (.ctrl n) v).enterHandler (.ctrl n)).record
        (.handler (.ctrl n) v))) fun t => .next (t.leaveHandler (.ctrl n)) := by
  rw [regWrite_eq, if_neg (by simp [regPerm]), if_neg hr]; rfl

/-- A TRIGGER write: the commit, the handler, and its leaving (40_register_framework.md R78). -/
theorem regWrite_trigger (write : Writer) {n : Chan} (v : Word) {s : State} (hr : .trigger n ∉ s.inCallback) :
    regWrite write (.trigger n) v s =
      andThen (swTrigger write n ((((s.record (.regWrite (.trigger n) v)).commit (.trigger n) v).enterHandler
        (.trigger n)).record (.handler (.trigger n) v))) fun t => .next (t.leaveHandler (.trigger n)) := by
  rw [regWrite_eq, if_neg (by simp [regPerm]), if_neg hr]; rfl

/-! ### The two handlers -/

/-- What a CTRL write has stored when its handler has set the sensitivities. -/
def ctrlStored (n : Chan) (v : Word) (s : State) : State :=
  let w := v &&& ctrlMask s.params.ctrlLayout
  { s.modChan n (fun c => { c with
      ctrl := { cur := w, prev := c.ctrl.cur }
      trig := mapEntries (fun p => { p with sens := sensOf (ctrlLevel s.params.ctrlLayout w) }) c.trig }) with
    hist := s.hist ++ [.regWrite (.ctrl n) v, .handler (.ctrl n) v] }

/-- What a TRIGGER write has stored when its handler begins. -/
def triggerStored (n : Chan) (v : Word) (s : State) : State :=
  { s.modChan n (fun c => { c with trigger := { cur := v, prev := c.trigger.cur } }) with
    hist := s.hist ++ [.regWrite (.trigger n) v, .handler (.trigger n) v] }

theorem ctrlCommitted_eq (n : Chan) (v : Word) (s : State) :
    ctrlCommitted n v (s.record (.regWrite (.ctrl n) v)) = (ctrlStored n v s).enterHandler (.ctrl n) := by
  simp [ctrlCommitted, ctrlStored, commit_ctrl, setSensAll, State.lvl, State.ctrlWord, State.enterHandler, State.record,
    State.modChan, State.chan]

/-- A CTRL write: stored and, with EN = 1, armed and the request output pulsed (42_dma_registers.md R95). -/
theorem regWrite_ctrl_eq (write : Writer) {n : Chan} (v : Word) {s : State} (hr : .ctrl n ∉ s.inCallback) :
    regWrite write (.ctrl n) v s =
      if ctrlEn s.params.ctrlLayout (v &&& ctrlMask s.params.ctrlLayout) then
        andThen (pulse write (.reqo n) ((arm n (ctrlStored n v s)).enterHandler (.ctrl n)))
          fun t => .next (t.leaveHandler (.ctrl n))
      else .next (ctrlStored n v s) := by
  rw [regWrite_ctrl _ _ hr]
  have h : ctrlHandler write n ((((s.record (.regWrite (.ctrl n) v)).commit (.ctrl n) v).enterHandler (.ctrl n)).record
      (.handler (.ctrl n) v)) =
      if (ctrlCommitted n v (s.record (.regWrite (.ctrl n) v))).en n then
        pulse write (.reqo n) (arm n (ctrlCommitted n v (s.record (.regWrite (.ctrl n) v))))
      else .next (ctrlCommitted n v (s.record (.regWrite (.ctrl n) v))) := rfl
  rw [h, ctrlCommitted_eq]
  have he : ((ctrlStored n v s).enterHandler (.ctrl n)).en n =
      ctrlEn s.params.ctrlLayout (v &&& ctrlMask s.params.ctrlLayout) := by
    simp [State.en, State.ctrlWord, ctrlStored, State.modChan, State.chan]
  rw [he]
  split
  · rfl
  · simp [State.leaveHandler_enterHandler]

/-- A TRIGGER write: stored, and the software trigger (43_dma_transfer.md R110). -/
theorem regWrite_trigger_eq (write : Writer) {n : Chan} (v : Word) {s : State} (hr : .trigger n ∉ s.inCallback) :
    regWrite write (.trigger n) v s =
      if s.en n = false then .next ((triggerStored n v s).raise (.triggerWhileDisabled n))
      else if s.test n && s.lvl n && transitioned (s.chan n).trigger.cur v (s.tsel n) then
        andThen (run write n ((triggerStored n v s).enterHandler (.trigger n))) fun t => .next (t.leaveHandler (.trigger n))
      else .next (triggerStored n v s) := by
  rw [regWrite_trigger _ _ hr]
  have h : (((s.record (.regWrite (.trigger n) v)).commit (.trigger n) v).enterHandler (.trigger n)).record
      (.handler (.trigger n) v) = (triggerStored n v s).enterHandler (.trigger n) := by
    simp [commit_trigger, triggerStored, State.enterHandler, State.record, State.modChan]
  rw [h]
  unfold swTrigger
  have e1 : ((triggerStored n v s).enterHandler (.trigger n)).en n = s.en n := by
    simp [State.en, State.ctrlWord, triggerStored, State.modChan, State.chan]
  have e2 : ((triggerStored n v s).enterHandler (.trigger n)).test n = s.test n := by
    simp [State.test, State.ctrlWord, triggerStored, State.modChan, State.chan]
  have e3 : ((triggerStored n v s).enterHandler (.trigger n)).lvl n = s.lvl n := by
    simp [State.lvl, State.ctrlWord, triggerStored, State.modChan, State.chan]
  have e4 : ((triggerStored n v s).enterHandler (.trigger n)).tsel n = s.tsel n := rfl
  have e5 : (((triggerStored n v s).enterHandler (.trigger n)).chan n).trigger = { cur := v, prev := (s.chan n).trigger.cur } := by
    simp [triggerStored, State.modChan, State.chan]
  rw [e1, e2, e3, e4, e5]
  split
  · simp [State.leaveHandler, State.enterHandler, State.raise, State.record]
  · split
    · rfl
    · simp [State.leaveHandler_enterHandler]

theorem ctrlStored_chan (n : Chan) (v : Word) (s : State) : (ctrlStored n v s).chan n =
    { s.chan n with
      ctrl := { cur := v &&& ctrlMask s.params.ctrlLayout, prev := (s.chan n).ctrl.cur }
      trig := mapEntries (fun p => { p with
        sens := sensOf (ctrlLevel s.params.ctrlLayout (v &&& ctrlMask s.params.ctrlLayout)) }) (s.chan n).trig } := by
  simp [ctrlStored, State.chan, State.modChan]

theorem ctrlStored_only (n : Chan) (v : Word) (s : State) : OnlyChannel n s (ctrlStored n v s) := by
  refine ⟨fun m hm => ?_, rfl, rfl, rfl, rfl, rfl, rfl, rfl, rfl, rfl, rfl, rfl⟩
  have := State.modChan_chan_ne s (n := n) (m := m) (fun c => { c with
      ctrl := { cur := v &&& ctrlMask s.params.ctrlLayout, prev := c.ctrl.cur }
      trig := mapEntries (fun p => { p with
        sens := sensOf (ctrlLevel s.params.ctrlLayout (v &&& ctrlMask s.params.ctrlLayout)) }) c.trig }) (Ne.symm hm)
  exact this

theorem triggerStored_chan (n : Chan) (v : Word) (s : State) : (triggerStored n v s).chan n =
    { s.chan n with trigger := { cur := v, prev := (s.chan n).trigger.cur } } := by
  simp [triggerStored, State.chan, State.modChan]

theorem triggerStored_only (n : Chan) (v : Word) (s : State) : OnlyChannel n s (triggerStored n v s) := by
  refine ⟨fun m hm => ?_, rfl, rfl, rfl, rfl, rfl, rfl, rfl, rfl, rfl, rfl, rfl⟩
  have := State.modChan_chan_ne s (n := n) (m := m)
    (fun c => { c with trigger := { cur := v, prev := c.trigger.cur } }) (Ne.symm hm)
  exact this

theorem arm_chan (n : Chan) (s : State) : (arm n s).chan n =
    { s.chan n with st := Flags.armed (s.chan n).st, wk := backingCounters s n } := by
  simp [arm, modFlags, loadWorking]

theorem arm_only (n : Chan) (s : State) : OnlyChannel n s (arm n s) :=
  OnlyChannel.trans (t := loadWorking s n) (OnlyChannel.modChan s n fun c => { c with wk := backingCounters s n })
    (OnlyChannel.modChan (loadWorking s n) n fun c => { c with st := Flags.armed c.st })

/-- A change of the history alone leaves the channels. -/
@[simp] theorem State.chan_with_hist (s : State) (es : List Event) (n : Chan) :
    ({ s with hist := es } : State).chan n = s.chan n := rfl

theorem OnlyChannel.with_hist {n : Chan} {s t : State} (h : OnlyChannel n s t) (es : List Event) :
    OnlyChannel n s { t with hist := es } :=
  ⟨h.others, h.cfg, h.extPins, h.extPorts, h.bindings, h.propagating, h.inCallback, h.otherRegs, h.faultMark,
    h.refusalMark, h.params, h.pending⟩

/-! ### Run -/

/-- What the start of an invocation leaves as it was. -/
theorem startInvocation_views (n : Chan) (s : State) :
    (startInvocation n s).modeField n = s.modeField n ∧ (startInvocation n s).sbyte n = s.sbyte n ∧
    (startInvocation n s).dbyte n = s.dbyte n ∧ (startInvocation n s).sinc n = s.sinc n ∧
    (startInvocation n s).dinc n = s.dinc n ∧ (startInvocation n s).params = s.params ∧
    (startInvocation n s).mem = s.mem ∧ (startInvocation n s).hist = s.hist ∧
    ∀ b, counters (startInvocation n s) n b = counters s n b := by
  simp only [startInvocation, State.modeField, State.sbyte, State.dbyte, State.sinc, State.dinc, State.ctrlWord,
    State.modChan_chan_same, State.modChan_params, State.modChan_mem, State.modChan_hist, true_and]
  intro b
  cases b <;> simp [counters, backingCounters]

/-- An accepted trigger of a well-configured channel: the mode's procedure, its pulses and the end of the invocation
(43_dma_transfer.md R115). -/
theorem run_accepts (write : Writer) {n : Chan} {s : State} {m : Mode} (h : (s.chan n).active = false)
    (hm : modeOf (s.modeField n) = some m) (hb : s.sbyte n = s.dbyte n) :
    run write n s = andThen (runMode m n (unitLen (s.sbyte n)) (startInvocation n s)) fun r =>
      andThen (emitPulses write n r.2 r.1) fun t => .next (endInvocation n t) := by
  obtain ⟨h1, h2, h3, -⟩ := startInvocation_views n s
  unfold run
  rw [if_neg (by simp [h])]
  simp only [h1, hm, h2, h3, hb]
  simp

/-! ### exec of the operations that write -/

theorem exec_wrCtrl (n : Chan) (v : Word) (s : State) :
    exec (.wrCtrl n v) s = regWrite (topWrite s) (.ctrl n) v s := rfl

theorem exec_wrTrigger (n : Chan) (v : Word) (s : State) :
    exec (.wrTrigger n v) s = regWrite (topWrite s) (.trigger n) v s := rfl

theorem exec_pinWrite {k : Nat} {s : State} (h : k < s.extPins.length) (b : Bool) :
    exec (.pinWrite (.ext k) b) s = topWrite s (.pin (.ext k)) (pinVal b) s := by
  simp [exec, execPinWrite, State.isExtPin, h]

theorem exec_portWrite {k : Nat} {s : State} (h : k < s.extPorts.length) (v : SigVal) :
    exec (.portWrite k v) s = topWrite s (.port k) v s := by
  simp [exec, execPortWrite, State.isExtPort, h]

end Sys2Proof.Machine
end

