-- ==== Sys2Proof/Laws/Modes.lean ====
section
/-!
SUPPORT. What the units of a transfer, the start and the end of an invocation do, as changes of one channel.
-/

namespace Sys2Proof.Machine

/-- The units of a transfer change only their channel and the bus side. -/
theorem UnitsMoved.only {n : Chan} {b : Bank} {u k : Nat} {s t : State} (h : UnitsMoved n b u k s t) :
    OnlyChannel n s t := by
  obtain ⟨⟨z, hz, rfl⟩, -, -⟩ := h
  refine (hz.onlyChannel n).trans ?_
  cases b
  · exact OnlyChannel.modChan z n fun ch => { ch with
        src := { ch.src with cur := (countersAfter s n u k (counters s n .backing)).src }
        dst := { ch.dst with cur := (countersAfter s n u k (counters s n .backing)).dst }
        size := { ch.size with cur := (countersAfter s n u k (counters s n .backing)).size } }
  · exact OnlyChannel.modChan z n fun ch => { ch with wk := (countersAfter s n u k (counters s n .working)) }

/-- The channel after units on the backing registers (43_dma_transfer.md R121). -/
theorem UnitsMoved.backing_chan {n : Chan} {u k : Nat} {s t : State} (h : UnitsMoved n .backing u k s t) :
    t.chan n = { s.chan n with
        src := { (s.chan n).src with cur := addrAfter (s.sinc n) u k (s.chan n).src.cur }
        dst := { (s.chan n).dst with cur := addrAfter (s.dinc n) u k (s.chan n).dst.cur }
        size := { (s.chan n).size with cur := (s.chan n).size.cur - BitVec.ofNat 32 (k * u) } } := by
  obtain ⟨⟨z, hz, rfl⟩, -, -⟩ := h
  simp [setCounters, hz.chan, countersAfter, counters, backingCounters]

/-- The channel after units on the working copy (43_dma_transfer.md R121). -/
theorem UnitsMoved.working_chan {n : Chan} {u k : Nat} {s t : State} (h : UnitsMoved n .working u k s t) :
    t.chan n = { s.chan n with wk := countersAfter s n u k (s.chan n).wk } := by
  obtain ⟨⟨z, hz, rfl⟩, -, -⟩ := h
  simp [setCounters, hz.chan, counters]

/-! ### The start of an invocation -/

theorem startInvocation_only (n : Chan) (s : State) : OnlyChannel n s (startInvocation n s) :=
  OnlyChannel.modChan s n fun ch => { ch with active := true, st := Flags.running }

theorem startInvocation_chan (n : Chan) (s : State) :
    (startInvocation n s).chan n = { s.chan n with active := true, st := Flags.running } := by
  simp [startInvocation]

/-- Starting an invocation moves no address. -/
theorem ClearOfWindow.start {s : State} {n : Chan} {u k : Nat} {c : Counters} (h : ClearOfWindow s n u k c) :
    ClearOfWindow (startInvocation n s) n u k c := by
  obtain ⟨-, -, -, h1, h2, h3, -⟩ := startInvocation_views n s
  intro j hj
  rw [h1, h2, reachesWindow_params h3, reachesWindow_params h3]
  exact h j hj

theorem unitLen_bounds (b : Bool) : unitLen b ≤ 4 ∧ 0 < unitLen b := by cases b <;> decide

/-! ### The end of an invocation -/

theorem modFlags_only (s : State) (n : Chan) (f : Flags → Flags) : OnlyChannel n s (modFlags s n f) :=
  OnlyChannel.modChan s n fun ch => { ch with st := f ch.st }

theorem modFlags_chan (s : State) (n : Chan) (f : Flags → Flags) :
    (modFlags s n f).chan n = { s.chan n with st := f (s.chan n).st } := by
  simp [modFlags]

theorem completeOneShot_only (n : Chan) (s : State) : OnlyChannel n s (completeOneShot n s) :=
  OnlyChannel.trans (t := clearEnable s n)
    (OnlyChannel.modChan s n fun ch => { ch with ctrl := { ch.ctrl with cur := clearEn s.params.ctrlLayout ch.ctrl.cur } })
    (modFlags_only (clearEnable s n) n Flags.completed)

/-- The channel at the end of a one-shot transfer (43_dma_transfer.md R117, R118). -/
theorem completeOneShot_chan (n : Chan) (s : State) : (completeOneShot n s).chan n = { s.chan n with
    ctrl := { (s.chan n).ctrl with cur := clearEn s.params.ctrlLayout (s.chan n).ctrl.cur }
    st := Flags.completed (s.chan n).st } := by
  simp [completeOneShot, modFlags, clearEnable]

theorem completePass_only (n : Chan) (s : State) : OnlyChannel n s (completePass n s) :=
  OnlyChannel.trans (t := loadWorking s n) (OnlyChannel.modChan s n fun ch => { ch with wk := backingCounters s n })
    (modFlags_only (loadWorking s n) n Flags.passEnded)

/-- The channel at the end of a repeated pass (43_dma_transfer.md R119, R120). -/
theorem completePass_chan (n : Chan) (s : State) : (completePass n s).chan n = { s.chan n with
    wk := backingCounters s n, st := Flags.passEnded (s.chan n).st } := by
  simp [completePass, modFlags, loadWorking]

/-- What a transfer stores depends on the memories, the parameters and the destination policy only. -/
theorem StoresOnly.congr {s t s' t' : State} {n : Chan} {u k : Nat} {d : Word} (h : StoresOnly s t n u k d)
    (hm : s'.mem = s.mem) (ht : t'.mem = t.mem) (hd : s'.dinc n = s.dinc n) (hp : s'.params = s.params) :
    StoresOnly s' t' n u k d := by
  intro x hx
  rw [ht, hm]
  apply h
  intro j hj
  have := hx j hj
  rwa [hd, byteAddrs_params hp] at this

/-- A counter of at least one unit is 0 after the unit exactly if it held one unit (43_dma_transfer.md R117). -/
theorem size_zero_iff (x : Word) (u : Nat) (h : u ≤ x.toNat) (hu : u ≤ 4) :
    (x - BitVec.ofNat 32 (1 * u) = 0) ↔ x.toNat = u := by
  have hx := x.isLt
  rw [← BitVec.toNat_inj]
  simp only [BitVec.toNat_sub, BitVec.toNat_ofNat, Nat.one_mul]
  simp
  omega

end Sys2Proof.Machine
end

