-- ==== Sys2Proof/Laws/Signals.lean ====
section
/-!
SUPPORT. Reading a signal after writing one, and what a signal write leaves of the signals' fields.
-/

namespace Sys2Proof.Machine

/-! ### Read after write (10_state.md R32) -/

/-- Another signal keeps its state. -/
theorem State.setSig_sig_ne (s : State) {p q : Sig} (h : q ≠ p) (v : SigVal) : (s.setSig p v).sig q = s.sig q := by
  obtain (k | ⟨m, i⟩ | m | m) | k := p
  · obtain (k' | ⟨m', i'⟩ | m' | m') | k' := q
    · have hk : k ≠ k' := by rintro rfl; exact h rfl
      simp [State.sig, State.setSig, hk]
    all_goals rfl
  · obtain (k' | ⟨m', i'⟩ | m' | m') | k' := q <;> try rfl
    · simp only [State.sig, State.setSig, State.modChan_chan]
      split
      · next hm =>
        subst hm
        have hi : i.val ≠ i'.val := by
          intro hi
          exact h (by rw [Fin.ext hi])
        simp [hi]
      · rfl
    all_goals
      simp only [State.sig, State.setSig, State.modChan_chan]
      split
      · next hm => subst hm; rfl
      · rfl
  · obtain (k' | ⟨m', i'⟩ | m' | m') | k' := q <;> try rfl
    all_goals
      simp only [State.sig, State.setSig, State.modChan_chan]
      split
      · next hm => subst hm; first | rfl | exact absurd rfl h
      · rfl
  · obtain (k' | ⟨m', i'⟩ | m' | m') | k' := q <;> try rfl
    all_goals
      simp only [State.sig, State.setSig, State.modChan_chan]
      split
      · next hm => subst hm; first | rfl | exact absurd rfl h
      · rfl
  · obtain (k' | ⟨m', i'⟩ | m' | m') | k' := q <;> try rfl
    have hk : k ≠ k' := by rintro rfl; exact h rfl
    simp [State.sig, State.setSig, hk]

/-- A pin that exists has the bit written. -/
theorem State.setSig_sig_pin (s : State) {p : Pin} (h : s.dir (.pin p) ≠ none) (b : Bool) :
    (s.setSig (.pin p) (pinVal b)).sig (.pin p) = pinVal b := by
  obtain k | ⟨m, i⟩ | m | m := p
  · obtain ⟨q, hq⟩ : ∃ q, s.extPins[k]? = some q := by
      cases hq : s.extPins[k]? with
      | none => simp [State.dir, hq] at h
      | some q => exact ⟨q, rfl⟩
    simp [State.sig, State.setSig, hq]
  all_goals simp [State.sig, State.setSig]

/-- A port that exists has the value written. -/
theorem State.setSig_sig_port (s : State) {k : Nat} (h : s.dir (.port k) ≠ none) (v : SigVal) :
    (s.setSig (.port k) v).sig (.port k) = v := by
  obtain ⟨q, hq⟩ : ∃ q, s.extPorts[k]? = some q := by
    cases hq : s.extPorts[k]? with
    | none => simp [State.dir, hq] at h
    | some q => exact ⟨q, rfl⟩
  simp [State.sig, State.setSig, hq]

/-- A state is read from the channels' pins and the other devices' pins and ports only. -/
theorem State.sig_congr {s t : State}
    (hc : ∀ n, (t.chan n).trig = (s.chan n).trig ∧ (t.chan n).done = (s.chan n).done ∧ (t.chan n).reqo = (s.chan n).reqo)
    (h1 : t.extPins = s.extPins) (h2 : t.extPorts = s.extPorts) (p : Sig) : t.sig p = s.sig p := by
  obtain (k | ⟨m, i⟩ | m | m) | k := p <;> simp [State.sig, h1, h2, hc]

/-- A direction is read from the other devices' pins and ports only. -/
theorem State.dir_congr {s t : State} (h1 : t.extPins = s.extPins) (h2 : t.extPorts = s.extPorts) (p : Sig) :
    t.dir p = s.dir p := by
  obtain (_ | _ | _ | _) | _ := p <;> simp [State.dir, h1, h2]

/-- A change of a channel that keeps its pins keeps every signal. -/
theorem State.modChan_sig {s : State} {n : Chan} {f : Channel → Channel}
    (h : (f (s.chan n)).trig = (s.chan n).trig ∧ (f (s.chan n)).done = (s.chan n).done ∧
      (f (s.chan n)).reqo = (s.chan n).reqo) (q : Sig) : (s.modChan n f).sig q = s.sig q :=
  State.sig_congr (s := s) (t := s.modChan n f) (by
    intro m
    rw [State.modChan_chan]
    split
    · next hm => subst hm; exact h
    · exact ⟨rfl, rfl, rfl⟩) rfl rfl q

/-- A register write's commit keeps every signal. -/
theorem State.commit_sig (s : State) (r : RegId) (v : Word) (q : Sig) : (s.commit r v).sig q = s.sig q := by
  cases r
  case cfg k => exact State.sig_congr (s := s) (t := s.commit (.cfg k) v) (fun _ => ⟨rfl, rfl, rfl⟩) rfl rfl q
  case status k => rfl
  all_goals
    unfold State.commit State.setValues
    exact State.modChan_sig ⟨rfl, rfl, rfl⟩ q

/-- Setting the sensitivities keeps every signal (41_signal_fabric.md R92). -/
theorem setSensAll_sig (n : Chan) (sens : Sens) (s : State) (q : Sig) : (setSensAll n sens s).sig q = s.sig q := by
  obtain (k | ⟨m, i⟩ | m | m) | k := q
  · rfl
  · simp only [State.sig, setSensAll, State.modChan_chan]
    split
    · next hm => subst hm; simp
    · rfl
  · simp only [State.sig, setSensAll, State.modChan_chan]
    split
    · next hm => subst hm; rfl
    · rfl
  · simp only [State.sig, setSensAll, State.modChan_chan]
    split
    · next hm => subst hm; rfl
    · rfl
  · rfl

/-- A CTRL write's commit and sensitivities keep every signal. -/
theorem ctrlCommitted_sig (n : Chan) (v : Word) (s : State) (q : Sig) : (ctrlCommitted n v s).sig q = s.sig q := by
  unfold ctrlCommitted
  simp only [setSensAll_sig]
  rw [State.record_sig, ← State.commit_sig s (.ctrl n) v]
  exact State.sig_congr (fun _ => ⟨rfl, rfl, rfl⟩) rfl rfl q

/-- The inputs bound to an output are its partners in the binding list. -/
theorem State.mem_inputsOf {s : State} {o i : Sig} : i ∈ s.inputsOf o ↔ (o, i) ∈ s.bindings := by
  simp only [State.inputsOf, List.mem_map, List.mem_filter, decide_eq_true_eq]
  constructor
  · rintro ⟨b, ⟨hb, rfl⟩, rfl⟩; exact hb
  · intro h; exact ⟨_, ⟨h, rfl⟩, rfl⟩

theorem BindingsOk.inputsOf_nodup {s : State} (b : BindingsOk s) (o : Sig) : (s.inputsOf o).Nodup :=
  b.once.sublist ((List.filter_sublist (l := s.bindings)).map Prod.snd)

/-- An output of another device's pins is one of them. -/
theorem State.isExtPin_of_dir {s : State} {k : Nat} (h : s.dir (.pin (.ext k)) = some .output) :
    s.isExtPin (.ext k) = true := by
  simp only [State.dir, Option.map_eq_some_iff] at h
  obtain ⟨p, hp, _⟩ := h
  simp only [State.isExtPin, decide_eq_true_eq]
  exact (List.getElem?_eq_some_iff.mp hp).1

/-- An output of another device's ports is one of them. -/
theorem State.isExtPort_of_dir {s : State} {k : Nat} (h : s.dir (.port k) = some .output) : s.isExtPort k = true := by
  simp only [State.dir, Option.map_eq_some_iff] at h
  obtain ⟨p, hp, _⟩ := h
  simp only [State.isExtPort, decide_eq_true_eq]
  exact (List.getElem?_eq_some_iff.mp hp).1

/-! ### Fields that stay -/

/-- A signal's direction stays. -/
theorem Kept.dir {s t : State} (h : Kept s t) (p : Sig) : t.dir p = s.dir p := by
  have hp := h.pins
  have hq := h.ports
  unfold pinStatics at hp
  unfold portStatics at hq
  obtain (k | ⟨m, i⟩ | m | m) | k := p <;> try rfl
  · have := congrArg (fun l => l[k]?.map fun p => pinDir p.mode) hp
    simp only [List.getElem?_map, Option.map_map, Function.comp_def] at this
    exact this
  · have := congrArg (fun l => l[k]?.map fun p => portDir p.mode) hq
    simp only [List.getElem?_map, Option.map_map, Function.comp_def] at this
    exact this

/-- A port's width stays. -/
theorem Kept.shape {s t : State} (h : Kept s t) (p : Sig) : t.shape p = s.shape p := by
  have hq := h.ports
  unfold portStatics at hq
  obtain _ | k := p
  · rfl
  · have := congrArg (fun l => l[k]?.map fun p => p.width) hq
    simp only [List.getElem?_map, Option.map_map, Function.comp_def] at this
    simp only [State.shape, this]

/-- A written value is cut as before. -/
theorem Kept.fit {s t : State} (h : Kept s t) (p : Sig) (v : SigVal) : t.fit p v = s.fit p v := by
  have hq := h.ports
  unfold portStatics at hq
  obtain _ | k := p
  · rfl
  · have := congrArg (fun l => l[k]?.map fun p => p.width) hq
    simp only [List.getElem?_map, Option.map_map, Function.comp_def] at this
    simp only [State.fit, this]

/-- The binding list stays well formed under what every signal write keeps (10_state.md R34). -/
theorem Kept.bindingsOk {s t : State} (h : Kept s t) (b : BindingsOk s) : BindingsOk t :=
  ⟨by
    rw [h.bindings]
    intro x hx
    rw [h.dir, h.dir, h.shape, h.shape]
    exact b.ends x hx, by rw [h.bindings]; exact b.once⟩

end Sys2Proof.Machine
end

