-- ==== Sys2Proof/Laws/Bodies.lean ====
section
/-!
SUPPORT. Which channels a signal write can touch while the callbacks of other devices do nothing: not one that cannot run
there, and of any channel neither TRIGGER nor a previous value.
-/

namespace Sys2Proof.Machine

theorem Channel.SameBody.refl (c : Channel) : Channel.SameBody c c := ⟨rfl, rfl, rfl, rfl, rfl, rfl, rfl, rfl⟩

theorem Channel.SameBody.trans {a b c : Channel} (h : a.SameBody b) (k : b.SameBody c) : a.SameBody c :=
  ⟨h.ctrl.trans k.ctrl, h.src.trans k.src, h.dst.trans k.dst, h.size.trans k.size, h.trigger.trans k.trigger,
    h.st.trans k.st, h.wk.trans k.wk, h.active.trans k.active⟩

/-! ### A channel that cannot run -/

/-- Channel n, the parameters and the bindings are as they were. -/
structure BodyKept (n : Chan) (s t : State) : Prop where
  body : Channel.SameBody (t.chan n) (s.chan n)
  params : t.params = s.params
  bindings : t.bindings = s.bindings

theorem BodyKept.refl (n : Chan) (s : State) : BodyKept n s s := ⟨Channel.SameBody.refl _, rfl, rfl⟩

theorem BodyKept.trans {n : Chan} {s t u : State} (h : BodyKept n s t) (k : BodyKept n t u) : BodyKept n s u :=
  ⟨Channel.SameBody.trans k.body h.body, k.params.trans h.params, k.bindings.trans h.bindings⟩

/-- A change of another channel. -/
theorem BodyKept.other {n m : Chan} (h : m ≠ n) (s : State) (f : Channel → Channel) : BodyKept n s (s.modChan m f) :=
  ⟨by rw [State.modChan_chan, if_neg h]; exact Channel.SameBody.refl _, rfl, rfl⟩

theorem BodyKept.setSig (n : Chan) (s : State) (p : Sig) (v : SigVal) : BodyKept n s (s.setSig p v) := by
  refine ⟨?_, by simp, by simp⟩
  obtain (k | ⟨m, i⟩ | m | m) | k := p
  · exact Channel.SameBody.refl _
  all_goals
    try (
      unfold State.setSig
      rw [State.modChan_chan]
      split
      · next hm => subst hm; exact ⟨rfl, rfl, rfl, rfl, rfl, rfl, rfl, rfl⟩
      · exact Channel.SameBody.refl _)
  exact Channel.SameBody.refl _

/-- While other devices' callbacks do nothing, a signal write leaves a channel alone that cannot run in the states that meet
`I` (43_dma_transfer.md R109, R113, R116). -/
theorem body_stable (n : Chan) (I : State → Prop) (hI : ∀ s t, BodyKept n s t → I s → I t)
    (hs : ∀ s, I s → s.params.envReact = [])
    (hm : ∀ {s m}, I s → (s.chan m).active = false → s.en m = true → s.test m = false ∨ False → m ≠ n) :
    Stable I (fun m => m ≠ n) False (BodyKept n) (fun _ => BodyKept n) where
  refl := BodyKept.refl n
  trans := BodyKept.trans
  bindings h := h.bindings
  bus h := by
    obtain ⟨as, d, ws, es, rfl⟩ := h
    exact ⟨Channel.SameBody.refl _, rfl, rfl⟩
  counters s m b c h := by cases b <;> (unfold setCounters; exact BodyKept.other h s _)
  loadWorking s m h := BodyKept.other h s _
  configError s m h := BodyKept.other h s _
  requested s m h := BodyKept.other h s _
  completed s m h := BodyKept.other h s _
  passEnded s m h := BodyKept.other h s _
  clearEnable s m h := BodyKept.other h s _
  invocation := by
    intro s t u m h _ h1 _ h2
    exact ((BodyKept.other h s _).trans (h1.trans h2)).trans (BodyKept.other h _ _)
  inner h := h
  innerTrans := BodyKept.trans
  innerBindings h := h.bindings
  setSig s o i v _ := BodyKept.setSig n s i v
  output := by
    intro s t p v _ _ h
    have := BodyKept.setSig n s p v
    exact ⟨Channel.SameBody.trans h.body this.body, h.params.trans this.params, h.bindings.trans this.bindings⟩
  markRefused := False.elim
  commit := False.elim
  arm := False.elim
  ctrlWrite := False.elim
  triggerWrite := False.elim
  inv := hI _ _
  invInner := hI _ _
  invStart := fun h _ => hI _ _ (BodyKept.other h _ _)
  invOutput := by
    intro s p v _ _
    have := BodyKept.setSig n s p v
    exact hI _ _ ⟨this.body, this.params, this.bindings⟩
  invCtrl := False.elim
  invTrigger := False.elim
  mayRun := hm
  silent h := .inr (hs _ h)

/-! ### What a program wrote -/

/-- TRIGGER and the previous values of a channel are as they were. -/
structure Channel.SameWritten (c d : Channel) : Prop where
  trigger : d.trigger = c.trigger
  ctrl : d.ctrl.prev = c.ctrl.prev
  src : d.src.prev = c.src.prev
  dst : d.dst.prev = c.dst.prev
  size : d.size.prev = c.size.prev

theorem Channel.SameWritten.refl (c : Channel) : Channel.SameWritten c c := ⟨rfl, rfl, rfl, rfl, rfl⟩

theorem Channel.SameWritten.trans {a b c : Channel} (h : a.SameWritten b) (k : b.SameWritten c) : a.SameWritten c :=
  ⟨k.trigger.trans h.trigger, k.ctrl.trans h.ctrl, k.src.trans h.src, k.dst.trans h.dst, k.size.trans h.size⟩

/-- CFG, TRIGGER and every previous value are as they were, and so are the parameters and the bindings. -/
structure WrittenKept (s t : State) : Prop where
  cfg : t.cfg = s.cfg
  chan : ∀ n, Channel.SameWritten (s.chan n) (t.chan n)
  params : t.params = s.params
  bindings : t.bindings = s.bindings

theorem WrittenKept.refl (s : State) : WrittenKept s s := ⟨rfl, fun _ => Channel.SameWritten.refl _, rfl, rfl⟩

theorem WrittenKept.trans {s t u : State} (h : WrittenKept s t) (k : WrittenKept t u) : WrittenKept s u :=
  ⟨k.cfg.trans h.cfg, fun n => (h.chan n).trans (k.chan n), k.params.trans h.params, k.bindings.trans h.bindings⟩

theorem WrittenKept.modChan (s : State) (m : Chan) (f : Channel → Channel)
    (h : Channel.SameWritten (s.chan m) (f (s.chan m))) : WrittenKept s (s.modChan m f) := by
  refine ⟨rfl, fun n => ?_, rfl, rfl⟩
  rw [State.modChan_chan]
  split
  · next hm => subst hm; exact h
  · exact Channel.SameWritten.refl _

theorem WrittenKept.setSig (s : State) (p : Sig) (v : SigVal) : WrittenKept s (s.setSig p v) := by
  obtain (k | ⟨m, i⟩ | m | m) | k := p
  · exact ⟨rfl, fun _ => Channel.SameWritten.refl _, rfl, rfl⟩
  · unfold State.setSig; exact WrittenKept.modChan s m _ ⟨rfl, rfl, rfl, rfl, rfl⟩
  · unfold State.setSig; exact WrittenKept.modChan s m _ ⟨rfl, rfl, rfl, rfl, rfl⟩
  · unfold State.setSig; exact WrittenKept.modChan s m _ ⟨rfl, rfl, rfl, rfl, rfl⟩
  · exact ⟨rfl, fun _ => Channel.SameWritten.refl _, rfl, rfl⟩

/-- While other devices' callbacks do nothing, a signal write leaves what programs wrote (10_state.md R26). -/
theorem written_stable : Stable (fun s => s.params.envReact = []) (fun _ => True) False WrittenKept
    (fun _ => WrittenKept) where
  refl := WrittenKept.refl
  trans := WrittenKept.trans
  bindings h := h.bindings
  bus h := by
    obtain ⟨as, d, ws, es, rfl⟩ := h
    exact ⟨rfl, fun _ => Channel.SameWritten.refl _, rfl, rfl⟩
  counters s m b c _ := by
    cases b <;> (unfold setCounters; exact WrittenKept.modChan s m _ ⟨rfl, rfl, rfl, rfl, rfl⟩)
  loadWorking s m _ := WrittenKept.modChan s m _ ⟨rfl, rfl, rfl, rfl, rfl⟩
  configError s m _ := WrittenKept.modChan s m _ ⟨rfl, rfl, rfl, rfl, rfl⟩
  requested s m _ := WrittenKept.modChan s m _ ⟨rfl, rfl, rfl, rfl, rfl⟩
  completed s m _ := WrittenKept.modChan s m _ ⟨rfl, rfl, rfl, rfl, rfl⟩
  passEnded s m _ := WrittenKept.modChan s m _ ⟨rfl, rfl, rfl, rfl, rfl⟩
  clearEnable s m _ := WrittenKept.modChan s m _ ⟨rfl, rfl, rfl, rfl, rfl⟩
  invocation := by
    intro s t u m _ _ h1 _ h2
    have h0 := WrittenKept.modChan s m (fun ch => { ch with active := true, st := Flags.running })
      ⟨rfl, rfl, rfl, rfl, rfl⟩
    exact (h0.trans (h1.trans h2)).trans
      (WrittenKept.modChan _ m (fun ch => { ch with active := false }) ⟨rfl, rfl, rfl, rfl, rfl⟩)
  inner h := h
  innerTrans := WrittenKept.trans
  innerBindings h := h.bindings
  setSig s o i v _ := WrittenKept.setSig s i v
  output := by
    intro s t p v _ _ h
    have := WrittenKept.setSig s p v
    exact ⟨h.cfg.trans this.cfg, fun n => (this.chan n).trans (h.chan n), h.params.trans this.params,
      h.bindings.trans this.bindings⟩
  markRefused := False.elim
  commit := False.elim
  arm := False.elim
  ctrlWrite := False.elim
  triggerWrite := False.elim
  inv h k := by rw [h.params, k]
  invInner h k := by rw [h.params, k]
  invStart := fun _ _ h => h
  invOutput := by intro s p v _ _ h; simpa using h
  invCtrl := False.elim
  invTrigger := False.elim
  silent h := .inr h

end Sys2Proof.Machine
end

