-- ==== Sys2Proof/Laws/Encoding.lean ====
section
/-!
SUPPORT. The decoder reads back what the encoder writes: one lemma per operand form, and one for the descriptor.
-/

namespace Sys2Proof

/-! ### Words and their bytes -/

theorem wordOfBytes_wordBytes (v : BitVec 32) :
    wordOfBytes (v.extractLsb' 0 8) (v.extractLsb' 8 8) (v.extractLsb' 16 8) (v.extractLsb' 24 8) = v := by
  have h1 : v.extractLsb' 24 8 ++ v.extractLsb' 16 8 = v.extractLsb' 16 16 := by
    rw [BitVec.extractLsb'_append_extractLsb'_eq_extractLsb' (by rfl)]
  have h2 : v.extractLsb' 16 16 ++ v.extractLsb' 8 8 = v.extractLsb' 8 24 := by
    rw [BitVec.extractLsb'_append_extractLsb'_eq_extractLsb' (by rfl)]
  have h3 : v.extractLsb' 8 24 ++ v.extractLsb' 0 8 = v.extractLsb' 0 32 := by
    rw [BitVec.extractLsb'_append_extractLsb'_eq_extractLsb' (by rfl)]
  rw [wordOfBytes, h1, h2, h3, BitVec.extractLsb'_eq_self]

theorem append_halves (v : BitVec 16) : (v.extractLsb' 8 8 ++ v.extractLsb' 0 8 : BitVec 16) = v := by
  rw [BitVec.extractLsb'_append_extractLsb'_eq_extractLsb' (by rfl)]
  simp

theorem append_words (v : BitVec 64) : (v.extractLsb' 32 32 ++ v.extractLsb' 0 32 : BitVec 64) = v := by
  rw [BitVec.extractLsb'_append_extractLsb'_eq_extractLsb' (by rfl)]
  simp

@[simp] theorem takeWord_wordBytes (v : BitVec 32) (rest : List Byte) :
    takeWord (wordBytes v ++ rest) = some (v, rest) := by
  simp only [wordBytes, List.cons_append, List.nil_append, takeWord, wordOfBytes_wordBytes]

@[simp] theorem takeDouble_doubleBytes (v : BitVec 64) (rest : List Byte) :
    takeDouble (doubleBytes v ++ rest) = some (v, rest) := by
  simp [takeDouble, doubleBytes, List.append_assoc, append_words]

@[simp] theorem takeDatum_datumBytes (bo : ByteOrder) (v : Word) (rest : List Byte) :
    takeDatum bo (datumBytes bo v ++ rest) = some (v, rest) := by
  cases bo
  · simp only [datumBytes, wordBytes, List.cons_append, List.nil_append, takeDatum, wordOfDatum, wordOfBytes_wordBytes]
  · simp only [datumBytes, wordBytes, List.reverse_cons, List.reverse_nil, List.cons_append, List.nil_append, takeDatum,
      wordOfDatum, wordOfBytes_wordBytes]

@[simp] theorem takeBool_boolByte (b : Bool) (rest : List Byte) : takeBool (boolByte b ++ rest) = some (b, rest) := by
  cases b <;> rfl

@[simp] theorem takeTag_tagBytes (t : Option Tag) (rest : List Byte) : takeTag? (tagBytes t ++ rest) = some (t, rest) := by
  cases t with
  | none => rfl
  | some t => simp [takeTag?, tagBytes, List.append_assoc]

/-! ### References, modes, widths, cells -/

theorem pinOfWord_trig : ∀ (n : Chan) (i : Source), pinOfWord (Pin.trig n i).word = some (.trig n i) := by decide

theorem pinOfWord_done : ∀ n : Chan, pinOfWord (Pin.done n).word = some (.done n) := by decide

theorem pinOfWord_reqo : ∀ n : Chan, pinOfWord (Pin.reqo n).word = some (.reqo n) := by decide

theorem pinOfWord_ext {k : Nat} (h : k < 2 ^ 30) : pinOfWord (Pin.ext k).word = some (.ext k) := by
  have h32 : k % 2 ^ 32 = k := Nat.mod_eq_of_lt (by omega)
  have hk : ((BitVec.ofNat 32 k).extractLsb' 30 2).toNat = 0 := by
    simp only [BitVec.extractLsb'_toNat, BitVec.toNat_ofNat, h32, Nat.shiftRight_eq_div_pow]
    omega
  have hi : ((BitVec.ofNat 32 k).extractLsb' 0 30).toNat = k := by
    simp only [BitVec.extractLsb'_toNat, BitVec.toNat_ofNat, h32, Nat.shiftRight_zero]
    exact Nat.mod_eq_of_lt h
  simp only [pinOfWord, Pin.word, hk, hi]

theorem pinOfWord_word (p : Pin) (h : p.wellFormed = true) : pinOfWord p.word = some p := by
  cases p with
  | ext k => exact pinOfWord_ext (by simpa [Pin.wellFormed] using h)
  | trig n i => exact pinOfWord_trig n i
  | done n => exact pinOfWord_done n
  | reqo n => exact pinOfWord_reqo n

theorem takePin_word (p : Pin) (rest : List Byte) (h : p.wellFormed = true) :
    takePin (wordBytes p.word ++ rest) = some (p, rest) := by
  simp [takePin, pinOfWord_word p h]

theorem takeSig_bytes (x : Sig) (rest : List Byte) (h : x.wellFormed = true) :
    takeSig (x.bytes ++ rest) = some (x, rest) := by
  cases x with
  | pin p => simp [takeSig, Sig.bytes, List.append_assoc, takePin_word p rest h]
  | port k =>
    have hk : k < 4294967296 := by simpa [Sig.wellFormed] using h
    simp [takeSig, Sig.bytes, List.append_assoc, Nat.mod_eq_of_lt hk]

theorem takePinMode_byte (m : PinMode) (rest : List Byte) : takePinMode (m.byte :: rest) = some (m, rest) := by
  cases m <;> rfl

theorem takePortMode_bytes (m : PortMode) (rest : List Byte) : takePortMode (m.bytes ++ rest) = some (m, rest) := by
  cases m <;> rfl

theorem takePerm_byte (p : Perm) (rest : List Byte) : takePerm (p.byte :: rest) = some (p, rest) := by
  cases p <;> rfl

theorem takeWidth_byte {w : Nat} (rest : List Byte) (h1 : 1 ≤ w) (h2 : w ≤ 64) :
    takeWidth (BitVec.ofNat 8 (w - 1) :: rest) = some (w, rest) := by
  have hm : (w - 1) % 256 = w - 1 := Nat.mod_eq_of_lt (by omega)
  simp only [takeWidth, takeByte, Option.bind_eq_bind, Option.bind_some, BitVec.toNat_ofNat, hm]
  rw [if_pos (by omega), Nat.sub_add_cancel h1]

theorem takeCellInit_bytes (c : CellInit) (rest : List Byte) : takeCellInit (c.bytes ++ rest) = some (c, rest) := by
  cases c <;> simp [takeCellInit, CellInit.bytes, List.append_assoc]

/-! ### Descriptors -/

/-- The decoder on a descriptor that names a row: what its body reads. -/
theorem decode_descriptor (bo : ByteOrder) (d : BitVec 16) (bs : List Byte) (i : Instr) (rest : List Byte)
    (hn : namesRow d = true) (hb : decodeBody bo d bs = some (i, rest)) :
    decode bo (descriptorBytes d ++ bs) = .ok (i, rest) := by
  simp only [descriptorBytes, List.cons_append, List.nil_append, decode, append_halves, hn, hb, if_true]

/-- A register's descriptor of either class. -/
theorem access_fields (d : Access) : ∀ r : RegId,
    namesRow (accessDescriptor d r.offset) = true ∧
    ((accessDescriptor d r.offset).extractLsb' 12 4).toNat = (match d with | .read => 0 | .write => 1) ∧
    regAt ((accessDescriptor d r.offset).extractLsb' 0 9) = some r := by
  rintro (n | n | n | n | n | n | n) <;> cases d <;> revert n <;> decide

theorem decodeBody_read (bo : ByteOrder) (r : RegId) (rest : List Byte) :
    decodeBody bo (accessDescriptor .read r.offset) rest = some (readOf r, rest) := by
  obtain ⟨-, hc, hr⟩ := access_fields .read r
  unfold decodeBody
  simp only [hc, decodeRead, hr]

theorem decodeBody_write (bo : ByteOrder) (r : RegId) (v : Word) (rest : List Byte) :
    decodeBody bo (accessDescriptor .write r.offset) (datumBytes bo v ++ rest) = some (writeOf v r, rest) := by
  obtain ⟨-, hc, hr⟩ := access_fields .write r
  unfold decodeBody
  simp only [hc, decodeWrite, hr, takeDatum_datumBytes, Option.bind_eq_bind, Option.bind_some]

/-- A reserved offset's descriptor decodes to its reserved row, read or write. -/
theorem decodeBody_reserved (bo : ByteOrder) (d : Access) (dd : BitVec 16) (i : Instr) (rest : List Byte)
    (hc : (dd.extractLsb' 12 4).toNat = (match d with | .read => 0 | .write => 1))
    (hr : regAt (dd.extractLsb' 0 9) = none) (hi : reservedAt d (dd.extractLsb' 0 9) = i) :
    decodeBody bo dd rest = some (i, rest) := by
  unfold decodeBody
  cases d <;> simp only at hc <;> simp only [hc, decodeRead, decodeWrite, hr, hi]

/-- The classes 2 to 9 read their operands. -/
theorem decodeBody_operands {cls : Nat} (bo : ByteOrder) (d : BitVec 16) (bs : List Byte)
    (h : (d.extractLsb' 12 4).toNat = cls) (h2 : 2 ≤ cls) (h9 : cls ≤ 9) :
    decodeBody bo d bs = decodeOperands cls bs := by
  subst h
  unfold decodeBody
  split <;> first | omega | rfl

/-- A concatenation's value. -/
theorem toNat_append_eq {w v : Nat} (a : BitVec w) (b : BitVec v) : (a ++ b).toNat = a.toNat * 2 ^ v + b.toNat := by
  rw [BitVec.toNat_append, ← Nat.shiftLeft_add_eq_or_of_lt b.isLt, Nat.shiftLeft_eq]

/-- The fields of a reserved class's descriptor. -/
theorem rsvCls10_fields (rest : BitVec 13) :
    (((0b101#3 ++ rest).extractLsb' 12 4).toNat = 10 ∨ ((0b101#3 ++ rest).extractLsb' 12 4).toNat = 11) ∧
      (0b101#3 ++ rest).extractLsb' 0 13 = rest := by
  refine ⟨?_, BitVec.extractLsb'_append_eq_right⟩
  have := rest.isLt
  rw [BitVec.extractLsb'_toNat, toNat_append_eq, Nat.shiftRight_eq_div_pow]
  simp only [BitVec.toNat_ofNat]
  omega

theorem rsvCls12_fields (rest : BitVec 14) :
    12 ≤ ((0b11#2 ++ rest).extractLsb' 12 4).toNat ∧ ((0b11#2 ++ rest).extractLsb' 12 4).toNat < 16 ∧
      (0b11#2 ++ rest).extractLsb' 0 14 = rest := by
  refine ⟨?_, ((0b11#2 ++ rest).extractLsb' 12 4).isLt, BitVec.extractLsb'_append_eq_right⟩
  have := rest.isLt
  rw [BitVec.extractLsb'_toNat, toNat_append_eq, Nat.shiftRight_eq_div_pow]
  simp only [BitVec.toNat_ofNat]
  omega

end Sys2Proof
end

