-- ==== Sys2Proof/Laws/Step.lean ====
section
/-!
SUPPORT. What a step can do, said once: nothing when no packet is pending; else, with the packet taken, the fault of a
register access that cannot be accepted, the refusal of a packet that names no operation, or exec of an operation.
-/

namespace Sys2Proof.Machine

/-- Every way a step with a packet pending can go. -/
inductive StepOf (t : State) : Result → Prop where
  /-- the access is rejected -/
  | rejected (d : BitVec 16) (width : Nat) : StepOf t (badAccess d width t)
  /-- the packet names no operation -/
  | nameless (r : Refusal) (h : r = .truncatedDescriptor t.markRefused ∨ (∃ d, r = .reservedDescriptor d t.markRefused) ∨
      ∃ d, r = .malformedOperands d t.markRefused) : StepOf t (.refused r)
  /-- the operation runs -/
  | ran (i : Instr) : StepOf t (exec i t)

/-- What a step does with what the fetch found. -/
def runFetched (s : State) : Fetched → Result
  | .idle => .next s
  | .stop o => o
  | .op i t => exec i t

theorem step_eq (s : State) : step s = runFetched s (fetch s) := by
  simp only [step]
  cases fetch s <;> rfl

/-- With no packet pending a step changes nothing. -/
theorem step_idle {s : State} (h : s.pending = []) : step s = .next s := by simp [step, fetch, h]

/-- A packet that names no operation. -/
theorem refusePacket_of (e : DecodeError) (t : State) : StepOf t (refusePacket e t) := by
  cases e with
  | truncatedDescriptor => exact .nameless _ (.inl rfl)
  | reservedDescriptor d => exact .nameless _ (.inr (.inl ⟨d, rfl⟩))
  | malformedOperands d => exact .nameless _ (.inr (.inr ⟨d, rfl⟩))

/-- A packet decoded. -/
theorem fetchRow_of (s : State) (bytes : List Byte) (t : State) : StepOf t (runFetched s (fetchRow bytes t)) := by
  simp only [fetchRow]
  cases decode t.params.regByteOrder bytes with
  | error e => exact refusePacket_of e t
  | ok r => exact .ran r.1

/-- A step with a packet pending. -/
theorem step_of {s : State} {p : Issued} {rest : List Issued} (h : s.pending = p :: rest) :
    StepOf { s with pending := rest } (step s) := by
  rw [step_eq]
  simp only [fetch, h]
  generalize { s with pending := rest } = t
  unfold fetchPacket
  split
  · dsimp only
    split
    · exact .rejected _ _
    · split
      · exact .rejected _ _
      · exact fetchRow_of s _ t
  · exact fetchRow_of s _ t

/-- A step that answers a next state: nothing was pending, or an operation ran. -/
theorem step_next {s t : State} (h : step s = .next t) :
    (s.pending = [] ∧ t = s) ∨
      ∃ p rest i, s.pending = p :: rest ∧ exec i { s with pending := rest } = .next t := by
  cases hp : s.pending with
  | nil => rw [step_idle hp] at h; cases h; exact .inl ⟨rfl, rfl⟩
  | cons p rest =>
    generalize ho : step s = o at h
    have hs := step_of hp
    rw [ho] at hs
    cases hs with
    | rejected => cases h
    | nameless => cases h
    | ran i => exact .inr ⟨p, rest, i, rfl, h⟩

end Sys2Proof.Machine
end

