-- ==== Sys2Proof/Laws/Fetch.lean ====
section
/-!
SUPPORT. What the fetch and the decoder agree on: a descriptor of a register access decodes to a register access, with any
register map; and the row of an offset that holds no register keeps the access's direction and offset.
-/

namespace Sys2Proof.Machine

/-- The class of a register access. -/
theorem accessClass (c : BitVec 4) (h : c.toNat ≤ 1) : c = 0 ∨ c = 1 := by revert h; revert c; decide

/-- The row of an offset that holds no register: its direction, its offset, and that it is a register access. -/
theorem reservedAt_access (d : Access) {off : BitVec 9} (h : regAt off = none) :
    accessOf (reservedAt d off).descriptor = d ∧ offsetOf (reservedAt d off).descriptor = off.toNat ∧
      isAccess (reservedAt d off).descriptor = true := by
  have key : ∀ off : BitVec 9, regAt off = none → ∀ d ∈ [Access.read, Access.write],
      accessOf (reservedAt d off).descriptor = d ∧ offsetOf (reservedAt d off).descriptor = off.toNat ∧
        isAccess (reservedAt d off).descriptor = true := by decide +kernel
  exact key off h d (by cases d <;> simp)

/-- A reserved row's meaning is the rejection of its access. -/
theorem exec_reservedAt (d : Access) (off : BitVec 9) (s : State) :
    exec (reservedAt d off) s = badAccess (reservedAt d off).descriptor 4 s := by
  generalize h : reservedAt d off = i
  unfold reservedAt at h
  dsimp only at h
  repeat' split at h
  all_goals subst h; rfl

/-- The descriptor of an access to a register is that of a register access. -/
theorem isAccess_offset (d : Access) (r : RegId) : isAccess (accessDescriptor d r.offset) = true := by
  cases d <;> cases r <;> (rename_i n; revert n; decide)

/-- The row of a register access is a register access. -/
theorem rowDescriptor_access {m : RegMap} {d e : BitVec 16} (h : rowDescriptor m d = some e) (ha : isAccess d = true) :
    isAccess e = true := by
  simp only [rowDescriptor, ha, if_true] at h
  split at h
  · cases h
    exact isAccess_offset _ _
  · split at h <;> cases h
    exact ha

theorem isAccess_readOf (r : RegId) : isAccess (readOf r).descriptor = true := by
  cases r <;> exact isAccess_offset .read _

theorem isAccess_writeOf (v : Word) (r : RegId) : isAccess (writeOf v r).descriptor = true := by
  cases r <;> exact isAccess_offset .write _

/-- A descriptor of a register access decodes to a register access. -/
theorem decode_access {bo : ByteOrder} {d : BitVec 16} {bs more : List Byte} {i : Instr} (ha : isAccess d = true)
    (h : decode bo (descriptorBytes d ++ bs) = .ok (i, more)) : isAccess i.descriptor = true := by
  simp only [isAccess, Bool.and_eq_true, decide_eq_true_eq] at ha
  simp only [descriptorBytes, List.cons_append, List.nil_append, decode, append_halves, namesRow, ha.1] at h
  rcases accessClass _ ha.2 with hc | hc
  · cases hr : regAt (d.extractLsb' 0 9) with
    | none =>
      simp [hc, decodeBody, decodeRead, hr] at h
      obtain ⟨rfl, -⟩ := h
      exact (reservedAt_access _ hr).2.2
    | some r =>
      simp [hc, decodeBody, decodeRead, hr] at h
      obtain ⟨rfl, -⟩ := h
      exact isAccess_readOf r
  · cases hr : regAt (d.extractLsb' 0 9) with
    | none =>
      simp [hc, decodeBody, decodeWrite, hr] at h
      obtain ⟨rfl, -⟩ := h
      exact (reservedAt_access _ hr).2.2
    | some r =>
      cases hb : takeDatum bo bs with
      | none => simp [hc, decodeBody, decodeWrite, hr, hb] at h
      | some x =>
        simp [hc, decodeBody, decodeWrite, hr, hb] at h
        obtain ⟨rfl, -⟩ := h
        exact isAccess_writeOf _ r

end Sys2Proof.Machine
end

