-- ==== Sys2Proof/Laws/PerInstr.lean ====
section
/-!
SUPPORT. The per-instruction family RoundTrip: the decoder reads a well-formed operation back from its own packet, with
every operand, in either register byte order, whatever bytes follow (30_encoding.md R60, R62, R73).
-/

namespace Sys2Proof.Laws.RoundTrip

/-- Decoding the packet of a well-formed operation gives it back, and leaves the bytes behind it. -/
def Statement (i : Instr) : Prop :=
  ∀ (bo : ByteOrder) (rest : List Byte), i.wellFormed = true → decode bo (encode bo i ++ rest) = .ok (i, rest)

theorem of_body {i : Instr} (hn : namesRow i.descriptor = true)
    (hb : ∀ bo rest, i.wellFormed = true → decodeBody bo i.descriptor (i.operandBytes bo ++ rest) = some (i, rest)) :
    Statement i := by
  intro bo rest h
  rw [encode, List.append_assoc]
  exact decode_descriptor bo _ _ _ _ hn (hb bo rest h)

theorem of_read (r : RegId) (i : Instr) (hd : i.descriptor = accessDescriptor .read r.offset)
    (ho : ∀ bo, i.operandBytes bo = []) (hi : readOf r = i) : Statement i := by
  refine of_body (by rw [hd]; exact (access_fields .read r).1) fun bo rest _ => ?_
  rw [hd, ho, List.nil_append, decodeBody_read, hi]

theorem of_write (r : RegId) (v : Word) (i : Instr) (hd : i.descriptor = accessDescriptor .write r.offset)
    (ho : ∀ bo, i.operandBytes bo = datumBytes bo v) (hi : writeOf v r = i) : Statement i := by
  refine of_body (by rw [hd]; exact (access_fields .write r).1) fun bo rest _ => ?_
  rw [hd, ho, decodeBody_write, hi]

theorem rdCtrl (n : Chan) : Statement (.rdCtrl n) := of_read (.ctrl n) _ rfl (fun _ => rfl) rfl
theorem wrCtrl (n : Chan) (v : Word) : Statement (.wrCtrl n v) := of_write (.ctrl n) v _ rfl (fun _ => rfl) rfl
theorem rdSrc (n : Chan) : Statement (.rdSrc n) := of_read (.src n) _ rfl (fun _ => rfl) rfl
theorem wrSrc (n : Chan) (v : Word) : Statement (.wrSrc n v) := of_write (.src n) v _ rfl (fun _ => rfl) rfl
theorem rdDst (n : Chan) : Statement (.rdDst n) := of_read (.dst n) _ rfl (fun _ => rfl) rfl
theorem wrDst (n : Chan) (v : Word) : Statement (.wrDst n v) := of_write (.dst n) v _ rfl (fun _ => rfl) rfl
theorem rdSize (n : Chan) : Statement (.rdSize n) := of_read (.size n) _ rfl (fun _ => rfl) rfl
theorem wrSize (n : Chan) (v : Word) : Statement (.wrSize n v) := of_write (.size n) v _ rfl (fun _ => rfl) rfl
theorem rdTrigger (n : Chan) : Statement (.rdTrigger n) := of_read (.trigger n) _ rfl (fun _ => rfl) rfl
theorem wrTrigger (n : Chan) (v : Word) : Statement (.wrTrigger n v) := of_write (.trigger n) v _ rfl (fun _ => rfl) rfl
theorem rdCfg (k : Pair) : Statement (.rdCfg k) := of_read (.cfg k) _ rfl (fun _ => rfl) rfl
theorem wrCfg (k : Pair) (v : Word) : Statement (.wrCfg k v) := of_write (.cfg k) v _ rfl (fun _ => rfl) rfl
theorem rdStatus (k : Pair) : Statement (.rdStatus k) := of_read (.status k) _ rfl (fun _ => rfl) rfl
theorem wrStatus (k : Pair) (v : Word) : Statement (.wrStatus k v) := of_write (.status k) v _ rfl (fun _ => rfl) rfl

theorem pinWrite (p : Pin) (b : Bool) : Statement (.pinWrite p b) := by
  refine of_body (by simp only [Instr.descriptor]; decide) fun bo rest h => ?_
  rw [decodeBody_operands (cls := 2) _ _ _ (by simp only [Instr.descriptor]; decide) (by decide) (by decide)]
  simp [decodeOperands, Instr.operandBytes, List.append_assoc, takePin_word p _ h]

theorem portWrite (k : Nat) (v : SigVal) : Statement (.portWrite k v) := by
  refine of_body (by simp only [Instr.descriptor]; decide) fun bo rest h => ?_
  rw [decodeBody_operands (cls := 3) _ _ _ (by simp only [Instr.descriptor]; decide) (by decide) (by decide)]
  have hk : k < 4294967296 := by simpa [Instr.wellFormed] using h
  simp [decodeOperands, Instr.operandBytes, List.append_assoc, Nat.mod_eq_of_lt hk]

theorem bind (a b : Sig) : Statement (.bind a b) := by
  refine of_body (by simp only [Instr.descriptor]; decide) fun bo rest h => ?_
  rw [decodeBody_operands (cls := 4) _ _ _ (by simp only [Instr.descriptor]; decide) (by decide) (by decide)]
  simp only [Instr.wellFormed, Bool.and_eq_true] at h
  simp [decodeOperands, Instr.operandBytes, List.append_assoc, takeSig_bytes a _ h.1, takeSig_bytes b _ h.2]

theorem teardown : Statement .teardown := of_body (by decide) fun _ _ _ => rfl

theorem reset : Statement .reset := of_body (by decide) fun _ _ _ => rfl

theorem createPin (name : Tag) (mode : PinMode) (cb ctx : Option Tag) : Statement (.createPin name mode cb ctx) := by
  refine of_body (by simp only [Instr.descriptor]; decide) fun bo rest h => ?_
  rw [decodeBody_operands (cls := 7) _ _ _ (by simp only [Instr.descriptor]; decide) (by decide) (by decide)]
  simp [decodeOperands, Instr.operandBytes, List.append_assoc, takePinMode_byte]

theorem createPort (name : Tag) (mode : PortMode) (width : Nat) (cb ctx : Option Tag) :
    Statement (.createPort name mode width cb ctx) := by
  refine of_body (by simp only [Instr.descriptor]; decide) fun bo rest h => ?_
  rw [decodeBody_operands (cls := 8) _ _ _ (by simp only [Instr.descriptor]; decide) (by decide) (by decide)]
  simp only [Instr.wellFormed, Bool.and_eq_true, decide_eq_true_eq] at h
  simp [decodeOperands, Instr.operandBytes, List.append_assoc, takePortMode_bytes, takeWidth_byte _ h.1 h.2]

theorem createReg (name : Tag) (offset : BitVec 32) (perm : Perm) (init : CellInit) (cb : Option Tag) :
    Statement (.createReg name offset perm init cb) := by
  refine of_body (by simp only [Instr.descriptor]; decide) fun bo rest h => ?_
  rw [decodeBody_operands (cls := 9) _ _ _ (by simp only [Instr.descriptor]; decide) (by decide) (by decide)]
  simp [decodeOperands, Instr.operandBytes, List.append_assoc, takePerm_byte, takeCellInit_bytes]

/-- A reserved offset: the four facts about its descriptor. -/
theorem of_reserved (d : Access) (i : Instr) (ho : ∀ bo, i.operandBytes bo = [])
    (h : namesRow i.descriptor = true ∧
      (i.descriptor.extractLsb' 12 4).toNat = (match d with | .read => 0 | .write => 1) ∧
      regAt (i.descriptor.extractLsb' 0 9) = none ∧ reservedAt d (i.descriptor.extractLsb' 0 9) = i) : Statement i := by
  refine of_body h.1 fun bo rest _ => ?_
  rw [ho, List.nil_append]
  exact decodeBody_reserved bo d _ _ _ h.2.1 h.2.2.1 h.2.2.2

theorem rsvChOff14 (d : Access) (n : Chan) : Statement (.rsvChOff14 d n) :=
  of_reserved d _ (fun _ => rfl) (by cases d <;> revert n <;> decide)

theorem rsvChOff18 (d : Access) (n : Chan) (hi : Bool) : Statement (.rsvChOff18 d n hi) :=
  of_reserved d _ (fun _ => rfl) (by cases d <;> cases hi <;> revert n <;> decide)

theorem rsvOff120 (d : Access) (m : Fin 8) : Statement (.rsvOff120 d m) :=
  of_reserved d _ (fun _ => rfl) (by cases d <;> revert m <;> decide)

theorem rsvOff140 (d : Access) (m : Fin 16) : Statement (.rsvOff140 d m) :=
  of_reserved d _ (fun _ => rfl) (by cases d <;> revert m <;> decide)

theorem rsvOff180 (d : Access) (m : Fin 32) : Statement (.rsvOff180 d m) :=
  of_reserved d _ (fun _ => rfl) (by cases d <;> revert m <;> decide)

set_option maxRecDepth 4000 in
theorem rsvMisalignedB0 (d : Access) (m : Fin 256) : Statement (.rsvMisalignedB0 d m) :=
  of_reserved d _ (fun _ => rfl) (by cases d <;> revert m <;> decide)

set_option maxRecDepth 4000 in
theorem rsvMisalignedB1 (d : Access) (m : Fin 128) : Statement (.rsvMisalignedB1 d m) :=
  of_reserved d _ (fun _ => rfl) (by cases d <;> revert m <;> decide)

theorem rsvCls10 (rest : BitVec 13) : Statement (.rsvCls10 rest) := by
  obtain ⟨hc, hr⟩ := rsvCls10_fields rest
  refine of_body ?_ fun bo bs _ => ?_
  · simp only [namesRow, Instr.descriptor]
    rcases hc with h | h <;> simp [h]
  · simp only [decodeBody, Instr.descriptor, Instr.operandBytes, List.nil_append]
    rcases hc with h | h <;> simp only [h, hr]

theorem rsvCls12 (rest : BitVec 14) : Statement (.rsvCls12 rest) := by
  obtain ⟨h1, h2, hr⟩ := rsvCls12_fields rest
  have hc : ((0b11#2 ++ rest).extractLsb' 12 4).toNat = 12 ∨ ((0b11#2 ++ rest).extractLsb' 12 4).toNat = 13 ∨
      ((0b11#2 ++ rest).extractLsb' 12 4).toNat = 14 ∨ ((0b11#2 ++ rest).extractLsb' 12 4).toNat = 15 := by omega
  refine of_body ?_ fun bo bs _ => ?_
  · simp only [namesRow, Instr.descriptor]
    rcases hc with h | h | h | h <;> simp [h]
  · simp only [decodeBody, Instr.descriptor, Instr.operandBytes, List.nil_append]
    rcases hc with h | h | h | h <;> simp only [h, hr]

end Sys2Proof.Laws.RoundTrip
end

