-- ==== Sys2Proof/Laws/Wiring.lean ====
section
/-!
SUPPORT. While an output propagates it keeps its state, and so does every input bound to it, whatever the callbacks do;
so after a write that changed an output, the output and its inputs hold the value written (41_signal_fabric.md R86, R90).
-/

namespace Sys2Proof.Machine

/-- The output `p` keeps its state, and so do its inputs. -/
structure SameWire (p : Sig) (s t : State) : Prop where
  out : t.sig p = s.sig p
  ins : ∀ i, (p, i) ∈ s.bindings → t.sig i = s.sig i

/-- A wiring as far as the output `p` goes: its inputs are inputs, bound to `p` alone. -/
structure Wired (p : Sig) (B : List (Sig × Sig)) (D : Sig → Option Dir) : Prop where
  out : D p = some .output
  ends : ∀ o i, (o, i) ∈ B → D i = some .input
  once : ∀ o i, (o, i) ∈ B → (p, i) ∈ B → o = p

/-- The output `p` propagates, over the wiring `B` of signals with the directions `D`. -/
structure Propagates (p : Sig) (B : List (Sig × Sig)) (D : Sig → Option Dir) (s : State) : Prop where
  prop : p ∈ s.propagating
  bind : s.bindings = B
  dir : ∀ x, s.dir x = D x

variable {p : Sig} {B : List (Sig × Sig)} {D : Sig → Option Dir}

theorem BindingsOk.wired {s : State} (b : BindingsOk s) (hp : s.dir p = some .output) : Wired p s.bindings s.dir := by
  refine ⟨hp, fun o i h => (b.ends _ h).2.1, fun o i h h' => ?_⟩
  have := b.once
  rw [List.nodup_map_iff_inj_on (by exact List.Nodup.of_map _ this)] at this
  exact congrArg Prod.fst (this _ h _ h' rfl)

theorem Propagates.kept {s t : State} (h : Propagates p B D s) (k : Kept s t) : Propagates p B D t :=
  ⟨by rw [k.propagating]; exact h.prop, by rw [k.bindings, h.bind], fun x => by rw [k.dir, h.dir]⟩

/-- What every signal write does to the output `p` while it propagates. -/
structure Held (p : Sig) (B : List (Sig × Sig)) (D : Sig → Option Dir) (s t : State) : Prop where
  kept : Kept s t
  same : Propagates p B D s → SameWire p s t

theorem Held.trans {s t u : State} (h : Held p B D s t) (k : Held p B D t u) : Held p B D s u :=
  ⟨h.kept.trans k.kept, fun a => by
    have h1 := h.same a
    have h2 := k.same (a.kept h.kept)
    exact ⟨h2.out.trans h1.out, fun i hi => (h2.ins i (by rw [h.kept.bindings]; exact hi)).trans (h1.ins i hi)⟩⟩

theorem Held.of {s t : State} (k : Kept s t) (h : ∀ q, t.sig q = s.sig q) : Held p B D s t :=
  ⟨k, fun _ => ⟨h p, fun _ _ => h _⟩⟩

theorem Held.modChan {s : State} {n : Chan} {f : Channel → Channel} (ha : (f (s.chan n)).active = (s.chan n).active)
    (h : (f (s.chan n)).trig = (s.chan n).trig ∧ (f (s.chan n)).done = (s.chan n).done ∧
      (f (s.chan n)).reqo = (s.chan n).reqo) : Held p B D s (s.modChan n f) :=
  Held.of (Kept.modChan s n f ha) (State.modChan_sig h)

/-- Inside the propagation of another output than `p`. -/
structure HeldIn (p : Sig) (B : List (Sig × Sig)) (D : Sig → Option Dir) (o : Sig) (s t : State) : Prop where
  kept : Kept s t
  held : o ≠ p → Held p B D s t

/-- Entries and leavings that keep every signal. -/
theorem Held.wrap {s s' t t' : State} (k : Kept s t') (h : Held p B D s' t) (h1 : ∀ q, s'.sig q = s.sig q)
    (h2 : ∀ q, t'.sig q = t.sig q) (hpre : Propagates p B D s → Propagates p B D s') : Held p B D s t' := by
  refine ⟨k, fun a => ?_⟩
  have := h.same (hpre a)
  exact ⟨by rw [h2, this.out, h1],
    fun i hi => by rw [h2, this.ins i (by rw [(hpre a).bind, ← a.bind]; exact hi), h1]⟩

/-- Every signal write holds a propagating output and its inputs. -/
theorem held_stable (w : Wired p B D) :
    Stable (fun _ => True) (fun _ => True) True (Held p B D) (HeldIn p B D) where
  refl s := Held.of (Kept.refl s) fun _ => rfl
  trans := Held.trans
  bindings h := h.kept.bindings
  bus h := Held.of (Kept.bus h) (by
    obtain ⟨as, d, ws, es, rfl⟩ := h
    exact State.sig_congr (fun _ => ⟨rfl, rfl, rfl⟩) rfl rfl)
  counters s m b c _ := by cases b <;> (unfold setCounters; exact Held.modChan rfl ⟨rfl, rfl, rfl⟩)
  loadWorking s m _ := Held.modChan rfl ⟨rfl, rfl, rfl⟩
  configError s m _ := Held.modChan rfl ⟨rfl, rfl, rfl⟩
  requested s m _ := Held.modChan rfl ⟨rfl, rfl, rfl⟩
  completed s m _ := Held.modChan rfl ⟨rfl, rfl, rfl⟩
  passEnded s m _ := Held.modChan rfl ⟨rfl, rfl, rfl⟩
  clearEnable s m _ := Held.modChan rfl ⟨rfl, rfl, rfl⟩
  invocation := by
    intro s t u n _ ha h1 _ h2
    exact Held.wrap (Kept.endInvocation ha (h1.kept.trans h2.kept)) (h1.trans h2) (State.modChan_sig ⟨rfl, rfl, rfl⟩)
      (State.modChan_sig ⟨rfl, rfl, rfl⟩)
      (fun a => ⟨a.prop, a.bind, fun x => by rw [← a.dir]; exact State.dir_congr rfl rfl x⟩)
  inner h := ⟨h.kept, fun _ => h⟩
  innerTrans h k := ⟨h.kept.trans k.kept, fun e => (h.held e).trans (k.held e)⟩
  innerBindings h := h.kept.bindings
  setSig s o i v hi := ⟨Kept.setSig s i v, fun hne => ⟨Kept.setSig s i v, fun a =>
    ⟨State.setSig_sig_ne s (by
        rintro rfl
        have := w.ends _ _ (a.bind ▸ hi)
        simp [w.out] at this) v,
      fun j hj => State.setSig_sig_ne s (by
        rintro rfl
        exact hne (w.once _ _ (a.bind ▸ hi) (a.bind ▸ hj))) v⟩⟩⟩
  output := by
    intro s t q v hq hd h
    refine ⟨Kept.leaveOutput h.kept, fun a => ?_⟩
    have hne : q ≠ p := by rintro rfl; exact hq a.prop
    have ks : Kept s (s.setSig q v) := Kept.setSig s q v
    have h2 := (h.held hne).same ⟨by simp [a.prop], by simpa using a.bind, fun x => by
      rw [← a.dir, ← ks.dir]; exact State.dir_congr rfl rfl x⟩
    have hs : ∀ x, (s.enterOutput q v).sig x = (s.setSig q v).sig x :=
      State.sig_congr (fun _ => ⟨rfl, rfl, rfl⟩) rfl rfl
    have hl : ∀ x, (t.leaveOutput q).sig x = t.sig x := State.sig_congr (fun _ => ⟨rfl, rfl, rfl⟩) rfl rfl
    refine ⟨by rw [hl, h2.out, hs, State.setSig_sig_ne s hne.symm], fun i hi => ?_⟩
    rw [hl, h2.ins i (by simpa using hi), hs, State.setSig_sig_ne]
    rintro rfl
    have := w.ends _ _ (a.bind ▸ hi)
    rw [← a.dir, hd] at this
    simp at this
  markRefused _ s := Held.of (Kept.markRefused s)
    (State.sig_congr (fun _ => ⟨rfl, rfl, rfl⟩) rfl rfl)
  commit _ s r v _ _ := Held.of (Kept.commit s r v) (State.commit_sig s r v)
  arm _ s n := (Held.modChan (s := s) (n := n) (f := fun ch => { ch with wk := backingCounters s n }) rfl
      ⟨rfl, rfl, rfl⟩).trans
    (Held.modChan (s := loadWorking s n) (n := n) (f := fun ch => { ch with st := Flags.armed ch.st }) rfl
      ⟨rfl, rfl, rfl⟩)
  ctrlWrite := by
    intro s t n v _ _ h
    exact Held.wrap (Kept.ctrlWrite h.kept) h (ctrlCommitted_sig n v s)
      (State.sig_congr (fun _ => ⟨rfl, rfl, rfl⟩) rfl rfl)
      (fun a => ⟨a.prop, a.bind, fun x => by rw [← a.dir]; exact State.dir_congr rfl rfl x⟩)
  triggerWrite := by
    intro s t n v _ _ h
    refine Held.wrap ((Kept.commit _ _ _).trans (Kept.leaveHandler h.kept)) h (fun q => ?_)
      (State.sig_congr (fun _ => ⟨rfl, rfl, rfl⟩) rfl rfl)
      (fun a => ⟨a.prop, a.bind, fun x => by rw [← a.dir]; exact State.dir_congr rfl rfl x⟩)
    rw [← State.commit_sig s (.trigger n) v]
    exact State.sig_congr (fun _ => ⟨rfl, rfl, rfl⟩) rfl rfl q

/-- The delivery to one input holds the output and its other inputs. -/
theorem deliverOne_other (k : Nat) {o i j : Sig} {old new : SigVal} {s t : State} (w : Wired o s.bindings s.dir)
    (hp : o ∈ s.propagating) (hi : (o, i) ∈ s.bindings) (hj : j = o ∨ ((o, j) ∈ s.bindings ∧ j ≠ i))
    (e : deliverOne (sigWrite k) old new i s = .next t) : t.sig j = s.sig j := by
  have st := held_stable w
  have h1 : Kept s (s.setSig i new) := Kept.setSig s i new
  have hne : j ≠ i := by
    rcases hj with rfl | ⟨_, hj⟩
    · rintro rfl
      have := w.ends _ _ hi
      simp [w.out] at this
    · exact hj
  unfold deliverOne at e
  simp only at e
  split at e
  · have h2 := (callback_stable st.toStableInside ((sigWrite_stable st k).uses st.toStableInside) trivial e).same
      ⟨by simpa using hp, by simp, fun x => h1.dir x⟩
    rcases hj with rfl | ⟨hj, _⟩
    · rw [h2.out, State.setSig_sig_ne s hne]
    · rw [h2.ins j (by simpa using hj), State.setSig_sig_ne s hne]
  · cases e
    exact State.setSig_sig_ne s hne new

/-- The delivery to one input leaves it at the new value. -/
theorem deliverOne_sets (k : Nat) {o i : Sig} {old new : SigVal} {s t : State} (w : Wired o s.bindings s.dir)
    (hp : o ∈ s.propagating) (hi : (o, i) ∈ s.bindings) (hn : (s.setSig i new).sig i = new)
    (e : deliverOne (sigWrite k) old new i s = .next t) : t.sig i = new := by
  have st := held_stable w
  have h1 : Kept s (s.setSig i new) := Kept.setSig s i new
  unfold deliverOne at e
  simp only at e
  split at e
  · have h2 := (callback_stable st.toStableInside ((sigWrite_stable st k).uses st.toStableInside) trivial e).same
      ⟨by simpa using hp, by simp, fun x => h1.dir x⟩
    rw [h2.ins i (by simpa using hi)]
    exact hn
  · cases e
    exact hn

theorem deliverOne_kept (k : Nat) {i : Sig} {old new : SigVal} {s t : State}
    (e : deliverOne (sigWrite k) old new i s = .next t) : Kept s t := by
  unfold deliverOne at e
  simp only at e
  split at e
  · exact (Kept.setSig s i new).trans (callback_stable kept_stable.toStableInside
      ((sigWrite_stable kept_stable k).uses kept_stable.toStableInside) trivial e)
  · cases e
    exact Kept.setSig s i new

theorem Wired.kept {o : Sig} {s t : State} (w : Wired o s.bindings s.dir) (h : Kept s t) :
    Wired o t.bindings t.dir := by
  rw [h.bindings, show t.dir = s.dir from funext h.dir]
  exact w

/-- A delivery holds the output, and every input of it that it does not visit. -/
theorem deliver_other (k : Nat) {o j : Sig} {old new : SigVal} : ∀ (is : List Sig) {s t : State},
    Wired o s.bindings s.dir → o ∈ s.propagating → (∀ i ∈ is, (o, i) ∈ s.bindings) →
    j = o ∨ ((o, j) ∈ s.bindings ∧ j ∉ is) → deliver (sigWrite k) old new is s = .next t → t.sig j = s.sig j := by
  intro is
  induction is with
  | nil => intro s t _ _ _ _ e; cases e; rfl
  | cons i is ih =>
    intro s t w hp hb hj e
    obtain ⟨a, ha, hc⟩ := andThen_eq_next.mp e
    have hk := deliverOne_kept k ha
    have h1 := deliverOne_other k w hp (hb i (List.mem_cons_self ..))
      (hj.imp id fun h => ⟨h.1, fun h' => h.2 (h' ▸ List.mem_cons_self ..)⟩) ha
    rw [← h1]
    refine ih (w.kept hk) (by rw [hk.propagating]; exact hp) (fun x hx => ?_) ?_ hc
    · rw [hk.bindings]; exact hb x (List.mem_cons_of_mem _ hx)
    · rw [hk.bindings]; exact hj.imp id fun h => ⟨h.1, fun h' => h.2 (List.mem_cons_of_mem _ h')⟩

/-- A delivery leaves every input it visits at the new value. -/
theorem deliver_sets (k : Nat) {o : Sig} {old new : SigVal} : ∀ (is : List Sig) {s t : State},
    Wired o s.bindings s.dir → o ∈ s.propagating → is.Nodup → (∀ i ∈ is, (o, i) ∈ s.bindings) →
    (∀ i ∈ is, ∀ x : State, (∀ y, x.dir y = s.dir y) → (x.setSig i new).sig i = new) →
    deliver (sigWrite k) old new is s = .next t → ∀ i ∈ is, t.sig i = new := by
  intro is
  induction is with
  | nil => intro s t _ _ _ _ _ _ i hi; cases hi
  | cons i is ih =>
    intro s t w hp hnd hb hn e j hj
    obtain ⟨a, ha, hc⟩ := andThen_eq_next.mp e
    have hk := deliverOne_kept k ha
    obtain ⟨hni, hnd⟩ := List.nodup_cons.mp hnd
    have hp' : o ∈ a.propagating := by rw [hk.propagating]; exact hp
    have hb' : ∀ x ∈ is, (o, x) ∈ a.bindings := fun x hx => by rw [hk.bindings]; exact hb x (List.mem_cons_of_mem _ hx)
    rcases List.mem_cons.mp hj with rfl | hj
    · rw [deliver_other k is (w.kept hk) hp' hb'
        (.inr ⟨by rw [hk.bindings]; exact hb j (List.mem_cons_self ..), hni⟩) hc]
      exact deliverOne_sets k w hp (hb j (List.mem_cons_self ..)) (hn j (List.mem_cons_self ..) s fun _ => rfl) ha
    · exact ih (w.kept hk) hp' hnd hb'
        (fun x hx y hy => hn x (List.mem_cons_of_mem _ hx) y fun z => by rw [hy, hk.dir]) hc j hj

/-- A pin that is an output, and its inputs, hold a bit written to them. -/
theorem BindingsOk.pin_sets {s : State} (b : BindingsOk s) {p : Pin} (hd : s.dir (.pin p) = some .output) (v : Bool) :
    ∀ i, i = .pin p ∨ (.pin p, i) ∈ s.bindings → ∀ x : State, (∀ y, x.dir y = s.dir y) →
      (x.setSig i (s.fit (.pin p) (pinVal v))).sig i = s.fit (.pin p) (pinVal v) := by
  intro i hi x hx
  rw [fit_pinVal]
  have : x.dir i ≠ none ∧ ∃ q, i = .pin q := by
    rcases hi with rfl | hi
    · exact ⟨by rw [hx, hd]; simp, _, rfl⟩
    · have := b.ends _ hi
      refine ⟨by rw [hx, this.2.1]; simp, ?_⟩
      cases i with
      | pin q => exact ⟨q, rfl⟩
      | port k => simp [State.shape] at this
  obtain ⟨h1, q, rfl⟩ := this
  exact State.setSig_sig_pin x h1 v

/-- A port that is an output, and its inputs, hold a value written to them. -/
theorem BindingsOk.port_sets {s : State} (b : BindingsOk s) {k : Nat} (hd : s.dir (.port k) = some .output) (v : SigVal) :
    ∀ i, i = .port k ∨ (.port k, i) ∈ s.bindings → ∀ x : State, (∀ y, x.dir y = s.dir y) → (x.setSig i v).sig i = v := by
  intro i hi x hx
  have : x.dir i ≠ none ∧ ∃ q, i = .port q := by
    rcases hi with rfl | hi
    · exact ⟨by rw [hx, hd]; simp, _, rfl⟩
    · have := b.ends _ hi
      refine ⟨by rw [hx, this.2.1]; simp, ?_⟩
      cases i with
      | pin p => simp [State.shape] at this
      | port q => exact ⟨q, rfl⟩
  obtain ⟨h1, q, rfl⟩ := this
  exact State.setSig_sig_port x h1 v

/-- After a write that changed an output, the output and every input bound to it hold the value written. -/
theorem sigWrite_changes (k : Nat) {s t : State} {o : Sig} {v : SigVal} (b : BindingsOk s)
    (hd : s.dir o = some .output) (hv : s.fit o v ≠ s.sig o) (e : sigWrite (k + 1) o v s = .next t)
    (hset : ∀ i, i = o ∨ (o, i) ∈ s.bindings → ∀ x : State, (∀ y, x.dir y = s.dir y) →
      (x.setSig i (s.fit o v)).sig i = s.fit o v) :
    t.sig o = s.fit o v ∧ ∀ i, (o, i) ∈ s.bindings → t.sig i = s.fit o v := by
  rw [sigWrite_succ] at e
  by_cases hp : o ∈ s.propagating
  · simp [writeSignal, hd, hv, hp] at e
  rw [writeSignal_change _ hd hv hp] at e
  obtain ⟨a, ha, hb⟩ := andThen_eq_next.mp e
  cases hb
  have hin : ((s.record (.sigWrite o v)).enterOutput o (s.fit o v)).sig o = (s.setSig o (s.fit o v)).sig o :=
    State.sig_congr (fun n => by obtain (_ | _ | _ | _) | _ := o <;> exact ⟨rfl, rfl, rfl⟩)
      (by obtain (_ | _ | _ | _) | _ := o <;> rfl) (by obtain (_ | _ | _ | _) | _ := o <;> rfl) o
  have hdir : ((s.record (.sigWrite o v)).enterOutput o (s.fit o v)).dir = s.dir := by
    funext x
    rw [← (Kept.setSig s o (s.fit o v)).dir x]
    exact State.dir_congr (by obtain (_ | _ | _ | _) | _ := o <;> rfl) (by obtain (_ | _ | _ | _) | _ := o <;> rfl) x
  have hbind : ((s.record (.sigWrite o v)).enterOutput o (s.fit o v)).bindings = s.bindings := by simp
  have hprop : o ∈ ((s.record (.sigWrite o v)).enterOutput o (s.fit o v)).propagating := by simp
  generalize (s.record (.sigWrite o v)).enterOutput o (s.fit o v) = z at ha hin hdir hbind hprop
  have w : Wired o z.bindings z.dir := by rw [hdir, hbind]; exact b.wired hd
  have hmem : ∀ i ∈ s.inputsOf o, (o, i) ∈ z.bindings := fun i hi => by rw [hbind]; exact State.mem_inputsOf.mp hi
  have hl : ∀ x, (a.leaveOutput o).sig x = a.sig x := State.sig_congr (fun _ => ⟨rfl, rfl, rfl⟩) rfl rfl
  constructor
  · rw [hl, deliver_other k _ w hprop hmem (.inl rfl) ha, hin]
    exact hset o (.inl rfl) s fun _ => rfl
  · intro i hi
    rw [hl]
    exact deliver_sets k _ w hprop (b.inputsOf_nodup o) hmem
      (fun j hj x hx => hset j (.inr (State.mem_inputsOf.mp hj)) x fun y => by rw [hx, hdir]) ha i
      (State.mem_inputsOf.mpr hi)

/-- After a pin write, or a pulse's half, the pin holds the bit written (41_signal_fabric.md R86). -/
theorem sigWrite_pin_sig (k : Nat) {s t : State} {p : Pin} {v : Bool} (b : BindingsOk s)
    (hd : s.dir (.pin p) = some .output) (e : sigWrite (k + 1) (.pin p) (pinVal v) s = .next t) :
    t.sig (.pin p) = pinVal v := by
  by_cases h : s.sig (.pin p) = pinVal v
  · rw [sigWrite_succ, writeSignal_same _ hd (by rw [fit_pinVal, h])] at e
    cases e
    simpa using h
  · have := (sigWrite_changes k b hd (by simpa using Ne.symm h) e (b.pin_sets hd v)).1
    simpa using this

end Sys2Proof.Machine
end

