-- ==== Sys2Proof/Laws/Settles.lean ====
section
/-!
SUPPORT. What is clear before a use of a signal write is clear after it: a channel's run flag, and its two outputs
(43_dma_transfer.md R124, 70_reset_and_hazards.md R158). A single write may raise the output it names; a pulse lowers it
again.
-/

namespace Sys2Proof.Machine

/-- On channel n: run stays clear, and both outputs stay low, but for the output `o`. -/
structure Clear (o : Option Sig) (n : Chan) (s t : State) : Prop where
  run : (s.chan n).st.run = false → (t.chan n).st.run = false
  done : o ≠ some (.pin (.done n)) → (s.chan n).done = false → (t.chan n).done = false
  reqo : o ≠ some (.pin (.reqo n)) → (s.chan n).reqo = false → (t.chan n).reqo = false

/-- What every signal write keeps, and over a well-formed binding list what is clear. -/
structure Settles (o : Option Sig) (s t : State) : Prop where
  kept : Kept s t
  clear : BindingsOk s → ∀ n, Clear o n s t

theorem Clear.refl (o : Option Sig) (n : Chan) (s : State) : Clear o n s s := ⟨id, fun _ => id, fun _ => id⟩

theorem Clear.trans {o : Option Sig} {n : Chan} {s t u : State} (h : Clear o n s t) (k : Clear o n t u) :
    Clear o n s u :=
  ⟨fun a => k.run (h.run a), fun ho a => k.done ho (h.done ho a), fun ho a => k.reqo ho (h.reqo ho a)⟩

/-- Only the run flag and the outputs matter. -/
theorem Clear.congr {o : Option Sig} {n : Chan} {s s' t t' : State} (h : Clear o n s' t)
    (hr : (s.chan n).st.run = false → (s'.chan n).st.run = false)
    (hd : o ≠ some (.pin (.done n)) → (s'.chan n).done = (s.chan n).done)
    (hq : o ≠ some (.pin (.reqo n)) → (s'.chan n).reqo = (s.chan n).reqo)
    (ht : t'.chan n = t.chan n) : Clear o n s t' :=
  ⟨fun a => by rw [ht]; exact h.run (hr a), fun ho a => by rw [ht]; exact h.done ho (by rw [hd ho]; exact a),
    fun ho a => by rw [ht]; exact h.reqo ho (by rw [hq ho]; exact a)⟩

theorem Settles.refl (o : Option Sig) (s : State) : Settles o s s := ⟨Kept.refl s, fun _ n => Clear.refl o n s⟩

theorem Settles.trans {o : Option Sig} {s t u : State} (h : Settles o s t) (k : Settles o t u) : Settles o s u :=
  ⟨h.kept.trans k.kept, fun b n => (h.clear b n).trans (k.clear (h.kept.bindingsOk b) n)⟩

theorem Settles.weaken {o : Option Sig} {s t : State} (h : Settles none s t) : Settles o s t :=
  ⟨h.kept, fun b n => ⟨(h.clear b n).run, fun _ => (h.clear b n).done (by simp), fun _ => (h.clear b n).reqo (by simp)⟩⟩

theorem Settles.modChan {o : Option Sig} {s : State} {n : Chan} {f : Channel → Channel}
    (ha : (f (s.chan n)).active = (s.chan n).active)
    (hr : (s.chan n).st.run = false → (f (s.chan n)).st.run = false) (hd : (f (s.chan n)).done = (s.chan n).done)
    (hq : (f (s.chan n)).reqo = (s.chan n).reqo) : Settles o s (s.modChan n f) := by
  refine ⟨Kept.modChan s n f ha, fun _ m => ?_⟩
  by_cases h : n = m
  · subst h
    refine ⟨?_, fun _ => ?_, fun _ => ?_⟩ <;> rw [State.modChan_chan, if_pos rfl]
    · exact hr
    · rw [hd]; exact id
    · rw [hq]; exact id
  · refine ⟨?_, fun _ => ?_, fun _ => ?_⟩ <;> rw [State.modChan_chan, if_neg h] <;> exact id

/-- An input bound to an output is no output of the block. -/
theorem Settles.setInput (s : State) (o i : Sig) (v : SigVal) (hi : (o, i) ∈ s.bindings) :
    Settles (some o) s (s.setSig i v) := by
  refine ⟨Kept.setSig s i v, fun b m => ?_⟩
  have := (b.ends _ hi).2.1
  obtain (k | ⟨n, j⟩ | n | n) | k := i
  · exact ⟨id, fun _ => id, fun _ => id⟩
  · exact (Settles.modChan (o := some o) (s := s) (n := n)
      (f := fun c => { c with trig := c.trig.set j { c.trig[j] with state := v.getLsbD 0 } }) rfl id rfl rfl).clear b m
  · simp [State.dir] at this
  · simp [State.dir] at this
  · exact ⟨id, fun _ => id, fun _ => id⟩

theorem ctrlCommitted_chan (n m : Chan) (v : Word) (s : State) :
    ((ctrlCommitted n v s).chan m).st = (s.chan m).st ∧ ((ctrlCommitted n v s).chan m).done = (s.chan m).done ∧
      ((ctrlCommitted n v s).chan m).reqo = (s.chan m).reqo := by
  simp only [ctrlCommitted, setSensAll, State.modChan_chan]
  by_cases h : n = m
  · subst h
    simp [commit_ctrl, State.record, State.enterHandler, State.chan, State.modChan]
  · simp [h, commit_ctrl, State.record, State.enterHandler, State.chan, State.modChan, Fin.val_inj]

/-- Everything but a signal write settles. -/
theorem settles_inside : StableInside (fun _ => True) (fun _ => True) True (Settles none) (fun o => Settles (some o)) where
  refl := Settles.refl _
  trans := Settles.trans
  bindings h := h.kept.bindings
  bus h := ⟨Kept.bus h, by
    obtain ⟨as, d, ws, es, rfl⟩ := h
    exact fun _ _ => ⟨id, fun _ => id, fun _ => id⟩⟩
  counters s m b c _ := by cases b <;> (unfold setCounters; exact Settles.modChan rfl id rfl rfl)
  loadWorking s m _ := Settles.modChan rfl id rfl rfl
  configError s m _ := Settles.modChan rfl (fun _ => rfl) rfl rfl
  requested s m _ := Settles.modChan rfl (fun _ => rfl) rfl rfl
  completed s m _ := Settles.modChan rfl (fun _ => rfl) rfl rfl
  passEnded s m _ := Settles.modChan rfl (fun _ => rfl) rfl rfl
  clearEnable s m _ := Settles.modChan rfl id rfl rfl
  invocation := by
    intro s t u n _ ha h1 hr h2
    refine ⟨Kept.endInvocation ha (h1.kept.trans h2.kept), fun b m => ?_⟩
    have b1 : BindingsOk (startInvocation n s) := ⟨b.ends, b.once⟩
    have c1 := h1.clear b1 m
    have c2 := h2.clear (h1.kept.bindingsOk b1) m
    have he : ((endInvocation n u).chan m).st = (u.chan m).st ∧ ((endInvocation n u).chan m).done = (u.chan m).done ∧
        ((endInvocation n u).chan m).reqo = (u.chan m).reqo := by
      unfold endInvocation
      rw [State.modChan_chan]
      split
      · next h => subst h; exact ⟨rfl, rfl, rfl⟩
      · exact ⟨rfl, rfl, rfl⟩
    have hs : ((startInvocation n s).chan m).done = (s.chan m).done ∧
        ((startInvocation n s).chan m).reqo = (s.chan m).reqo ∧
        (n ≠ m → ((startInvocation n s).chan m).st = (s.chan m).st) := by
      unfold startInvocation
      rw [State.modChan_chan]
      split
      · next h => subst h; exact ⟨rfl, rfl, fun h => absurd rfl h⟩
      · exact ⟨rfl, rfl, fun _ => rfl⟩
    refine ⟨?_, fun _ => ?_, fun _ => ?_⟩
    · rw [he.1]
      intro h
      by_cases hnm : n = m
      · subst hnm; exact c2.run hr
      · exact c2.run (c1.run (by rw [hs.2.2 hnm]; exact h))
    · rw [he.2.1, ← hs.1]
      intro h
      exact c2.done (by simp) (c1.done (by simp) h)
    · rw [he.2.2, ← hs.2.1]
      intro h
      exact c2.reqo (by simp) (c1.reqo (by simp) h)
  inner := Settles.weaken
  innerTrans := Settles.trans
  innerBindings h := h.kept.bindings
  setSig := Settles.setInput
  markRefused _ s := ⟨(Kept.markRefused s),
    fun _ _ => ⟨id, fun _ => id, fun _ => id⟩⟩
  commit _ s r v _ h := by
    cases r <;> simp [regHandler] at h
    case cfg => exact ⟨Kept.commit _ _ _, fun _ _ => ⟨id, fun _ => id, fun _ => id⟩⟩
    case status => exact Settles.refl _ _
    all_goals
      unfold State.commit State.setValues
      exact Settles.modChan rfl id rfl rfl
  arm _ s n := Settles.trans (t := loadWorking s n) (Settles.modChan rfl id rfl rfl)
    (show Settles none (loadWorking s n) (modFlags (loadWorking s n) n Flags.armed) from Settles.modChan rfl id rfl rfl)
  ctrlWrite := by
    intro s t n v _ _ h
    refine ⟨Kept.ctrlWrite h.kept, fun b m => ?_⟩
    have c := h.clear (show BindingsOk (ctrlCommitted n v s) from ⟨b.ends, b.once⟩) m
    have e := ctrlCommitted_chan n m v s
    exact c.congr (by rw [e.1]; exact id) (fun _ => e.2.1) (fun _ => e.2.2) rfl
  triggerWrite := by
    intro s t n v _ _ h
    refine ⟨(Kept.commit _ _ _).trans (Kept.leaveHandler h.kept), fun b m => ?_⟩
    have c := h.clear (show BindingsOk ((s.commit (.trigger n) v).enterHandler (.trigger n)) from ⟨b.ends, b.once⟩) m
    have c0 := (Settles.modChan (o := none) (s := s) (n := n)
      (f := fun c => { c with trigger := { cur := v, prev := c.trigger.cur } }) rfl id rfl rfl).clear b m
    rw [← commit_trigger] at c0
    exact ⟨fun a => c.run (c0.run a), fun ho a => c.done ho (c0.done ho a), fun ho a => c.reqo ho (c0.reqo ho a)⟩

/-- An output entered: the binding list stays well formed. -/
theorem BindingsOk.enterOutput {s : State} (b : BindingsOk s) (p : Sig) (v : SigVal) (e : Event) :
    BindingsOk ((s.record e).enterOutput p v) := by
  have h := (Kept.setSig s p v).bindingsOk b
  have hdir : ∀ y, ((s.record e).enterOutput p v).dir y = (s.setSig p v).dir y :=
    State.dir_congr (by obtain (_ | _ | _ | _) | _ := p <;> rfl) (by obtain (_ | _ | _ | _) | _ := p <;> rfl)
  have hsh : ∀ y, ((s.record e).enterOutput p v).shape y = (s.setSig p v).shape y := by
    intro y
    cases y
    · rfl
    · obtain (_ | _ | _ | _) | _ := p <;> rfl
  refine ⟨fun x hx => ?_, by simpa using b.once⟩
  rw [hdir, hdir, hsh, hsh]
  exact h.ends x (by simpa using hx)

/-- An output entered: no other output and no run flag changes. -/
theorem enterOutput_clear (s : State) (p : Sig) (v : SigVal) (e : Event) (m : Chan) :
    (((s.record e).enterOutput p v).chan m).st = (s.chan m).st ∧
    (some p ≠ some (.pin (.done m)) → (((s.record e).enterOutput p v).chan m).done = (s.chan m).done) ∧
    (some p ≠ some (.pin (.reqo m)) → (((s.record e).enterOutput p v).chan m).reqo = (s.chan m).reqo) := by
  obtain (_ | ⟨n, i⟩ | n | n) | _ := p
  · exact ⟨rfl, fun _ => rfl, fun _ => rfl⟩
  all_goals try exact ⟨rfl, fun _ => rfl, fun _ => rfl⟩
  all_goals
    by_cases h : n = m
    · subst h
      simp [State.enterOutput, State.setSig, State.chan, State.modChan, State.record]
    · simp [State.enterOutput, State.setSig, State.chan, State.modChan, State.record, Fin.val_inj, h]

/-- A signal write settles all but the output it names. -/
theorem writeSignal_settles {write : Writer} (hw : RespectsUses (fun _ => True) (Settles none) write) {p : Sig}
    {v : SigVal} {s t : State} (e : writeSignal write p v s = .next t) : Settles (some p) s t := by
  cases hd : s.dir p with
  | none => simp [writeSignal, hd] at e
  | some d =>
    cases d with
    | input =>
      rw [writeSignal_input _ _ hd] at e
      cases e
      exact ⟨Kept.trans (Kept.record _ _) (Kept.record _ _), fun _ _ => ⟨id, fun _ => id, fun _ => id⟩⟩
    | output =>
      by_cases hv : s.fit p v = s.sig p
      · rw [writeSignal_same _ hd hv] at e
        cases e
        exact ⟨Kept.record _ _, fun _ _ => ⟨id, fun _ => id, fun _ => id⟩⟩
      · by_cases hp : p ∈ s.propagating
        · rw [writeSignal_reentrant _ hd hv hp] at e
          cases e
        · rw [writeSignal_change _ hd hv hp] at e
          obtain ⟨a, ha, hb⟩ := andThen_eq_next.mp e
          cases hb
          have h := deliver_stable (o := p) settles_inside hw _ trivial
            (fun i hi => by simpa using State.mem_inputsOf.mp hi) ha
          refine ⟨(Kept.record _ _).trans (Kept.leaveOutput h.kept), fun b m => ?_⟩
          have he := enterOutput_clear s p (s.fit p v) (.sigWrite p v) m
          exact (h.clear (b.enterOutput _ _ _) m).congr (by rw [he.1]; exact id) he.2.1 he.2.2 rfl

theorem Settles.ofOther {p : Sig} {s t : State} (h : Settles (some p) s t)
    (hp : ∀ n, p ≠ .pin (.done n) ∧ p ≠ .pin (.reqo n)) : Settles none s t :=
  ⟨h.kept, fun b n => ⟨(h.clear b n).run, fun _ => (h.clear b n).done (by simpa using (hp n).1),
    fun _ => (h.clear b n).reqo (by simpa using (hp n).2)⟩⟩

/-- Every use of a signal write settles, to any depth of nesting. -/
theorem sigWrite_settles : ∀ k, RespectsUses (fun _ => True) (Settles none) (sigWrite k) := by
  intro k
  induction k with
  | zero =>
    exact ⟨(fun n e s t _ h => by cases e <;> cases h), (fun k v s t _ h => by cases h),
      (fun k v s t _ h => by cases h)⟩
  | succ k ih =>
    refine ⟨?_, fun j v s t _ h => (writeSignal_settles ih h).ofOther (by simp),
      fun j v s t _ h => (writeSignal_settles ih h).ofOther (by simp)⟩
    intro n e s t _ h
    obtain ⟨a, h1, h2⟩ := andThen_eq_next.mp h
    have w1 := writeSignal_settles ih h1
    have w := w1.trans (writeSignal_settles ih h2)
    refine ⟨w.kept, fun b m => ?_⟩
    have low := sigWrite_pin_sig k (w1.kept.bindingsOk b) (by cases e <;> rfl) h2
    have c := w.clear b m
    cases e with
    | done =>
      refine ⟨c.run, fun _ => ?_, fun _ => c.reqo (by simp [pulsePin])⟩
      by_cases hnm : n = m
      · subst hnm
        intro _
        exact pinVal_inj.mp low
      · exact c.done (by simp [pulsePin, hnm])
    | request =>
      refine ⟨c.run, fun _ => c.done (by simp [pulsePin]), fun _ => ?_⟩
      by_cases hnm : n = m
      · subst hnm
        intro _
        exact pinVal_inj.mp low
      · exact c.reqo (by simp [pulsePin, hnm])

end Sys2Proof.Machine
end

