-- ==== Sys2Proof/Laws/Stops.lean ====
section
/-!
SUPPORT. How an operation that began in a state can stop: by a fault of the spec that carries a state with the fault mark
set, every event recorded before it, and a refusal mark that was set. A signal write that has a level of
nesting for every signal that does not propagate yet never runs out of levels, and refuses nothing.
-/

namespace Sys2Proof.Machine

/-- How many of the other devices' signals and of the block's outputs do not propagate. -/
def room (s : State) : Nat :=
  (((List.finRange 8).map fun n => Sig.pin (.done n)) ++ ((List.finRange 8).map fun n => Sig.pin (.reqo n)) ++
    ((List.range s.extPins.length).map fun k => Sig.pin (.ext k)) ++
    ((List.range s.extPorts.length).map fun k => Sig.port k)).countP fun p => decide (p ∉ s.propagating)

/-- A state reached from `s0`, with at most `r` signals that do not propagate. -/
structure Within (r : Nat) (s0 s : State) : Prop where
  params : s.params = s0.params
  hist : ∃ es, s.hist = s0.hist ++ es
  refusalMark : s0.refusalMark = true → s.refusalMark = true
  room : room s ≤ r

/-- How an operation that began in `s0` may end. -/
def Ends {α : Type} (s0 : State) (o : Host.Outcome α Fault Refusal) : Prop :=
  match o with
  | .next _ => True
  | .fault f => f.state.faultMark = true ∧ f.state.params = s0.params ∧ (∃ es, f.state.hist = s0.hist ++ es) ∧
      (s0.refusalMark = true → f.state.refusalMark = true) ∧ ∀ t, f ≠ .nestingExhausted t
  | .refused _ => False

theorem room_congr {s t : State} (h1 : t.extPins.length = s.extPins.length) (h2 : t.extPorts.length = s.extPorts.length)
    (h3 : t.propagating = s.propagating) : room t = room s := by
  simp only [room, h1, h2, h3]

theorem room_le (s : State) : room s ≤ 16 + s.extPins.length + s.extPorts.length := by
  refine le_trans List.countP_le_length ?_
  simp
  omega

theorem Kept.room {s t : State} (h : Kept s t) : Machine.room t = Machine.room s := by
  have hp := congrArg List.length h.pins
  have hq := congrArg List.length h.ports
  simp only [pinStatics, portStatics, List.length_map] at hp hq
  exact room_congr hp hq h.propagating

theorem Within.of {r : Nat} {s0 s t : State} (h : Within r s0 s) (h1 : t.params = s.params)
    (h2 : ∃ es, t.hist = s.hist ++ es) (h3 : s.refusalMark = true → t.refusalMark = true)
    (h4 : Machine.room t = Machine.room s) : Within r s0 t := by
  obtain ⟨es, he⟩ := h.hist
  obtain ⟨fs, hf⟩ := h2
  exact ⟨h1.trans h.params, ⟨es ++ fs, by rw [hf, he, List.append_assoc]⟩, h3 ∘ h.refusalMark, by rw [h4]; exact h.room⟩

theorem Within.kept {r : Nat} {s0 s t : State} (h : Within r s0 s) (k : Kept s t) : Within r s0 t :=
  h.of k.params k.hist k.refusalMark k.room

theorem Within.same {r : Nat} {s0 s t : State} (h : Within r s0 s) (h1 : t.params = s.params) (h2 : t.hist = s.hist)
    (h3 : t.refusalMark = s.refusalMark) (h4 : Machine.room t = Machine.room s) : Within r s0 t :=
  h.of h1 ⟨[], by simp [h2]⟩ (fun hm => h3.trans hm) h4

theorem Within.refl (s : State) : Within (Machine.room s) s s := ⟨rfl, ⟨[], by simp⟩, id, le_rfl⟩

theorem Ends.next {α : Type} (s0 : State) (a : α) : Ends s0 (.next a : Host.Outcome α Fault Refusal) := trivial

theorem Ends.fault {α : Type} {r : Nat} {s0 s : State} (h : Within r s0 s) {f : Fault} (hs : f.state = s.markFaulted)
    (hn : ∀ t, f ≠ .nestingExhausted t) : Ends s0 (.fault f : Host.Outcome α Fault Refusal) :=
  ⟨by rw [hs]; rfl, by rw [hs]; exact h.params, by rw [hs]; exact h.hist, fun hm => by rw [hs]; exact h.refusalMark hm, hn⟩

/-- An access that is not accepted. -/
theorem badAccess_ends {r : Nat} {d : BitVec 16} {width : Nat} {s0 s : State} (h : Within r s0 s) :
    Ends s0 (badAccess d width s) :=
  Ends.fault (h.kept (Kept.record s _)) rfl (by simp)

/-- A sequence ends so if both parts do. -/
theorem Ends.andThen {α β : Type} {s0 : State} {x : Host.Outcome α Fault Refusal} {f : α → Host.Outcome β Fault Refusal}
    (hx : Ends s0 x) (hf : ∀ a, x = .next a → Ends s0 (f a)) : Ends s0 (Machine.andThen x f) := by
  cases x with
  | next a => exact hf a rfl
  | fault r => exact hx
  | refused r => exact hx

/-- An output entered leaves less room. -/
theorem room_enterOutput {s : State} {p : Sig} {v : SigVal} (hp : p ∉ s.propagating) (hd : s.dir p = some .output) :
    room (s.enterOutput p v) < room s := by
  have hk := Kept.setSig s p v
  have hl := congrArg List.length hk.pins
  have hq := congrArg List.length hk.ports
  simp only [pinStatics, portStatics, List.length_map] at hl hq
  simp only [room, State.enterOutput_extPins, State.enterOutput_extPorts, hl, hq, State.enterOutput_propagating]
  have hm : p ∈ (((List.finRange 8).map fun n => Sig.pin (.done n)) ++ ((List.finRange 8).map fun n => Sig.pin (.reqo n)) ++
    ((List.range s.extPins.length).map fun k => Sig.pin (.ext k)) ++
    ((List.range s.extPorts.length).map fun k => Sig.port k)) := by
    obtain (k | ⟨n, i⟩ | n | n) | k := p
    · have := State.isExtPin_of_dir hd
      simp only [State.isExtPin, decide_eq_true_eq] at this
      simp [this]
    · simp [State.dir] at hd
    · simp
    · simp
    · have := State.isExtPort_of_dir hd
      simp only [State.isExtPort, decide_eq_true_eq] at this
      simp [this]
  generalize (((List.finRange 8).map fun n => Sig.pin (.done n)) ++ ((List.finRange 8).map fun n => Sig.pin (.reqo n)) ++
    ((List.range s.extPins.length).map fun k => Sig.pin (.ext k)) ++
    ((List.range s.extPorts.length).map fun k => Sig.port k)) = l at hm
  obtain ⟨a, b, rfl⟩ := List.append_of_mem hm
  simp only [List.countP_append, List.countP_cons, List.mem_cons, not_or]
  have mono : ∀ l : List Sig, l.countP (fun x => decide (¬x = p ∧ x ∉ s.propagating)) ≤
      l.countP fun x => decide (x ∉ s.propagating) := by
    intro l
    refine List.countP_mono_left fun x _ hx => ?_
    simp only [decide_eq_true_eq] at hx ⊢
    exact hx.2
  have ha := mono a
  have hb := mono b
  simp [hp]
  simp at ha hb
  omega

section
variable {write : Writer} {r : Nat} (hw : Respects (fun _ => True) Kept write)
  (hf : ∀ s0 p v s, s.dir p ≠ none → Within r s0 s → Ends s0 (write p v s))
include hw hf

theorem pulse_ends {n : Chan} {e : Pulse} {s0 s : State} (h : Within r s0 s) :
    Ends s0 (pulse write (pulsePin n e) s) := by
  have hd : ∀ t : State, t.dir (.pin (pulsePin n e)) ≠ none := by intro t; cases e <;> simp [pulsePin, State.dir]
  exact (hf s0 _ _ s (hd s) h).andThen fun a ha => hf s0 _ _ a (hd a) (h.kept (hw _ _ _ _ trivial ha))

theorem emitPulses_ends {n : Chan} : ∀ (es : List Pulse) {s0 s : State}, Within r s0 s →
    Ends s0 (emitPulses write n es s) := by
  intro es
  induction es with
  | nil => intros; trivial
  | cons e es ih =>
    intro s0 s h
    exact (pulse_ends hw hf h).andThen fun a ha =>
      ih (h.kept ((hw.uses kept_stable.toStableInside).pulse n e s a trivial ha))

omit hw hf in
theorem unitStep_ends {b : Bank} {n : Chan} {u : Nat} {s0 s : State} (h : Within r s0 s) :
    Ends s0 (unitStep b n u s) := by
  unfold unitStep
  simp only
  split
  · exact Ends.fault h rfl (by simp)
  · split
    · exact Ends.fault h rfl (by simp)
    · split
      · exact Ends.fault h rfl (by simp)
      · trivial

omit hw hf in
theorem blockLoop_ends {b : Bank} {n : Chan} {u : Nat} : ∀ (k : Nat) {s0 s : State}, Within r s0 s →
    Ends s0 (blockLoop b n u k s) := by
  intro k
  induction k with
  | zero => intro s0 s h; exact unitStep_ends h
  | succ k ih =>
    intro s0 s h
    refine (unitStep_ends h).andThen fun a ha => ?_
    split
    · trivial
    · exact ih (h.kept (unitStep_stable kept_stable.toStableInside trivial ha))

omit hw hf in
theorem runMode_ends {m : Mode} {n : Chan} {u : Nat} {s0 s : State} (h : Within r s0 s) : Ends s0 (runMode m n u s) := by
  cases m with
  | single => exact (unitStep_ends h).andThen fun a _ => by split <;> trivial
  | block => exact (blockLoop_ends _ h).andThen fun a _ => trivial
  | repeatedSingle => exact (unitStep_ends h).andThen fun a _ => by split <;> trivial
  | repeatedBlock => exact (blockLoop_ends _ h).andThen fun a _ => trivial

theorem run_ends {n : Chan} {s0 s : State} (h : Within r s0 s) : Ends s0 (run write n s) := by
  unfold run
  split
  · exact Ends.fault h rfl (by simp)
  · have h1 : Within r s0 (startInvocation n s) := h.same rfl rfl rfl (room_congr rfl rfl rfl)
    simp only
    split
    · trivial
    · split
      · trivial
      · refine (runMode_ends h1).andThen fun a ha => ?_
        exact (emitPulses_ends hw hf _
          (h1.kept (runMode_stable kept_stable.toStableInside trivial ha).1)).andThen fun b _ => trivial

theorem swTrigger_ends {n : Chan} {s0 s : State} (h : Within r s0 s) : Ends s0 (swTrigger write n s) := by
  unfold swTrigger
  split
  · trivial
  · split
    · exact run_ends hw hf h
    · trivial

theorem trigPinHandler_ends {n : Chan} {i : Source} {b : Bool} {s0 s : State} (h : Within r s0 s) :
    Ends s0 (trigPinHandler write n i b s) := by
  unfold trigPinHandler
  repeat' split
  all_goals first | trivial | exact run_ends hw hf h

theorem regWrite_ends {x : RegId} {v : Word} {s0 s : State} (h : Within r s0 s) : Ends s0 (regWrite write x v s) := by
  have h0 : Within r s0 (s.record (.regWrite x v)) := h.kept (Kept.record _ _)
  by_cases hro : regPerm x = .ro
  · rw [regWrite_eq, if_pos hro]; trivial
  · by_cases hin : x ∈ s.inCallback
    · rw [regWrite_eq, if_neg hro, if_pos hin]
      exact Ends.fault h0 rfl (by simp)
    · cases x with
      | ctrl n =>
        rw [regWrite_ctrl_eq _ _ hin]
        split
        · refine Ends.andThen (pulse_ends hw hf (e := .request) ?_) fun a _ => trivial
          have h1 : Within r s0 (ctrlStored n v s) :=
            h.of rfl ⟨[.regWrite (.ctrl n) v, .handler (.ctrl n) v], rfl⟩ id (room_congr rfl rfl rfl)
          exact (h1.kept (Kept.arm _ n)).same rfl rfl rfl (room_congr rfl rfl rfl)
        · trivial
      | trigger n =>
        rw [regWrite_trigger _ _ hin]
        refine (swTrigger_ends hw hf ?_).andThen fun a _ => trivial
        have h1 := (h0.kept (Kept.commit _ (.trigger n) v)).same
          (t := ((s.record (.regWrite (.trigger n) v)).commit (.trigger n) v).enterHandler (.trigger n)) rfl rfl rfl
          (room_congr rfl rfl rfl)
        exact h1.kept (Kept.record _ _)
      | status k => exact absurd rfl hro
      | cfg k => rw [regWrite_plain _ _ hro rfl hin]; trivial
      | src n => rw [regWrite_plain _ _ hro rfl hin]; trivial
      | dst n => rw [regWrite_plain _ _ hro rfl hin]; trivial
      | size n => rw [regWrite_plain _ _ hro rfl hin]; trivial

theorem nestedOp_ends {i : Instr} {s0 s : State} (h : Within r s0 s) : Ends s0 (nestedOp write i s) := by
  cases i <;> simp only [nestedOp, regRead_eq, refuseNested]
  case pinWrite p b =>
    split
    · next hp =>
      refine hf s0 _ _ s ?_ h
      cases p <;> simp [State.isExtPin] at hp
      simp [State.dir, List.getElem?_eq_getElem hp]
    · trivial
  case portWrite k v =>
    split
    · next hp =>
      refine hf s0 _ _ s ?_ h
      simp only [State.isExtPort, decide_eq_true_eq] at hp
      simp [State.dir, List.getElem?_eq_getElem hp]
    · trivial
  all_goals first | trivial | exact regWrite_ends hw hf h | exact badAccess_ends h

theorem nestedOps_ends : ∀ (is : List Instr) {s0 s : State}, Within r s0 s → Ends s0 (nestedOps write is s) := by
  intro is
  induction is with
  | nil => intros; trivial
  | cons i is ih =>
    intro s0 s h
    exact (nestedOp_ends hw hf h).andThen fun a ha =>
      ih (h.kept (nestedOp_stable kept_stable.toStableInside (hw.uses kept_stable.toStableInside) trivial trivial ha))

theorem callback_ends {i : Sig} {v : SigVal} {s0 s : State} (h : Within r s0 s) : Ends s0 (callback write i v s) := by
  have h0 : Within r s0 (s.record (.callback i v)) := h.kept (Kept.record _ _)
  unfold callback
  simp only
  split
  · exact trigPinHandler_ends hw hf h0
  · exact nestedOps_ends hw hf _ h0
  · exact nestedOps_ends hw hf _ h0
  · trivial
  · trivial

theorem deliver_ends {old new : SigVal} : ∀ (is : List Sig) {s0 s : State}, Within r s0 s →
    Ends s0 (deliver write old new is s) := by
  intro is
  induction is with
  | nil => intros; trivial
  | cons i is ih =>
    intro s0 s h
    have h1 : Within r s0 (s.setSig i new) := h.kept (Kept.setSig s i new)
    refine Ends.andThen ?_ fun a ha => ih (h.kept ?_)
    · unfold deliverOne
      simp only
      split
      · exact callback_ends hw hf h1
      · trivial
    · unfold deliverOne at ha
      simp only at ha
      split at ha
      · exact (Kept.setSig s i new).trans
          (callback_stable kept_stable.toStableInside (hw.uses kept_stable.toStableInside) trivial ha)
      · cases ha
        exact Kept.setSig s i new

/-- A signal write over a writer with room for `r` signals ends so in a state with room for one more. -/
theorem writeSignal_ends {p : Sig} {v : SigVal} {s0 s : State} (hd : s.dir p ≠ none) (h : Within (r + 1) s0 s) :
    Ends s0 (writeSignal write p v s) := by
  have h0 : Within (r + 1) s0 (s.record (.sigWrite p v)) := h.kept (Kept.record _ _)
  cases hdir : s.dir p with
  | none => exact absurd hdir hd
  | some d =>
    cases d with
    | input => rw [writeSignal_input _ _ hdir]; trivial
    | output =>
      by_cases hv : s.fit p v = s.sig p
      · rw [writeSignal_same _ hdir hv]; trivial
      · by_cases hp : p ∈ s.propagating
        · simp only [writeSignal, State.record_dir, hdir, State.record_fit, State.record_sig, if_neg hv,
            State.record_propagating, if_pos hp]
          exact Ends.fault h0 rfl (by simp)
        · rw [writeSignal_change _ hdir hv hp]
          refine (deliver_ends hw hf _ ⟨?_, ?_, fun hm => ?_, ?_⟩).andThen fun a _ => trivial
          · simpa using h.params
          · simpa using h0.hist
          · simpa using h0.refusalMark hm
          · have := room_enterOutput (s := s.record (.sigWrite p v)) (v := s.fit p v) hp (by simpa using hdir)
            have hr := h0.room
            omega

end

/-- A signal write with more levels of nesting than there is room ends so (notes/assumptions/13.md). -/
theorem sigWrite_ends : ∀ (k : Nat) (s0 : State) (p : Sig) (v : SigVal) (s : State), s.dir p ≠ none →
    Within k s0 s → Ends s0 (sigWrite (k + 1) p v s) := by
  intro k
  induction k with
  | zero =>
    intro s0 p v s hd h
    rw [sigWrite_succ]
    have h0 : Within 0 s0 (s.record (.sigWrite p v)) := h.kept (Kept.record _ _)
    cases hdir : s.dir p with
    | none => exact absurd hdir hd
    | some d =>
      cases d with
      | input => rw [writeSignal_input _ _ hdir]; trivial
      | output =>
        by_cases hv : s.fit p v = s.sig p
        · rw [writeSignal_same _ hdir hv]; trivial
        · by_cases hp : p ∈ s.propagating
          · simp only [writeSignal, State.record_dir, hdir, State.record_fit, State.record_sig, if_neg hv,
              State.record_propagating, if_pos hp]
            exact Ends.fault h0 rfl (by simp)
          · have := room_enterOutput (v := v) hp hdir
            have hr := h.room
            omega
  | succ k ih =>
    intro s0 p v s hd h
    rw [sigWrite_succ]
    exact writeSignal_ends (sigWrite_stable kept_stable (k + 1)) (fun s0 p v s => ih s0 p v s) hd h

/-- The signal write of an operation at the top level ends so. -/
theorem topWrite_ends {r : Nat} {s0 s u : State} {p : Sig} {v : SigVal} (hd : s.dir p ≠ none) (h : Within r s0 s)
    (hr : r ≤ 16 + u.extPins.length + u.extPorts.length) : Ends s0 (topWrite u p v s) := by
  have : topWrite u = sigWrite ((16 + u.extPins.length + u.extPorts.length) + 1) := by
    unfold topWrite nestBound
    congr 1
    omega
  rw [this]
  exact sigWrite_ends _ s0 p v s hd ⟨h.params, h.hist, h.refusalMark, le_trans h.room hr⟩

end Sys2Proof.Machine
end

