-- ==== Sys2Proof/Tests/Slice0.lean ====
section
/-!
SUPPORT. Tests whose expected results are written from spec/: ill-formed operands, the decoding of every row, the vectors of
95_test_vectors.md one step at a time, and for every statement with hypotheses a state and operands that meet them.
-/

namespace Sys2Proof.Tests

open Sys2Proof.Machine

/-! ### Ill-formed operands (notes/assumptions/2.md; 41_signal_fabric.md R84) -/

theorem test_ill_formed_pin_index : (Instr.pinWrite (.ext (2 ^ 30)) true).wellFormed = false := by decide
theorem test_ill_formed_port_index : (Instr.portWrite (2 ^ 32) 0).wellFormed = false := by decide
theorem test_ill_formed_bind_left : (Instr.bind (.pin (.ext (2 ^ 30))) (.pin (.trig 0 0))).wellFormed = false := by decide
theorem test_ill_formed_bind_right : (Instr.bind (.pin (.done 0)) (.port (2 ^ 32))).wellFormed = false := by decide
theorem test_ill_formed_port_width :
    (Instr.createPort 0 .out 0 none none).wellFormed = false ∧ (Instr.createPort 0 .out 65 none none).wellFormed = false := by
  decide
theorem test_well_formed_bounds :
    (Instr.pinWrite (.ext (2 ^ 30 - 1)) true).wellFormed = true ∧ (Instr.portWrite (2 ^ 32 - 1) 0).wellFormed = true ∧
      (Instr.createPort 0 .out 1 none none).wellFormed = true ∧ (Instr.createPort 0 .out 64 none none).wellFormed = true := by
  decide

/-! ### Decoding: descriptors from 30_encoding.md R60, R62, R73, low byte first -/

/-- What the decoder reads from exactly these bytes. -/
def reads (bytes : List Byte) : Option Instr :=
  match decode .little bytes with
  | .ok (i, []) => some i
  | _ => none

/-- Class 0: offset 0x20·n + 0, 4, 8, 0xC, 0x10; 0x100 + 4·k; 0x110 + 4·k. -/
theorem test_decode_reads :
    reads [0x60, 0x00] = some (.rdCtrl 3) ∧ reads [0x24, 0x00] = some (.rdSrc 1) ∧ reads [0x48, 0x00] = some (.rdDst 2) ∧
      reads [0xEC, 0x00] = some (.rdSize 7) ∧ reads [0x90, 0x00] = some (.rdTrigger 4) ∧
      reads [0x0C, 0x01] = some (.rdCfg 3) ∧ reads [0x18, 0x01] = some (.rdStatus 2) := by decide

/-- Class 1, with the data word 0x00000F10 of 95_test_vectors.md L3.1 in little-endian order. -/
theorem test_decode_writes :
    reads [0x00, 0x10, 0x10, 0x0F, 0, 0] = some (.wrCtrl 0 0x0F10) ∧
      reads [0x04, 0x10, 0x00, 0x10, 0, 0] = some (.wrSrc 0 0x1000) ∧
      reads [0x68, 0x10, 0x00, 0x40, 0, 0] = some (.wrDst 3 0x4000) ∧
      reads [0x2C, 0x10, 4, 0, 0, 0] = some (.wrSize 1 4) ∧
      reads [0x70, 0x10, 0x80, 0, 0, 0] = some (.wrTrigger 3 0x80) ∧
      reads [0x04, 0x11, 0, 0, 0x07, 0] = some (.wrCfg 1 0x00070000) ∧
      reads [0x14, 0x11, 0, 0, 0, 0] = some (.wrStatus 1 0) := by decide

/-- The same data word in big-endian order (20_memory.md R45). -/
theorem test_decode_big_endian :
    decode .big [0x00, 0x10, 0, 0, 0x0F, 0x10] = .ok (.wrCtrl 0 0x0F10, []) := by rfl

/-- Classes 2 to 9; the operands as notes/assumptions/2.md lays them out. -/
theorem test_decode_signals :
    reads [0x00, 0x20, 5, 0, 0, 0, 1] = some (.pinWrite (.ext 5) true) ∧
      reads [0x00, 0x30, 1, 0, 0, 0, 5, 0, 0, 0, 2, 0, 0, 0] = some (.portWrite 1 0x200000005) ∧
      reads [0x00, 0x40, 0, 0x01, 0, 0, 0x80, 0, 0x23, 0, 0, 0x40] =
        some (.bind (.pin (.done 1)) (.pin (.trig 1 3))) ∧
      reads [0x00, 0x40, 0, 0x07, 0, 0, 0xC0, 1, 2, 0, 0, 0] = some (.bind (.pin (.reqo 7)) (.port 2)) ∧
      reads [0x00, 0x50] = some .teardown ∧ reads [0x00, 0x60] = some .reset := by decide

theorem test_decode_creates :
    reads [0x00, 0x70, 1, 0, 0, 0, 3, 1, 2, 0, 0, 0, 0] = some (.createPin 1 .inPosedge (some 2) none) ∧
      reads [0x00, 0x80, 1, 0, 0, 0, 1, 63, 0, 0] = some (.createPort 1 .inp 64 none none) ∧
      reads [0x00, 0x90, 1, 0, 0, 0, 8, 0, 0, 0, 2, 0, 3, 0, 0, 0, 0xFF, 0, 0, 0, 0] =
        some (.createReg 1 8 .rw (.w32 3 0xFF) none) := by decide

/-- The reserved rows, at the first and last value of each. -/
theorem test_decode_reserved_offsets :
    reads [0x14, 0x00] = some (.rsvChOff14 .read 0) ∧ reads [0xF4, 0x10] = some (.rsvChOff14 .write 7) ∧
      reads [0x18, 0x00] = some (.rsvChOff18 .read 0 false) ∧ reads [0xFC, 0x10] = some (.rsvChOff18 .write 7 true) ∧
      reads [0x20, 0x01] = some (.rsvOff120 .read 0) ∧ reads [0x3C, 0x11] = some (.rsvOff120 .write 7) ∧
      reads [0x40, 0x01] = some (.rsvOff140 .read 0) ∧ reads [0x7C, 0x11] = some (.rsvOff140 .write 15) ∧
      reads [0x80, 0x01] = some (.rsvOff180 .read 0) ∧ reads [0xFC, 0x11] = some (.rsvOff180 .write 31) ∧
      reads [0x01, 0x00] = some (.rsvMisalignedB0 .read 0) ∧ reads [0xFF, 0x11] = some (.rsvMisalignedB0 .write 255) ∧
      reads [0x02, 0x00] = some (.rsvMisalignedB1 .read 0) ∧ reads [0xFE, 0x11] = some (.rsvMisalignedB1 .write 127) := by
  decide

theorem test_decode_reserved_classes :
    reads [0x00, 0xA0] = some (.rsvCls10 0) ∧ reads [0xFF, 0xBF] = some (.rsvCls10 0x1FFF) ∧
      reads [0x00, 0xC0] = some (.rsvCls12 0) ∧ reads [0xFF, 0xFF] = some (.rsvCls12 0x3FFF) := by decide

/-- What names no operation: z ≠ 0; an offset outside classes 0 and 1; missing bytes; an operand out of range. -/
theorem test_decode_refuses :
    decode .little [0x00, 0x02] = .error (.reservedDescriptor 0x0200) ∧
      decode .little [0x01, 0x60] = .error (.reservedDescriptor 0x6001) ∧
      decode .little [0x00] = .error .truncatedDescriptor ∧
      decode .little [0x00, 0x10, 0, 0, 0] = .error (.malformedOperands 0x1000) ∧
      decode .little [0x00, 0x20, 0, 0, 0, 0, 2] = .error (.malformedOperands 0x2000) := by
  refine ⟨?_, ?_, ?_, ?_, ?_⟩ <;> rfl

/-- The host's reading of a table row: 16 bits, operands zero. -/
theorem test_decode_table_words :
    decodeTableWord 16 0x1060 = some (.wrCtrl 3 0) ∧ decodeTableWord 16 0x7000 = some (.createPin 0 .out none none) ∧
      decodeTableWord 16 0x8000 = some (.createPort 0 .out 1 none none) ∧
      decodeTableWord 16 0x9000 = some (.createReg 0 0 .ro (.w32 0 0) none) := by decide

/-- The packet of a table row is the next operation that runs. -/
theorem test_fetch_word : step (State.reset.withFetchWord 16 0x6000) = .next State.reset := by rfl

/-! ### Vectors of 95_test_vectors.md -/

/-- A fact about the next state. -/
def after (o : Result) (f : State → Bool) : Bool :=
  match o with
  | .next t => f t
  | _ => false

/-- Reset with channel n set up as the vectors say: CTRL (and the sensitivities it gives), SRC, DST, SIZE, TRIGGER. The plain
byte memory answers. -/
def setup (n : Chan) (ctrl src dst size trigger : Word) (s : State) : State :=
  { s.modChan n fun c =>
    { c with
      ctrl := { cur := ctrl, prev := 0 }
      src := { cur := src, prev := 0 }
      dst := { cur := dst, prev := 0 }
      size := { cur := size, prev := 0 }
      trigger := { cur := trigger, prev := 0 }
      wk := { src := src, dst := dst, size := size }
      trig := mapEntries (fun p => { p with sens := sensOf (ctrlLevel defaultCtrlLayout ctrl) }) c.trig } with
    params := { s.params with busKind := .memory } }

/-- The events of bus requests, each as its address and length; writes are marked true. -/
def requests (s : State) : List (Bool × Nat × Nat) :=
  s.hist.filterMap fun
    | .memRead a bs _ => some (false, a, bs.length)
    | .memWrite a bs _ => some (true, a, bs.length)
    | _ => none

/-- The errors recorded. -/
def errors (s : State) : List Err :=
  s.hist.filterMap fun
    | .error e => some e
    | _ => none

/-- The writes of signals recorded. -/
def sigWrites (s : State) : List (Sig × SigVal) :=
  s.hist.filterMap fun
    | .sigWrite p v => some (p, v)
    | _ => none

/-- The callbacks recorded. -/
def callbacks (s : State) : List (Sig × SigVal) :=
  s.hist.filterMap fun
    | .callback p v => some (p, v)
    | _ => none

/-- The flags of a channel as its STATUS slot. -/
def slotOf (s : State) (n : Chan) : Word := slot (s.chan n).st

/-- A fact about a fault. -/
def faulted (o : Result) (f : Fault → Bool) : Bool :=
  match o with
  | .fault r => f r
  | _ => false

/-- V3.8: DMAREQ is stored and read back. -/
theorem test_rd_ctrl : after (exec (.rdCtrl 0) (setup 0 0x0001 0 0 0 0 State.reset)) (fun t =>
    t.hist == [.regRead (.ctrl 0) 0x00000001]) = true := by decide

/-- V1.2: every bit written; the mask keeps 0xFFF1; sens = level; st[0] = {req}; ch0.req pulsed; wk0 loaded. -/
theorem test_wr_ctrl_ones : after (exec (.wrCtrl 0 0xFFFFFFFF) (setup 0 0 0x1000 0x2000 8 0 State.reset)) (fun t =>
    (t.chan 0).ctrl == { cur := 0x0000FFF1, prev := 0 } && slotOf t 0 == 0x4 &&
      t.sens (.pin (.trig 0 31)) == .level && sigWrites t == [(.pin (.reqo 0), 1), (.pin (.reqo 0), 0)] &&
      (t.chan 0).wk == { src := 0x1000, dst := 0x2000, size := 8 }) = true := by decide

/-- V7.3: ch0.req bound to its own selected input. The nested run moves one unit, and its request pulse falls inside the
outer one: OutputReentrancy. -/
theorem test_wr_ctrl_self_trigger : faulted (exec (.wrCtrl 0 0x0F10)
    { setup 0 0 0x1000 0x2000 8 0 State.reset with bindings := [(.pin (.reqo 0), .pin (.trig 0 0))] }) (fun
      | .outputReentrancy p t => p == .pin (.reqo 0) && (t.chan 0).size.cur == 4 && t.faultMark
      | _ => false) = true := by decide

/-- R99's example. -/
theorem test_wr_src : after (exec (.wrSrc 0 0x1000) State.reset) (fun t =>
    (t.chan 0).src == { cur := 0x1000, prev := 0 } && (t.chan 0).wk.src == 0) = true := by decide
/-- R100: the current value. -/
theorem test_rd_src : after (exec (.rdSrc 7) (setup 7 0 0x1004 1 2 3 State.reset)) (fun t =>
    t.hist == [.regRead (.src 7) 0x1004]) = true := by decide
/-- R101's example. -/
theorem test_wr_dst : after (exec (.wrDst 0 0x2000) State.reset) (fun t =>
    (t.chan 0).dst == { cur := 0x2000, prev := 0 } && (t.chan 0).wk.dst == 0) = true := by decide
theorem test_rd_dst : after (exec (.rdDst 7) (setup 7 0 1 0x2008 2 3 State.reset)) (fun t =>
    t.hist == [.regRead (.dst 7) 0x2008]) = true := by decide
/-- R103: a size that is no multiple of the unit is stored; the old value becomes the previous one. -/
theorem test_wr_size : after (exec (.wrSize 0 6) (setup 0 0 0 0 8 0 State.reset)) (fun t =>
    (t.chan 0).size == { cur := 6, prev := 8 } && (t.chan 0).wk.size == 8) = true := by decide
theorem test_rd_size : after (exec (.rdSize 7) (setup 7 0 1 2 0x4 3 State.reset)) (fun t =>
    t.hist == [.regRead (.size 7) 0x4]) = true := by decide
/-- R108's example. -/
theorem test_rd_trigger : after (exec (.rdTrigger 0) (setup 0 0 1 2 3 0x80000001 State.reset)) (fun t =>
    t.hist == [.regRead (.trigger 0) 0x80000001]) = true := by decide

/-- The events of a TRIGGER write of channel 0 whose TRIGGER0 holds `p` and whose fields are in `ctrl`. -/
def trigger0 (ctrl p v : Word) : Result := exec (.wrTrigger 0 v) (setup 0 ctrl 0x1000 0x2000 4 p State.reset)

/-- V4.1 to V4.7: accepted, ignored, or E5. -/
theorem test_wr_trigger_table :
    after (trigger0 0x8F30 0 1) (fun t => requests t == [(false, 0x1000, 4), (true, 0x2000, 4)]) = true ∧
      after (trigger0 0x8F30 1 0) (fun t => requests t == [(false, 0x1000, 4), (true, 0x2000, 4)]) = true ∧
      after (trigger0 0x8F30 1 1) (fun t => requests t == [] && errors t == []) = true ∧
      after (trigger0 0x8F10 0 1) (fun t => requests t == [] && errors t == []) = true ∧
      after (trigger0 0x0F30 0 1) (fun t => requests t == [] && errors t == []) = true ∧
      after (trigger0 0x8F20 0 1) (fun t => errors t == [.triggerWhileDisabled 0] &&
        (t.chan 0).trigger == { cur := 1, prev := 0 }) = true ∧
      after (trigger0 0x0F00 1 1) (fun t => errors t == [.triggerWhileDisabled 0]) = true := by decide

/-- L3.2 step 7: a reversing byte copy by channel 3, selector 7. -/
theorem test_wr_trigger_block : after (exec (.wrTrigger 3 0x80)
    { setup 3 0x9EF0 0x3002 0x4000 3 0 State.reset with
      cfg := State.reset.cfg.set 1 { cur := 0x00070000, prev := 0 }
      mem := [(0x3000, 0xA0), (0x3001, 0xA1), (0x3002, 0xA2)] }) (fun t =>
    memGetAll t.mem [0x4000, 0x4001, 0x4002] == [0xA2, 0xA1, 0xA0] &&
      requests t == [(false, 0x3002, 1), (true, 0x4000, 1), (false, 0x3001, 1), (true, 0x4001, 1), (false, 0x3000, 1),
        (true, 0x4002, 1)] &&
      (t.chan 3).src.cur == 0x2FFF && (t.chan 3).dst.cur == 0x4003 && (t.chan 3).size.cur == 0 &&
      (t.chan 3).ctrl.cur == 0x9EE0 && slotOf t 3 == 1 &&
      sigWrites t == [(.pin (.done 3), 1), (.pin (.done 3), 0)]) = true := by decide

/-- V1.1. -/
theorem test_wr_cfg : after (exec (.wrCfg 0 0xFFFFFFFF) State.reset) (fun t =>
    t.cfgCell 0 == { cur := 0x001F001F, prev := 0 }) = true := by decide
/-- V3.1 and V3.2: the selectors. -/
theorem test_wr_cfg_selectors : after (exec (.wrCfg 0 0x00030005) State.reset) (fun t =>
    t.tsel 0 == 5 && t.tsel 1 == 3 && t.tsel 2 == 0) = true ∧
    after (exec (.wrCfg 3 0x001F0000) State.reset) (fun t => t.tsel 6 == 0 && t.tsel 7 == 31) = true := by decide
theorem test_rd_cfg : after (exec (.rdCfg 1) (State.reset.setCfg 1 { cur := 0x00070000, prev := 5 })) (fun t =>
    t.hist == [.regRead (.cfg 1) 0x00070000]) = true := by decide

/-- V3.3: channel 0 {req} and channel 1 {done}. -/
theorem test_rd_status : after (exec (.rdStatus 0)
    (modFlags (modFlags State.reset 0 fun f => { f with req := true }) 1 fun f => { f with done := true })) (fun t =>
    t.hist == [.regRead (.status 0) 0x00010004]) = true := by decide
/-- V3.4: channel 6 {err} and channel 7 {done, req}. -/
theorem test_rd_status_odd : after (exec (.rdStatus 3)
    (modFlags (modFlags State.reset 6 fun f => { f with err := true }) 7 fun f => { f with done := true, req := true }))
    (fun t => t.hist == [.regRead (.status 3) 0x00050008]) = true := by decide
/-- V1.4. -/
theorem test_wr_status : after (exec (.wrStatus 0 0) (modFlags State.reset 0 fun f => { f with done := true })) (fun t =>
    slotOf t 0 == 1 && errors t == [.writeReadOnly (.status 0)]) = true := by decide

/-- L3.1 step 9: the second unit empties SIZE; done is pulsed, EN cleared, the bytes copied. -/
theorem test_pin_write_single : after (exec (.pinWrite (.ext 0) true)
    { setup 0 0x0F10 0x1004 0x2004 4 0 State.reset with
      bindings := [(.pin (.ext 0), .pin (.trig 0 0))]
      mem := [(0x1004, 0x55), (0x1005, 0x66), (0x1006, 0x77), (0x1007, 0x88)] }) (fun t =>
    memGetAll t.mem [0x2004, 0x2005, 0x2006, 0x2007] == [0x55, 0x66, 0x77, 0x88] &&
      (t.chan 0).src.cur == 0x1008 && (t.chan 0).dst.cur == 0x2008 && (t.chan 0).size.cur == 0 &&
      (t.chan 0).ctrl.cur == 0x0F00 && slotOf t 0 == 1 && t.sig (.pin (.trig 0 0)) == 1) = true := by decide

/-- L3.3 step 14: the last unit of a repeated pass; its done pulse runs channel 1, before the request pulse. -/
theorem test_pin_write_chains : after (exec (.pinWrite (.ext 0) true)
    { (setup 1 0x1F10 0x6000 0x7000 4 0 (setup 0 0x4310 0x1000 0x5000 8 0 State.reset)).modChan 0 (fun c =>
        { c with wk := { src := 0x1004, dst := 0x5000, size := 4 } }) with
      cfg := State.reset.cfg.set 0 { cur := 0x00050000, prev := 0 }
      bindings := [(.pin (.ext 0), .pin (.trig 0 0)), (.pin (.done 0), .pin (.trig 1 5))] }) (fun t =>
    requests t == [(false, 0x1004, 4), (true, 0x5000, 4), (false, 0x6000, 4), (true, 0x7000, 4)] &&
      (t.chan 0).wk == { src := 0x1000, dst := 0x5000, size := 8 } && slotOf t 0 == 5 && slotOf t 1 == 1 &&
      sigWrites t == [(.pin (.ext 0), 1), (.pin (.done 0), 1), (.pin (.done 1), 1), (.pin (.done 1), 0),
        (.pin (.done 0), 0), (.pin (.reqo 0), 1), (.pin (.reqo 0), 0)]) = true := by decide

/-- A platform with other devices' inputs: pins 1 (posedge), 2 (negedge) and 3 (level), all with callbacks, and an 8-bit
input port with a callback. -/
def listeners : State :=
  { State.reset with
    extPins := [extT, { name := 1, mode := .inPosedge, state := false, cb := some 1, ctx := none },
      { name := 2, mode := .inNegedge, state := false, cb := some 2, ctx := none },
      { name := 3, mode := .inLevel, state := false, cb := some 3, ctx := none }]
    extPorts := [extP, { name := 4, mode := .inp, width := 8, state := 0, cb := some 4, ctx := none }]
    bindings := [(.pin (.ext 0), .pin (.ext 1)), (.pin (.ext 0), .pin (.ext 2)), (.pin (.ext 0), .pin (.ext 3)),
      (.port 0, .port 1)] }

/-- V2.13: the bound port takes 0x05 and its callback runs once. -/
theorem test_port_write : after (exec (.portWrite 0 0x105) listeners) (fun t =>
    t.sig (.port 1) == 5 && callbacks t == [(.port 1, 5)]) = true := by decide
/-- V2.10 for a port: a write to an input. -/
theorem test_port_write_input : after (exec (.portWrite 1 1) listeners) (fun t =>
    t.sig (.port 1) == 0 && errors t == [.writeToInput (.port 1)]) = true := by decide
/-- V2.11 and V2.15: a rise reaches i1 and i3, in that order. -/
theorem test_edge_gating : after (topWrite listeners (.pin (.ext 0)) 1 listeners) (fun t =>
    callbacks t == [(.pin (.ext 1), 1), (.pin (.ext 3), 1)] && t.sig (.pin (.ext 2)) == 1) = true := by decide

/-- V2.2: the arguments reversed. -/
theorem test_bind : after (exec (.bind (.pin (.trig 0 0)) (.pin (.ext 0))) State.reset) (fun t =>
    t.bindings == [(.pin (.ext 0), .pin (.trig 0 0))] && t.hist == []) = true := by decide
/-- V2.4, V2.5, V2.8: the three rejections. -/
theorem test_bind_rejects :
    after (exec (.bind (.pin (.trig 0 0)) (.pin (.trig 1 0))) State.reset) (fun t =>
      errors t == [.bindModeMatch (.pin (.trig 0 0)) (.pin (.trig 1 0))]) = true ∧
    after (exec (.bind (.port 0) (.pin (.trig 0 0))) State.reset) (fun t =>
      errors t == [.bindShapeMismatch (.port 0) (.pin (.trig 0 0))]) = true ∧
    after (exec (.bind (.pin (.ext 0)) (.pin (.ext 1))) listeners) (fun t =>
      errors t == [.bindInputAlreadyBound (.pin (.ext 0)) (.pin (.ext 1))] && t.bindings == listeners.bindings) = true := by
  decide

/-- V2.14: no binding is left; the other devices' pins are. -/
theorem test_teardown : after (exec .teardown listeners) (fun t => t.bindings == [] && t.extPins == listeners.extPins) =
    true := by decide

/-- V8.1: registers, flags and working copy 0; bindings kept; the external output keeps its state. -/
theorem test_reset : after (exec .reset
    { modFlags (setup 0 0x0F30 0x1004 0x2004 4 1 State.reset) 0 Flags.armed with
      extPins := [{ extT with state := true }], bindings := [(.pin (.ext 0), .pin (.trig 0 0))] }) (fun t =>
    t.chans == State.reset.chans && t.cfg == State.reset.cfg && t.bindings == [(.pin (.ext 0), .pin (.trig 0 0))] &&
      t.sig (.pin (.ext 0)) == 1) = true := by decide

/-- R83: an input of sensitivity negedge, state 0. -/
theorem test_create_pin : after (exec (.createPin 9 .inNegedge (some 1) none) State.reset) (fun t =>
    t.dir (.pin (.ext 1)) == some .input && t.sens (.pin (.ext 1)) == .negedge && t.hasCallback (.pin (.ext 1)) &&
      t.sig (.pin (.ext 1)) == 0) = true := by decide
/-- R84's example: an 8-bit output port with state 0x00. -/
theorem test_create_port : after (exec (.createPort 9 .out 8 none none) State.reset) (fun t =>
    t.dir (.port 1) == some .output && t.shape (.port 1) == some 8 && t.sig (.port 1) == 0) = true := by decide
/-- R76: the initial value is stored unmasked; a read-only register's callback gives it no write handler. -/
theorem test_create_reg : after (exec (.createReg 9 8 .ro (.w32 0x103 0xFF) (some 1)) State.reset) (fun t =>
    t.otherRegs ==
      [⟨9, 8, .w32 { cur := 0x103, prev := 0x103, mask := 0xFF, perm := .ro, role := .readOnly }⟩]) = true := by decide

/-- V1.9: a write at 0x014, which is in the history (R36). -/
theorem test_rsv_off14 : faulted (exec (.rsvChOff14 .write 0) State.reset) (fun
    | .badAccess off w t => off == 0x014 && w == 4 && t.faultMark && t.hist == [.badAccess .write 0x014 4]
    | _ => false) = true := by decide
/-- R73(a): 0x1C + 0x20·7. -/
theorem test_rsv_off18 : faulted (exec (.rsvChOff18 .read 7 true) State.reset) (fun
    | .badAccess off w _ => off == 0x0FC && w == 4
    | _ => false) = true := by decide
/-- R62: the first and last reserved offset above STATUS. -/
theorem test_rsv_off120 : faulted (exec (.rsvOff120 .read 0) State.reset) (fun
    | .badAccess off w _ => off == 0x120 && w == 4
    | _ => false) = true := by decide
theorem test_rsv_off140 : faulted (exec (.rsvOff140 .read 15) State.reset) (fun
    | .badAccess off w _ => off == 0x17C && w == 4
    | _ => false) = true := by decide
theorem test_rsv_off180 : faulted (exec (.rsvOff180 .read 31) State.reset) (fun
    | .badAccess off w _ => off == 0x1FC && w == 4
    | _ => false) = true := by decide
/-- R43: an odd offset, and V1.9's read at 0x002. -/
theorem test_rsv_misaligned_b0 : faulted (exec (.rsvMisalignedB0 .read 255) State.reset) (fun
    | .badAccess off w _ => off == 0x1FF && w == 4
    | _ => false) = true := by decide
theorem test_rsv_misaligned_b1 : faulted (exec (.rsvMisalignedB1 .read 0) State.reset) (fun
    | .badAccess off w _ => off == 0x002 && w == 4
    | _ => false) = true := by decide
/-- R73(a2): the reserved classes. -/
theorem test_rsv_cls10 : exec (.rsvCls10 0x1001) State.reset =
    .refused (.reservedDescriptor 0xB001 State.reset.markRefused) := by rfl
theorem test_rsv_cls12 : exec (.rsvCls12 0x3002) State.reset =
    .refused (.reservedDescriptor 0xF002 State.reset.markRefused) := by rfl

/-! ### Shared operations -/

/-- V1.7. -/
theorem test_transitioned : transitioned 0x1 0x0 0 = true ∧ transitioned 0x4 0x5 2 = false ∧
    transitioned 0x0 0x80000000 31 = true := by decide

/-- V6.1 to V6.5. -/
theorem test_adj : adj 0x00001000 3 4 = 0x00001004 ∧ adj 0x00001000 2 4 = 0x00000FFC ∧ adj 0x00001000 1 4 = 0x00001000 ∧
    adj 0x00001000 0 1 = 0x00001000 ∧ adj 0xFFFFFFFC 3 4 = 0 ∧ adj 0 2 1 = 0xFFFFFFFF := by decide

/-- V6.7: SIZE 6 in word units: one pair of requests, then SizeUnderrun with 2 bytes left. -/
theorem test_run_underrun : faulted (run (topWrite State.reset) 0 (setup 0 0x1F10 0x1000 0x2000 6 0 State.reset)) (fun
    | .sizeUnderrun n left u t => n == 0 && left == 2 && u == 4 && requests t == [(false, 0x1000, 4), (true, 0x2000, 4)]
    | _ => false) = true := by decide

/-- V5.7: one trigger of Repeated block moves both units and reloads. -/
theorem test_run_repeated_block :
    after (run (topWrite State.reset) 0 (setup 0 0x5F10 0x1000 0x2000 8 0 State.reset)) (fun t =>
      requests t == [(false, 0x1000, 4), (true, 0x2000, 4), (false, 0x1004, 4), (true, 0x2004, 4)] &&
        (t.chan 0).wk == { src := 0x1000, dst := 0x2000, size := 8 } && slotOf t 0 == 5 &&
        (t.chan 0).ctrl.cur == 0x5F10 && (t.chan 0).src.cur == 0x1000) = true := by decide

/-- V5.9 and V5.10: E2, and E1 for MODE 7; no request, no pulse. -/
theorem test_run_configuration_errors :
    after (run (topWrite State.reset) 0 (setup 0 0x0F50 1 2 4 0 State.reset)) (fun t =>
      slotOf t 0 == 8 && t.hist == [.error (.unitSizeMismatch 0)] && (t.chan 0).ctrl.cur == 0x0F50) = true ∧
    after (run (topWrite State.reset) 0 (setup 0 0x7F50 1 2 4 0 State.reset)) (fun t =>
      slotOf t 0 == 8 && t.hist == [.error (.unsupportedMode 0 7)]) = true := by decide

/-- V6.10: the first read of a Block transfer fails and the write is skipped; the second unit is normal. -/
theorem test_run_read_failure :
    after (run (topWrite State.reset) 0
      { setup 0 0x1F10 0x1000 0x2000 8 0 State.reset with
        params := Params.default
        answers := [{ ok := false, bytes := #v[0, 0, 0, 0] }, { ok := false, bytes := #v[0, 0, 0, 0] },
          { ok := true, bytes := #v[1, 2, 3, 4] }, { ok := true, bytes := #v[0, 0, 0, 0] }] }) (fun t =>
      requests t == [(false, 0x1000, 4), (false, 0x1004, 4), (true, 0x2004, 4)] &&
        errors t == [.busReadFail 0 0x1000] && slotOf t 0 == 1 && (t.chan 0).size.cur == 0) = true := by decide

/-- V1.8: ch0.done bound to another device's input whose callback writes TRIGGER0 from inside the handler of TRIGGER0. -/
theorem test_register_reentrancy : faulted (exec (.wrTrigger 0 1)
    { setup 0 0x8F30 0x1000 0x2000 4 0 listeners with
      bindings := [(.pin (.done 0), .pin (.ext 1))]
      params := { Params.default with
        busKind := .memory
        envReact := [{ input := .pin (.ext 1), value := 1, ops := [.wrTrigger 0 0] }] } }) (fun
      | .registerReentrancy r _ => r == .trigger 0
      | _ => false) = true := by decide

/-- V7.1: Repeated block whose done output reaches its own selected input. -/
theorem test_reentrant_channel : faulted (run (topWrite State.reset) 0
    { setup 0 0x5F10 0x1000 0x2000 8 0 State.reset with bindings := [(.pin (.done 0), .pin (.trig 0 0))] }) (fun
      | .reentrantChannel n _ => n == 0
      | _ => false) = true := by decide

/-! ### States and operands that meet the hypotheses of the statements -/

theorem exists_of_after {o : Result} (h : after o (fun _ => true) = true) : ∃ t, o = .next t := by
  cases o with
  | next t => exact ⟨t, rfl⟩
  | fault r => cases h
  | refused r => cases h

/-- Reset with one packet issued. -/
def issued (bytes : List Byte) (width : Nat) : State := State.reset.issueNext { bytes := bytes, width := width }

theorem test_meets_DecodeEncodeInverse : (Instr.pinWrite (.ext (2 ^ 30 - 1)) true).wellFormed = true ∧
    (Instr.createPort 0 .inp 64 none none).wellFormed = true ∧
    decode .big [0x00, 0x60, 7] = .ok (.reset, [7]) ∧ decode .little [0xFF, 0x11, 7] = .ok (.rsvMisalignedB0 .write 255, [7]) :=
  ⟨by decide, by decide, rfl, rfl⟩

/-- z ≠ 0; the first and last reserved class; off ≠ 0 in the first and last class where it must be 0. -/
theorem test_meets_NamelessDescriptorRefused :
    (BitVec.extractLsb' 9 3 0x0200#16 ≠ 0) ∧ (10 ≤ (BitVec.extractLsb' 12 4 0xA000#16).toNat) ∧
    (10 ≤ (BitVec.extractLsb' 12 4 0xFFFF#16).toNat) ∧
    (2 ≤ (BitVec.extractLsb' 12 4 0x2001#16).toNat ∧ BitVec.extractLsb' 0 9 0x2001#16 ≠ 0) ∧
    (2 ≤ (BitVec.extractLsb' 12 4 0x9100#16).toNat ∧ BitVec.extractLsb' 0 9 0x9100#16 ≠ 0) ∧
    (issued [0x00, 0x02] 4).pending =
      [{ bytes := [BitVec.extractLsb' 0 8 0x0200#16, BitVec.extractLsb' 8 8 0x0200#16], width := 4 }] := by decide

/-- A register map that exchanges CTRL0 and SRC0, puts CFG0 at an offset the default map reserves, and has nothing else. -/
def otherMap : RegMap := [(0x000, .src 0), (0x004, .ctrl 0), (0x014, .cfg 0)]

/-- RESET, RD CTRL3, and a read at 0x004 in another map. -/
theorem test_meets_StepRunsDecoded :
    (rowPacket defaultRegMap [0x00, 0x60] = some [0x00, 0x60] ∧ decode .little [0x00, 0x60] = .ok (.reset, []) ∧
      isRegAccess .reset = false) ∧
    (rowPacket defaultRegMap [0x60, 0x00] = some [0x60, 0x00] ∧ decode .little [0x60, 0x00] = .ok (.rdCtrl 3, []) ∧
      isRegAccess (.rdCtrl 3) = true) ∧
    (rowPacket otherMap [0x04, 0x00] = some [0x00, 0x00] ∧ decode .little [0x00, 0x00] = .ok (.rdCtrl 0, [])) ∧
    (issued [0x60, 0x00] 4).pending = [{ bytes := [0x60, 0x00], width := 4 }] :=
  ⟨⟨by decide, rfl, by decide⟩, ⟨by decide, rfl, by decide⟩, ⟨by decide, rfl⟩, by decide⟩

theorem test_meets_OffsetMap : regIn otherMap 0x014 = some (.cfg 0) ∧ regIn otherMap 0x000 = some (.src 0) := by decide

theorem test_meets_NothingIssuedNothingHappens : State.reset.pending = [] := rfl

/-- R43: a 1-byte write of CTRL0 that carries its one data byte. -/
theorem test_narrow_write : faulted (step (issued [0x00, 0x10, 0xFF] 1)) (fun
    | .badAccess off w t => off == 0 && w == 1 && t.hist == [.badAccess .write 0 1] && t.pending == []
    | _ => false) = true := by decide

/-- V1.9: a 2-byte read at 0x000, and the widths beside 4; a 1-byte write with its one data byte; accesses at offsets that
hold no register, in the default map and in another. -/
theorem test_meets_UnacceptableAccessesFault :
    (∀ w ∈ [0, 2, 3, 5, 8], (issued [0x00, 0x00] w).pending =
      [{ bytes := [BitVec.extractLsb' 0 8 0x0000#16, BitVec.extractLsb' 8 8 0x0000#16], width := w }] ∧ w ≠ 4) ∧
    (BitVec.extractLsb' 9 3 0x01FC#16 = 0 ∧ (BitVec.extractLsb' 12 4 0x01FC#16).toNat ≤ 1) ∧
    (BitVec.extractLsb' 9 3 0x1112#16 = 0 ∧ (BitVec.extractLsb' 12 4 0x1112#16).toNat ≤ 1) ∧
    (∀ off ∈ [0x014#9, 0x120, 0x1FC, 0x001, 0x112], regIn defaultRegMap off = none) ∧
    regIn otherMap 0x008 = none ∧ (issued [0x00, 0x10, 0xFF] 1).pending =
      [{ bytes := BitVec.extractLsb' 0 8 0x1000#16 :: BitVec.extractLsb' 8 8 0x1000#16 :: [0xFF], width := 1 }] :=
  ⟨by decide, by decide, by decide, by decide +kernel, by decide, by decide⟩

theorem test_meets_CreatePinResult :
    after (exec (.createPin 1 .inLevel none none) State.reset) (fun t => t.sens (.pin (.ext 1)) == .level) = true ∧
    after (exec (.createPin 1 .inPosedge none none) State.reset) (fun t => t.sens (.pin (.ext 1)) == .posedge) = true := by
  decide

theorem test_meets_CreatePortResult :
    (∀ w ∈ [1, 64], after (exec (.createPort 1 .inp w none none) State.reset)
      (fun t => t.shape (.port 1) == some w && t.dir (.port 1) == some .input) = true) ∧
    ∀ w ∈ [0, 65], after (exec (.createPort 1 .inp w none none) State.reset) (fun _ => true) = false := by decide

theorem test_meets_DataRegisterWrites : .src 0 ∉ State.reset.inCallback ∧ .dst 7 ∉ State.reset.inCallback ∧
    .size 3 ∉ State.reset.inCallback := by decide

theorem test_meets_CfgWrite : .cfg 3 ∉ State.reset.inCallback ∧ (6 : Chan) = evenChan 3 ∧ (7 : Chan) = oddChan 3 ∧
    (0 : Chan) ≠ evenChan 3 ∧ (0 : Chan) ≠ oddChan 3 := by decide

theorem test_meets_RegisterReentrancyFaults :
    .ctrl 0 ∈ ((State.reset.enterHandler (.ctrl 0)).enterHandler (.trigger 0)).inCallback ∧ regPerm (.ctrl 0) = .rw ∧
    .trigger 0 ∈ ((State.reset.enterHandler (.ctrl 0)).enterHandler (.trigger 0)).inCallback ∧
    regPerm (.trigger 0) = .rw := by decide

/-- Every bit but EN; level and edge. -/
theorem test_meets_CtrlWriteDisabling : .ctrl 0 ∉ State.reset.inCallback ∧
    (0xFFE1#32 = 0xFFFFFFEF &&& ctrlMask State.reset.params.ctrlLayout ∧
      ctrlEn State.reset.params.ctrlLayout 0xFFE1 = false ∧ ctrlLevel State.reset.params.ctrlLayout 0xFFE1 = true) ∧
    (0#32 = 0 &&& ctrlMask State.reset.params.ctrlLayout ∧ ctrlEn State.reset.params.ctrlLayout 0 = false ∧
      ctrlLevel State.reset.params.ctrlLayout 0 = false) := by decide

theorem test_meets_CtrlWriteEnabling : .ctrl 0 ∉ State.reset.inCallback ∧
    0x0F10#32 = 0x0F10 &&& ctrlMask State.reset.params.ctrlLayout ∧
    ctrlEn State.reset.params.ctrlLayout 0x0F10 = true ∧ QuietOutput State.reset (.reqo 0) :=
  ⟨by decide, by decide, by decide, ⟨by decide, by decide, by decide⟩⟩

/-- The request output is bound: to the channel's own input (70_reset_and_hazards.md R156). -/
theorem test_meets_CtrlWritePulsesRequest : ∃ s : State, .ctrl 0 ∉ s.inCallback ∧
    0x0F10#32 = 0x0F10 &&& ctrlMask s.params.ctrlLayout ∧ ctrlEn s.params.ctrlLayout 0x0F10 = true ∧
    s.inputsOf (.pin (.reqo 0)) = [.pin (.trig 0 0)] :=
  ⟨{ State.reset with bindings := [(.pin (.reqo 0), .pin (.trig 0 0))] }, by decide⟩

theorem test_meets_CtrlFieldPositions : State.reset.params.ctrlLayout = defaultCtrlLayout ∧
    (State.reset.chan 0).ctrl.cur = 0 := by decide

/-- The conditions of a TRIGGER write of channel 0 with CTRL0 = `ctrl`, TRIGGER0 = `p` and data `v`: EN, TEST, LVL, and
whether the selected bit changes. -/
def triggerFacts (ctrl p v : Word) : Bool × Bool × Bool × Bool :=
  let s := setup 0 ctrl 0x1000 0x2000 4 p State.reset
  (s.en 0, s.test 0, s.lvl 0, (s.chan 0).trigger.cur.getLsbD (s.tsel 0).val != v.getLsbD (s.tsel 0).val)

/-- V4.6, V4.5, V4.4, V4.3. -/
theorem test_meets_TriggerWriteNotAccepted :
    (∀ ctrl p, .trigger 0 ∉ (setup 0 ctrl 0x1000 0x2000 4 p State.reset).inCallback) ∧
    triggerFacts 0x8F20 0 1 = (false, true, true, true) ∧ triggerFacts 0x0F30 0 1 = (true, false, true, true) ∧
    triggerFacts 0x8F10 0 1 = (true, true, false, true) ∧ triggerFacts 0x8F30 1 1 = (true, true, true, false) :=
  ⟨fun _ _ => by simp [setup, State.modChan, State.reset], by decide, by decide, by decide, by decide⟩

/-- V4.1 and V4.2. -/
theorem test_meets_TriggerWriteRuns :
    .trigger 0 ∉ (setup 0 0x8F30 0x1000 0x2000 4 0 State.reset).inCallback ∧
    triggerFacts 0x8F30 0 1 = (true, true, true, true) ∧ triggerFacts 0x8F30 1 0 = (true, true, true, true) := by decide

/-- L3.2: three bytes. -/
theorem test_meets_TriggerWriteBlockTransfer : ∃ s : State, .trigger 3 ∉ s.inCallback ∧ s.en 3 = true ∧
    s.test 3 = true ∧ s.lvl 3 = true ∧
    (s.chan 3).trigger.cur.getLsbD (s.tsel 3).val ≠ (0x80#32).getLsbD (s.tsel 3).val ∧ (s.chan 3).active = false ∧
    modeOf (s.modeField 3) = some .block ∧ s.sbyte 3 = s.dbyte 3 ∧ 1 = unitLen (s.sbyte 3) ∧
    (s.chan 3).size.cur.toNat = (2 + 1) * 1 ∧ ClearOfWindow s 3 1 (2 + 1) (backingCounters s 3) ∧
    QuietOutput s (.done 3) :=
  ⟨(setup 3 0x9EF0 0x3002 0x4000 3 0 State.reset).setCfg 1 { cur := 0x00070000, prev := 0 }, by decide, by decide,
    by decide, by decide, by decide, by decide, by decide, by decide, by decide, by decide, fun _ _ => ⟨rfl, rfl⟩,
    ⟨by decide, by decide, by decide⟩⟩

theorem test_meets_ReentrantChannelFaults : ((startInvocation 0 State.reset).chan 0).active = true := by decide

/-- Every unsupported mode, with units that agree and that differ; and differing units in every supported mode. -/
theorem test_meets_ConfigurationErrors :
    (∀ ctrl ∈ [0x2F10#32, 0x3F10, 0x6F10, 0x7F50], let s := setup 0 ctrl 1 2 4 0 State.reset
      (s.chan 0).active = false ∧ (s.modeField 0).toNat ∈ [2, 3, 6, 7]) ∧
    (∀ ctrl ∈ [0x0F50#32, 0x1F90, 0x4F50, 0x5F90], let s := setup 0 ctrl 1 2 4 0 State.reset
      (s.chan 0).active = false ∧ (s.modeField 0).toNat ∈ [0, 1, 4, 5] ∧ s.sbyte 0 ≠ s.dbyte 0) := by
  simp only [List.forall_mem_cons]
  exact ⟨⟨by decide, by decide, by decide, by decide, nofun⟩, by decide, by decide, by decide, by decide, nofun⟩

/-- What a run of channel 0 in mode `m` over `k` units of length `u` asks for, with its counters in bank `b`. -/
def ReadyToRun (s : State) (m : Mode) (b : Bank) (k u : Nat) : Prop :=
  (s.chan 0).active = false ∧ modeOf (s.modeField 0) = some m ∧ s.sbyte 0 = s.dbyte 0 ∧ u = unitLen (s.sbyte 0) ∧
    k * u ≤ (counters s 0 b).size.toNat ∧ ClearOfWindow s 0 u k (counters s 0 b)

theorem readyToRun {s : State} {m : Mode} {b : Bank} {k u : Nat}
    (h : (s.chan 0).active = false ∧ modeOf (s.modeField 0) = some m ∧ s.sbyte 0 = s.dbyte 0 ∧
      u = unitLen (s.sbyte 0) ∧ k * u ≤ (counters s 0 b).size.toNat) (hb : s.params.regBase = none) :
    ReadyToRun s m b k u :=
  ⟨h.1, h.2.1, h.2.2.1, h.2.2.2.1, h.2.2.2.2, fun _ _ => by simp [reachesWindow, hb]⟩

/-- V5.2 (the last unit) and L1.1's first trigger (a unit is left). -/
theorem test_meets_RunSingle :
    ReadyToRun (setup 0 0x0F10 0x1000 0x2000 4 0 State.reset) .single .backing 1 4 ∧
    ReadyToRun (setup 0 0x0F10 0x1000 0x2000 8 0 State.reset) .single .backing 1 4 :=
  ⟨readyToRun (by decide) rfl, readyToRun (by decide) rfl⟩

/-- V5.3; and the longest word transfer. -/
theorem test_meets_RunBlock :
    ReadyToRun (setup 0 0x1F10 0x1000 0x2000 12 0 State.reset) .block .backing 3 4 ∧
    (counters (setup 0 0x1F10 0x1000 0x2000 12 0 State.reset) 0 .backing).size.toNat = (2 + 1) * 4 ∧
    ReadyToRun (setup 0 0x1F10 0x1000 0x2000 0xFFFFFFFC 0 State.reset) .block .backing 0x3FFFFFFF 4 :=
  ⟨readyToRun (by decide) rfl, by decide, readyToRun (by decide) rfl⟩

/-- V5.6 and V5.5. -/
theorem test_meets_RunRepeatedSingle :
    ReadyToRun (setup 0 0x4F10 0x1000 0x2000 4 0 State.reset) .repeatedSingle .working 1 4 ∧
    ReadyToRun (setup 0 0x4F10 0x1000 0x2000 8 0 State.reset) .repeatedSingle .working 1 4 :=
  ⟨readyToRun (by decide) rfl, readyToRun (by decide) rfl⟩

/-- V5.7. -/
theorem test_meets_RunRepeatedBlock :
    ReadyToRun (setup 0 0x5F10 0x1000 0x2000 8 0 State.reset) .repeatedBlock .working 2 4 ∧
    (counters (setup 0 0x5F10 0x1000 0x2000 8 0 State.reset) 0 .working).size.toNat = (1 + 1) * 4 :=
  ⟨readyToRun (by decide) rfl, by decide⟩

/-- V6.6 (SIZE 0), a Single counter of 3 bytes, and V6.7 (one unit of 6 bytes moved, 2 left). -/
theorem test_meets_SizeUnderrunFaults :
    (ReadyToRun (setup 0 0x0F10 0x1000 0x2000 0 0 State.reset) .single .backing 0 4 ∧
      (counters (setup 0 0x0F10 0x1000 0x2000 0 0 State.reset) 0 .backing).size.toNat = 0 * 4 + 0) ∧
    (ReadyToRun (setup 0 0x4F10 0x1000 0x2000 3 0 State.reset) .repeatedSingle .working 0 4 ∧
      (counters (setup 0 0x4F10 0x1000 0x2000 3 0 State.reset) 0 .working).size.toNat = 0 * 4 + 3) ∧
    (ReadyToRun (setup 0 0x1F10 0x1000 0x2000 6 0 State.reset) .block .backing 1 4 ∧
      (counters (setup 0 0x1F10 0x1000 0x2000 6 0 State.reset) 0 .backing).size.toNat = 1 * 4 + 2) :=
  ⟨⟨readyToRun (by decide) rfl, by decide⟩, ⟨readyToRun (by decide) rfl, by decide⟩,
    ⟨readyToRun (by decide) rfl, by decide⟩⟩

/-- Reset with the window at 0x8000 in the transfer space and channel 0 in mode 0, its addresses as given. -/
def mapped (src dst : Word) : State :=
  { setup 0 0x0F10 src dst 4 0 State.reset with params := { Params.default with regBase := some 0x8000 } }

/-- A source whose last byte is the window's first; a source just below the window and a destination on its last byte; and
the addresses just outside. -/
theorem test_meets_SelfAccessFaults :
    (reachesWindow (mapped 0x7FFD 0) 0x7FFD 4 = true ∧
      reachesWindow (mapped 0x7FFC 0x81FF) 0x7FFC 4 = false ∧ reachesWindow (mapped 0x7FFC 0x81FF) 0x81FF 4 = true ∧
      reachesWindow (mapped 0x7FFC 0x8200) 0x8200 4 = false) ∧
    ∀ s ∈ [mapped 0x7FFD 0, mapped 0x7FFC 0x81FF], (s.chan 0).active = false ∧ modeOf (s.modeField 0) = some .single ∧
      s.sbyte 0 = s.dbyte 0 ∧ 4 = unitLen (s.sbyte 0) ∧ 4 ≤ (counters s 0 .backing).size.toNat := by decide

theorem test_meets_AddressAdjustment : (4 : Nat) ≤ 4 ∧ (1 : Nat) ≤ 4 := by decide

/-- Reset with the oracle, channel 0 ready and these answers to come. -/
def answered (as : List Answer) : State :=
  { setup 0 0x0F10 0x1000 0x2000 8 0 State.reset with params := Params.default, answers := as }

/-- An answer that succeeds or fails, with the bytes 1 to 4. -/
def answer (ok : Bool) : Answer := { ok := ok, bytes := #v[1, 2, 3, 4] }

/-- The three cases: skipped, written with any bytes, and a successful read; the write fails or not. -/
theorem test_meets_BusFailuresAreNotFatal : ∀ as ∈ [[answer false, answer false],
      [answer false, answer true, answer false], [answer true, answer false], [answer true, answer true]],
    (answered as).params.busKind = .oracle ∧ 4 ≤ (counters (answered as) 0 .backing).size.toNat ∧
    reachesWindow (answered as) (counters (answered as) 0 .backing).src 4 = false ∧
    reachesWindow (answered as) (counters (answered as) 0 .backing).dst 4 = false ∧ (answered as).answers = as := by
  decide

/-- A word that wraps at the top of the address space. -/
theorem test_meets_UnitCopiesBytes : ∃ s : State, s.params.busKind = .memory ∧ 32 ≤ s.params.busAddrWidth ∧
    Memory.wf s.mem = true ∧ (counters s 0 .backing).src = 0xFFFFFFFE ∧ 4 ≤ (counters s 0 .backing).size.toNat ∧
    reachesWindow s (counters s 0 .backing).src 4 = false ∧ reachesWindow s (counters s 0 .backing).dst 4 = false :=
  ⟨{ setup 0 0x0F10 0xFFFFFFFE 0x2000 4 0 State.reset with mem := [(0, 7), (0xFFFFFFFE, 5)] }, by decide⟩

theorem test_meets_EdgeFunctions : (false : Bool) ≠ true ∧ (true : Bool) ≠ false := by decide

/-- A pin that does not exist; an input; an output that holds the state written; an unbound output that changes. -/
theorem test_meets_PinWriteAlone : listeners.extPins.length ≤ 4 ∧
    (∃ p, listeners.extPins[1]? = some p ∧ p.mode ≠ .out) ∧
    (∃ p, State.reset.extPins[0]? = some p ∧ p.mode = .out ∧ p.state = false) ∧
    (∃ p, State.reset.extPins[0]? = some p ∧ p.mode = .out ∧ p.state ≠ true ∧
      (.pin (.ext 0)) ∉ State.reset.propagating ∧ State.reset.inputsOf (.pin (.ext 0)) = []) :=
  ⟨by decide, ⟨_, rfl, by decide⟩, ⟨_, rfl, by decide⟩, ⟨_, rfl, by decide⟩⟩

/-- A port that does not exist; an input; the value held, cut from 9 bits; an unbound output that changes. -/
theorem test_meets_PortWriteAlone : listeners.extPorts.length ≤ 2 ∧
    (∃ p, listeners.extPorts[1]? = some p ∧ p.mode ≠ .out) ∧
    (∃ p, State.reset.extPorts[0]? = some p ∧ p.mode = .out ∧ (0#64).toNat = (0x100#64).toNat % 2 ^ p.width ∧ p.state = 0) ∧
    (∃ p, State.reset.extPorts[0]? = some p ∧ p.mode = .out ∧ (5#64).toNat = (0x105#64).toNat % 2 ^ p.width ∧
      p.state ≠ 5 ∧ (.port 0) ∉ State.reset.propagating ∧ State.reset.inputsOf (.port 0) = []) :=
  ⟨by decide, ⟨_, rfl, by decide⟩, ⟨_, rfl, by decide⟩, ⟨_, rfl, by decide⟩⟩

theorem test_meets_OutputReentrancyFaults : ∃ s : State, s.dir (.pin (.ext 0)) = some .output ∧
    s.fit (.pin (.ext 0)) 0 ≠ s.sig (.pin (.ext 0)) ∧ (.pin (.ext 0)) ∈ s.propagating :=
  ⟨State.reset.enterOutput (.pin (.ext 0)) 1, by decide⟩

/-- Channel 0 with CTRL0 = `ctrl`, its input i bound to ext.t, which holds `b`. -/
def wired (ctrl : Word) (i : Source) (b : Bool) : State :=
  { setup 0 ctrl 0x1000 0x2000 8 0 State.reset with
    extPins := [{ extT with state := b }]
    bindings := [(.pin (.ext 0), .pin (.trig 0 i))] }

/-- Every state of `wired` with the wished sensitivity, selection and fields: V4.9, and a negedge input on a rise; V4.12,
V4.11, V4.13; V4.14. -/
theorem test_meets_SignalTriggerNotAccepted :
    (∀ s ∈ [wired 0x0F10 0 true, wired 0x0F10 0 false, wired 0x0F10 2 false, wired 0x0F30 0 true, wired 0x8F10 0 false,
        wired 0x0F00 0 false], (.pin (.ext 0)) ∉ s.propagating ∧ ∃ p, s.extPins[0]? = some p ∧ p.mode = .out) ∧
    ((wired 0x0F10 0 true).chan 0).trig[0].sens = .posedge ∧
    ((setSensAll 0 .negedge (wired 0x0F10 0 false)).chan 0).trig[0].sens = .negedge ∧
    (2 : Source) ≠ (wired 0x0F10 2 false).tsel 0 ∧
    (((wired 0x0F30 0 true).chan 0).trig[0].sens = .level ∧ (0 : Source) = (wired 0x0F30 0 true).tsel 0 ∧
      (wired 0x0F30 0 true).params.levelFallingTriggers = false) ∧
    ((wired 0x8F10 0 false).en 0 = true ∧ (wired 0x8F10 0 false).test 0 = true) ∧
    ((wired 0x0F00 0 false).en 0 = false ∧ (0 : Source) = (wired 0x0F00 0 false).tsel 0) ∧
    (wired 0x0F00 0 false).inputsOf (.pin (.ext 0)) = [.pin (.trig 0 0)] := by
  refine ⟨?_, by decide⟩
  intro s hs
  simp only [List.mem_cons, List.not_mem_nil, or_false] at hs
  rcases hs with rfl | rfl | rfl | rfl | rfl | rfl <;> exact ⟨by decide, _, rfl, rfl⟩

/-- L3.1 steps 7 and 9: 8 bytes and 4 bytes left. -/
theorem test_meets_PinWriteSingleTransfer : ∀ size ∈ [4#32, 8#32], ∃ s : State, ∃ p : ExtPin,
    s.extPins[0]? = some p ∧ p.mode = .out ∧ p.state = false ∧ (.pin (.ext 0)) ∉ s.propagating ∧
    s.inputsOf (.pin (.ext 0)) = [.pin (.trig 0 0)] ∧ (s.chan 0).trig[(0 : Source)].sens ≠ .negedge ∧
    (0 : Source) = s.tsel 0 ∧ s.en 0 = true ∧ s.test 0 = false ∧ (s.chan 0).active = false ∧
    modeOf (s.modeField 0) = some .single ∧ s.sbyte 0 = s.dbyte 0 ∧ 4 = unitLen (s.sbyte 0) ∧
    4 ≤ (s.chan 0).size.cur.toNat ∧ (s.chan 0).size.cur = size ∧ ClearOfWindow s 0 4 1 (backingCounters s 0) ∧
    QuietOutput s (.done 0) ∧ QuietOutput s (.reqo 0) := by
  intro size hs
  refine ⟨{ setup 0 0x0F10 0x1000 0x2000 size 0 State.reset with
    bindings := [(.pin (.ext 0), .pin (.trig 0 0))] }, _, rfl, rfl, rfl, ?_⟩
  simp only [List.mem_cons, List.not_mem_nil, or_false] at hs
  rcases hs with rfl | rfl <;>
    exact ⟨by decide, by decide, by decide, by decide, by decide, by decide, by decide, by decide, by decide, by decide,
      by decide, by decide, fun _ _ => ⟨rfl, rfl⟩, ⟨by decide, by decide, by decide⟩, ⟨by decide, by decide, by decide⟩⟩

theorem test_meets_BindAppends : State.reset.dir (.pin (.done 0)) = some .output ∧
    State.reset.dir (.pin (.trig 1 3)) = some .input ∧
    State.reset.shape (.pin (.done 0)) = State.reset.shape (.pin (.trig 1 3)) ∧
    ∀ b ∈ State.reset.bindings, b.2 ≠ .pin (.trig 1 3) := by decide

/-- V2.4; V2.5; V2.7; a signal that does not exist, first and second. -/
theorem test_meets_BindRejects :
    (listeners.dir (.pin (.trig 0 0)) = some .input ∧ listeners.dir (.pin (.trig 1 0)) = some .input) ∧
    (listeners.dir (.port 0) = some .output ∧ listeners.shape (.port 0) ≠ listeners.shape (.pin (.trig 0 0))) ∧
    (listeners.dir (.pin (.done 0)) = some .output ∧ listeners.dir (.pin (.ext 1)) = some .input ∧
      listeners.shape (.pin (.done 0)) = listeners.shape (.pin (.ext 1)) ∧
      (Sig.pin (.ext 0), Sig.pin (.ext 1)) ∈ listeners.bindings) ∧
    listeners.dir (.pin (.ext 4)) = none ∧ listeners.dir (.port 2) = none := by decide

theorem test_meets_TeardownUnbinds : ∃ t, exec (.pinWrite (.ext 0) true) { listeners with bindings := [] } = .next t :=
  exists_of_after (by decide)

theorem listeners_bindingsOk : BindingsOk listeners := ⟨by decide, by decide⟩

theorem test_meets_SecondWriteIsNoOp : BindingsOk listeners ∧ listeners.dir (.pin (.ext 0)) = some .output ∧
    (∃ t, exec (.pinWrite (.ext 0) true) listeners = .next t) ∧ listeners.dir (.port 0) = some .output ∧
    ∃ t, exec (.portWrite 0 5) listeners = .next t :=
  ⟨listeners_bindingsOk, by decide, exists_of_after (by decide), by decide, exists_of_after (by decide)⟩

/-- A pin, and a port whose value is cut to its 8 bits. -/
theorem test_meets_BoundInputsFollow : BindingsOk listeners ∧ (listeners.dir (.pin (.ext 0)) = some .output ∧
      listeners.sig (.pin (.ext 0)) ≠ pinVal true ∧ (Sig.pin (.ext 0), Sig.pin (.ext 3)) ∈ listeners.bindings ∧
      ∃ t, exec (.pinWrite (.ext 0) true) listeners = .next t) ∧
    listeners.extPorts[0]? = some extP ∧ extP.mode = .out ∧ (5#64).toNat = (0x105#64).toNat % 2 ^ extP.width ∧
    extP.state ≠ 5 ∧ (Sig.port 0, Sig.port 1) ∈ listeners.bindings ∧
    ∃ t, exec (.portWrite 0 0x105) listeners = .next t :=
  ⟨listeners_bindingsOk, ⟨by decide, by decide, by decide, exists_of_after (by decide)⟩, by decide, by decide, by decide,
    by decide, by decide, exists_of_after (by decide)⟩

/-- A disabled channel whose input is reached, and one in test mode; and writes of channel 1. -/
theorem test_meets_BlockedChannelUntouched :
    (Blocked 0 (wired 0x0F00 0 false) ∧ (wired 0x0F00 0 false).params.envReact = [] ∧
      ∃ t, exec (.pinWrite (.ext 0) true) (wired 0x0F00 0 false) = .next t) ∧
    (Blocked 0 (wired 0x8F10 0 false) ∧ ∃ t, exec (.pinWrite (.ext 0) true) (wired 0x8F10 0 false) = .next t) ∧
    (∃ t, exec (.portWrite 0 5) (wired 0x0F00 0 false) = .next t) ∧
    (∃ t, exec (.wrCtrl 1 0x0F10) (wired 0x0F00 0 false) = .next t) ∧
    ∃ t, exec (.wrTrigger 1 1) (wired 0x0F00 0 false) = .next t :=
  ⟨⟨.inl (by decide), rfl, exists_of_after (by decide)⟩, ⟨.inr (by decide), exists_of_after (by decide)⟩,
    exists_of_after (by decide), exists_of_after (by decide), exists_of_after (by decide)⟩

theorem test_meets_SignalsLeaveProgrammedRegisters : (wired 0x0F10 0 false).params.envReact = [] ∧
    (∃ t, exec (.pinWrite (.ext 0) true) (wired 0x0F10 0 false) = .next t) ∧
    ∃ t, exec (.portWrite 0 5) (wired 0x0F10 0 false) = .next t :=
  ⟨rfl, exists_of_after (by decide), exists_of_after (by decide)⟩

/-- Channel 0 active, its done output bound to channel 1. -/
theorem test_meets_PulsesLeaveActiveChannel : ∃ s : State, s.params.envReact = [] ∧ (s.chan 0).active = true ∧
    ∃ t, pulse (topWrite State.reset) (.done 0) s = .next t :=
  ⟨{ startInvocation 0 (setup 1 0x0F10 0x1000 0x2000 8 0 State.reset) with
      bindings := [(.pin (.done 0), .pin (.trig 1 0))] }, rfl, by decide, exists_of_after (by decide)⟩

/-- A pin write that runs channel 0, issued: L3.1 step 7 through the fetch. -/
def stepping : State :=
  { wired 0x0F10 0 false with
    mem := [(0x1000, 0x11)]
    pending := [{ bytes := [0x00, 0x20, 0, 0, 0, 0, 1], width := 4 }] }

theorem stepping_steps : ∃ t, step stepping = .next t := exists_of_after (by decide)

theorem test_meets_MemoryStaysCanonical : Memory.wf stepping.mem = true ∧ ∃ t, step stepping = .next t :=
  ⟨by decide, stepping_steps⟩

theorem test_meets_ReservedBitsStayZero : ReservedZero stepping ∧ ∃ t, step stepping = .next t :=
  ⟨⟨by decide, by decide⟩, stepping_steps⟩

theorem test_meets_SensitivityFollowsLevel : stepping.params.ctrlLayout.level ≠ stepping.params.ctrlLayout.en ∧
    SensFollows stepping ∧ ∃ t, step stepping = .next t :=
  ⟨by decide, by unfold SensFollows; decide, stepping_steps⟩

theorem stepping_bindingsOk : BindingsOk stepping := ⟨by decide, by decide⟩

theorem test_meets_BindingsAndPortsStayWellFormed : BindingsOk stepping ∧ PortsOk stepping ∧
    ∃ t, step stepping = .next t :=
  ⟨stepping_bindingsOk, by unfold PortsOk; decide, stepping_steps⟩

theorem test_meets_QuietBetweenOperations : BindingsOk stepping ∧ Quiet stepping ∧ ∃ t, step stepping = .next t :=
  ⟨stepping_bindingsOk, ⟨by decide, by decide, by decide, by decide, by decide, by decide⟩, stepping_steps⟩

theorem test_meets_MarksAndHistory : (∃ t, step { stepping with refusalMark := true } = .next t) ∧
    (∃ f, step { issued [0x14, 0x00] 4 with refusalMark := true } = .fault f) ∧
    ∃ r, step { issued [0x00, 0xA0] 4 with faultMark := true } = .refused r :=
  ⟨exists_of_after (by decide), ⟨_, rfl⟩, ⟨_, rfl⟩⟩

/-- A reserved class at the top level; in a callback the lowest and the highest class refused, a pin of the block and one
past the last, and a port past the last. -/
theorem test_meets_RefusalsChangeNothing : (∃ r, step (issued [0x00, 0xA0] 4) = .refused r) ∧
    4 ≤ ((Instr.bind (.port 0) (.port 0)).descriptor.extractLsb' 12 4).toNat ∧
    4 ≤ ((Instr.rsvCls12 0x3FFF).descriptor.extractLsb' 12 4).toNat ∧
    (∀ k, Pin.done 0 = .ext k → State.reset.extPins.length ≤ k) ∧
    (∀ k, Pin.ext 1 = .ext k → State.reset.extPins.length ≤ k) ∧ State.reset.extPorts.length ≤ 1 :=
  ⟨⟨_, rfl⟩, by decide, by decide, nofun, fun k h => by cases h; decide, by decide⟩

end Sys2Proof.Tests
end

section
/-!
PROOFS. What RESET leaves (10_state.md R37, 70_reset_and_hazards.md R146): the views of the reset device, each said once,
and the obligation assembled from them.
-/

namespace Sys2Proof.Machine

/-! ### The reset channel -/

@[simp] theorem Channel.reset_trig (i : Source) : Channel.reset.trig[i] = { sens := .posedge, state := false } := by
  simp [Channel.reset]

/-- No flag is set in either channel of a STATUS word (10_state.md R37). -/
theorem packStatus_reset : packStatus Channel.reset.st Channel.reset.st = 0 := by decide

/-! ### Views of the reset device -/

@[simp] theorem resetDevice_chan (s : State) (n : Chan) : (resetDevice s).chan n = Channel.reset := by
  simp [State.chan, resetDevice]

@[simp] theorem resetDevice_cfgCell (s : State) (k : Pair) : (resetDevice s).cfgCell k = Cell.zero := by
  simp [State.cfgCell, resetDevice]

@[simp] theorem resetDevice_ctrlWord (s : State) (n : Chan) : (resetDevice s).ctrlWord n = 0 := by
  simp [State.ctrlWord, Channel.reset, Cell.zero]

/-- A zero CTRL word has DMAEN clear wherever the layout puts it. -/
@[simp] theorem resetDevice_en (s : State) (n : Chan) : (resetDevice s).en n = false := by
  simp [State.en, ctrlEn]

@[simp] theorem resetDevice_statusWord (s : State) (k : Pair) : (resetDevice s).statusWord k = 0 := by
  simp [State.statusWord, packStatus_reset]

/-- STATUS is the packed flags; every other register is a cell that RESET clears. -/
theorem resetDevice_values (s : State) (r : RegId) : (resetDevice s).values r = Cell.zero := by
  cases r with
  | status k => simp [State.values, Cell.zero]
  | cfg k => simp [State.values]
  | ctrl n | src n | dst n | size n | trigger n => simp [State.values, Channel.reset]

/-! ### The obligation -/

theorem exec_reset (s : State) : exec .reset s = .next (resetDevice s) := rfl

/-- Settles O10: the reset device is the next state, its channels are the reset channel and every field that
`resetDevice` does not name is kept. -/
theorem resetLeaves : Obligations.ResetLeaves := by
  intro s
  refine ⟨resetDevice s, exec_reset s, resetDevice_values s, fun n => ?_, rfl, rfl, rfl, rfl, rfl, rfl, rfl, rfl, rfl, rfl,
    rfl, rfl, rfl, rfl⟩
  rw [resetDevice_chan]
  exact ⟨rfl, rfl, rfl, rfl, rfl, resetDevice_en s n, Channel.reset_trig⟩

end Sys2Proof.Machine
end

section
/-!
PROOFS. The STATUS word bit by bit (30_encoding.md R69): a flag at its position, the slot of a channel, the two slots of a
word, and the read that returns them (42_dma_registers.md R105).
-/

namespace Sys2Proof.Machine

theorem getLsbD_flagBit (b : Bool) (i : Nat) {j : Nat} (hj : j < 32) :
    (flagBit b i).getLsbD j = if j = i then b else false := by
  cases b with
  | false => simp [flagBit]
  | true =>
    rw [flagBit, if_pos rfl, BitVec.getLsbD_ofNat]
    simp [Nat.testBit_two_pow, hj, eq_comm]

/-- Each flag of a slot stands at its own bit; no other bit of the word is set. -/
theorem getLsbD_slot (f : Flags) {j : Nat} (hj : j < 32) :
    (slot f).getLsbD j =
      if j = 0 then f.done else if j = 1 then f.run else if j = 2 then f.req else if j = 3 then f.err else false := by
  simp only [slot, BitVec.getLsbD_or, getLsbD_flagBit _ _ hj]
  by_cases hflag : j < 4
  · interval_cases j <;> simp
  · have past_flags : j ≠ 0 ∧ j ≠ 1 ∧ j ≠ 2 ∧ j ≠ 3 := by omega
    simp [past_flags]

/-- A slot ends below bit 16, so the two slots of a word do not overlap: the low half is channel 2k's slot and the high
half channel 2k+1's. -/
theorem getLsbD_packStatus (a b : Flags) {j : Nat} (hj : j < 32) :
    (packStatus a b).getLsbD j = if j < 16 then (slot a).getLsbD j else (slot b).getLsbD (j - 16) := by
  rw [packStatus, BitVec.getLsbD_or, BitVec.getLsbD_shiftLeft]
  by_cases hlow : j < 16
  · simp [hlow]
  · have slot_a_clear : (slot a).getLsbD j = false := by
      rw [getLsbD_slot a hj, if_neg (by omega), if_neg (by omega), if_neg (by omega), if_neg (by omega)]
    rw [slot_a_clear]
    simp [hlow, hj]

theorem exec_rdStatus (k : Pair) (s : State) :
    exec (.rdStatus k) s = .next (s.record (.regRead (.status k) (s.statusWord k))) :=
  regRead_eq (.status k) s

/-- Settles O16: the value read is the packed word of channels 2k and 2k+1, whose halves are their slots. -/
theorem readStatusPacks : Obligations.ReadStatusPacks := by
  intro s k
  refine ⟨s.statusWord k, exec_rdStatus k s, fun j hj => ?_⟩
  rw [State.statusWord, getLsbD_packStatus _ _ hj]
  by_cases hlow : j < 16
  · rw [if_pos hlow, getLsbD_slot _ hj]
    have no_high : j ≠ 16 ∧ j ≠ 17 ∧ j ≠ 18 ∧ j ≠ 19 := by omega
    simp only [no_high, if_false]
  · obtain ⟨i, rfl⟩ := Nat.exists_eq_add_of_le' (Nat.le_of_not_lt hlow)
    rw [if_neg hlow, Nat.add_sub_cancel, getLsbD_slot _ (by omega)]
    simp

end Sys2Proof.Machine
end

section
/-!
PROOFS. The sensitivity gate (41_signal_fabric.md R87) and the edge function (40_register_framework.md R82), an equation
for each sensitivity and the meaning of `transitioned`.
-/

namespace Sys2Proof.Machine

theorem fires_level (old new : SigVal) : fires .level old new = true := rfl

theorem fires_negedge_pinVal (old new : Bool) : fires .negedge (pinVal old) (pinVal new) = (old && !new) := by
  rw [fires, pinVal_getLsbD, pinVal_getLsbD]

theorem fires_posedge_pinVal (old new : Bool) : fires .posedge (pinVal old) (pinVal new) = (!old && new) := by
  rw [fires, pinVal_getLsbD, pinVal_getLsbD]

theorem transitioned_iff (prev cur : Word) (bit : Source) :
    transitioned prev cur bit = true ↔ prev.getLsbD bit.val ≠ cur.getLsbD bit.val :=
  bne_iff_ne

/-- Settles O39: the gate row by row, and the edge function as inequality of the two bits. The equations of the gate hold
for a pin that keeps its state too, so that the two states differ is not used. -/
theorem edgeFunctions : Obligations.EdgeFunctions :=
  ⟨fun old new _ => ⟨fires_level _ _, fires_negedge_pinVal old new, fires_posedge_pinVal old new⟩, transitioned_iff⟩

end Sys2Proof.Machine
end

section
/-!
PROOFS. The address adjustment of a unit (43_dma_transfer.md R123), an equation for each polarity code, and the counters'
values modulo 2^32.
-/

namespace Sys2Proof.Machine

theorem adj_increment (x : Word) (u : Nat) : adj x 3 u = x + BitVec.ofNat 32 u := rfl

theorem adj_decrement (x : Word) (u : Nat) : adj x 2 u = x - BitVec.ofNat 32 u := rfl

theorem adj_fixed_one (x : Word) (u : Nat) : adj x 1 u = x := rfl

theorem adj_fixed_zero (x : Word) (u : Nat) : adj x 0 u = x := rfl

theorem toNat_adj_increment (x : Word) (u : Nat) : (adj x 3 u).toNat = (x.toNat + u) % 2 ^ 32 := by
  rw [adj_increment, BitVec.toNat_add, BitVec.toNat_ofNat, Nat.add_mod_mod]

/-- The bound is what keeps the natural subtraction from being cut off at 0: a unit has 1 or 4 bytes. -/
theorem toNat_adj_decrement (x : Word) {u : Nat} (hu : u ≤ 4) :
    (adj x 2 u).toNat = (x.toNat + 2 ^ 32 - u) % 2 ^ 32 := by
  have unit_fits : u % 2 ^ 32 = u := Nat.mod_eq_of_lt (by omega)
  rw [adj_decrement, BitVec.toNat_sub, BitVec.toNat_ofNat, unit_fits]
  congr 1
  omega

/-- Settles O36, one equation for each polarity code. -/
theorem addressAdjustment : Obligations.AddressAdjustment :=
  fun x u => ⟨toNat_adj_increment x u, toNat_adj_decrement x, adj_fixed_one x u, adj_fixed_zero x u⟩

end Sys2Proof.Machine
end

section
/-!
PROOFS. Configuration errors (43_dma_transfer.md R115, 60_exceptions.md R128): which MODE fields name no mode, what a
rejected invocation leaves behind, and that the check reads nothing a rejection changes.
-/

namespace Sys2Proof.Machine

/-! ### The MODE field -/

theorem modeOf_eq_none_iff (m : BitVec 3) : modeOf m = none ↔ m.toNat ∈ [2, 3, 6, 7] := by
  revert m; decide

theorem exists_modeOf_iff (m : BitVec 3) : (∃ k, modeOf m = some k) ↔ m.toNat ∈ [0, 1, 4, 5] := by
  rw [← Option.isSome_iff_exists]; revert m; decide

/-! ### A rejected invocation -/

/-- Only what a change makes of the channel as it stands matters. -/
theorem State.modChan_congr {s : State} {n : Chan} {f g : Channel → Channel} (h : f (s.chan n) = g (s.chan n)) :
    s.modChan n f = s.modChan n g :=
  congrArg (fun c => { s with chans := s.chans.set n c }) h

/-- The flags when an invocation is rejected: they were normalised at its start, so err stands alone (60_exceptions.md
R128). -/
def Flags.rejected : Flags := { done := false, run := false, req := false, err := true }

/-- The state a rejected invocation ends in: err alone on channel n, and the error recorded. -/
def rejectedState (n : Chan) (e : Err) (s : State) : State :=
  (s.modChan n fun c => { c with st := Flags.rejected }).raise e

/-- A channel that is not active is not active after the invocation's bracket, so that only the flags and the history
show the rejection. -/
theorem rejectInvocation_startInvocation {n : Chan} {s : State} (e : Err) (h : (s.chan n).active = false) :
    rejectInvocation n e (startInvocation n s) = rejectedState n e s := by
  have bracket : (((s.modChan n fun c => { c with active := true, st := Flags.running }).modChan n fun c =>
      { c with st := c.st.configError }).modChan n fun c => { c with active := false }) =
      s.modChan n fun c => { c with st := Flags.rejected } := by
    rw [State.modChan_modChan, State.modChan_modChan]
    exact State.modChan_congr (by simp [Flags.running, Flags.configError, Flags.rejected, h])
  exact congrArg (State.raise · e) bracket

/-- Error `e` is what the check of channel n's configuration finds: E1 before E2 (43_dma_transfer.md R115). -/
def ConfigError (n : Chan) (s : State) (e : Err) : Prop :=
  modeOf (s.modeField n) = none ∧ e = .unsupportedMode n (s.modeField n) ∨
    (∃ m, modeOf (s.modeField n) = some m) ∧ s.sbyte n ≠ s.dbyte n ∧ e = .unitSizeMismatch n

/-- An accepted trigger of a badly configured channel: no bus request and no pulse, whatever the writer. -/
theorem run_rejects (write : Writer) {n : Chan} {s : State} {e : Err} (h : (s.chan n).active = false)
    (he : ConfigError n s e) : run write n s = .next (rejectedState n e s) := by
  obtain ⟨hmode, hsrc, hdst, -⟩ := startInvocation_views n s
  unfold run
  rw [if_neg (by simp [h])]
  obtain ⟨hnone, rfl⟩ | ⟨⟨m, hsome⟩, hne, rfl⟩ := he
  · simp only [hmode, hnone, rejectInvocation_startInvocation _ h]
  · simp only [hmode, hsome, hsrc, hdst, if_pos hne, rejectInvocation_startInvocation _ h]

/-! ### The same error again -/

/-- The check reads CTRL and the parameters, and a rejection changes neither. -/
theorem ConfigError.rejected {n : Chan} {s : State} {e : Err} (h : ConfigError n s e) (d : Err) :
    ConfigError n (rejectedState n d s) e := by
  simpa [ConfigError, rejectedState, State.modeField, State.sbyte, State.dbyte, State.ctrlWord] using h

theorem rejectedState_active {n : Chan} {s : State} (e : Err) (h : (s.chan n).active = false) :
    ((rejectedState n e s).chan n).active = false := by
  simpa [rejectedState] using h

/-- A second rejection finds the flags as it would leave them, and only adds its error. -/
theorem rejectedState_rejectedState (n : Chan) (s : State) (d e : Err) :
    rejectedState n e (rejectedState n d s) = (rejectedState n d s).raise e :=
  congrArg (State.raise · e) (State.modChan_same _ n _ (by simp [rejectedState]))

/-- Settles O29: the check fails alike from the state the rejection leaves, so the same rule gives both runs. -/
theorem configurationErrors : Obligations.ConfigurationErrors := by
  intro write n s e hactive he
  have hcfg : ConfigError n s e := by
    simpa only [ConfigError, modeOf_eq_none_iff, exists_modeOf_iff] using he
  refine ⟨rejectedState n e s, run_rejects write hactive hcfg, rfl, ?_⟩
  rw [run_rejects write (rejectedState_active e hactive) (hcfg.rejected e), rejectedState_rejectedState]
  rfl

end Sys2Proof.Machine
end

section
/-!
PROOFS. The decoder undone (30_encoding.md R60, R62, R73): what each operand form reads is exactly the bytes the encoder
writes for it, a descriptor is what its fields say, and so decode and encode are inverse to each other.
-/

namespace Sys2Proof.Machine

/-! ### Operands -/

theorem wordBytes_wordOfBytes (b0 b1 b2 b3 : Byte) : wordBytes (wordOfBytes b0 b1 b2 b3) = [b0, b1, b2, b3] := by
  have bytes_fit := And.intro b0.isLt (And.intro b1.isLt (And.intro b2.isLt b3.isLt))
  have value : (wordOfBytes b0 b1 b2 b3).toNat =
      ((b3.toNat * 2 ^ 8 + b2.toNat) * 2 ^ 8 + b1.toNat) * 2 ^ 8 + b0.toNat := by
    rw [wordOfBytes, toNat_append_eq, toNat_append_eq, toNat_append_eq]
  simp only [wordBytes, List.cons.injEq, ← BitVec.toNat_inj, BitVec.extractLsb'_toNat, value,
    Nat.shiftRight_eq_div_pow, and_true]
  omega

theorem takeWord_eq_some {bs rest : List Byte} {v : BitVec 32} (h : takeWord bs = some (v, rest)) :
    bs = wordBytes v ++ rest := by
  unfold takeWord at h
  split at h
  · cases h
    simp [wordBytes_wordOfBytes]
  · cases h

theorem takeDatum_eq_some {bo : ByteOrder} {bs rest : List Byte} {v : Word} (h : takeDatum bo bs = some (v, rest)) :
    bs = datumBytes bo v ++ rest := by
  unfold takeDatum at h
  split at h
  · cases h
    cases bo <;> simp [datumBytes, wordOfDatum, wordBytes_wordOfBytes]
  · cases h

theorem takeDouble_eq_some {bs rest : List Byte} {v : BitVec 64} (h : takeDouble bs = some (v, rest)) :
    bs = doubleBytes v ++ rest := by
  simp only [takeDouble, Option.bind_eq_bind, Option.bind_eq_some_iff, Prod.exists] at h
  obtain ⟨lo, mid, hlo, hi, last, hhi, h⟩ := h
  cases h
  rw [takeWord_eq_some hlo, takeWord_eq_some hhi, doubleBytes, BitVec.extractLsb'_append_eq_right,
    BitVec.extractLsb'_append_eq_left, List.append_assoc]

theorem takeByte_eq_some {bs rest : List Byte} {b : Byte} (h : takeByte bs = some (b, rest)) : bs = b :: rest := by
  unfold takeByte at h
  split at h <;> cases h
  rfl

theorem takeBool_eq_some {bs rest : List Byte} {b : Bool} (h : takeBool bs = some (b, rest)) :
    bs = boolByte b ++ rest := by
  simp only [takeBool, Option.bind_eq_bind, Option.bind_eq_some_iff, Prod.exists] at h
  obtain ⟨c, last, hc, h⟩ := h
  rw [takeByte_eq_some hc]
  split at h
  · next hzero => cases h; rw [hzero]; rfl
  · split at h
    · next hone => cases h; rw [hone]; rfl
    · cases h

theorem takeTag_eq_some {bs rest : List Byte} {t : Option Tag} (h : takeTag? bs = some (t, rest)) :
    bs = tagBytes t ++ rest := by
  simp only [takeTag?, Option.bind_eq_bind, Option.bind_eq_some_iff, Prod.exists] at h
  obtain ⟨present, mid, hp, h⟩ := h
  rw [takeBool_eq_some hp]
  cases present with
  | false => cases h; rfl
  | true =>
    obtain ⟨⟨w, last⟩, hw, h⟩ := Option.bind_eq_some_iff.mp h
    cases h
    rw [takeWord_eq_some hw, tagBytes, List.append_assoc]

/-- A pin reference word is that of the pin it names. -/
theorem pinOfWord_eq_some {w : BitVec 32} {p : Pin} (h : pinOfWord w = some p) :
    p.wellFormed = true ∧ p.word = w := by
  have hw := w.isLt
  unfold pinOfWord at h
  simp only [BitVec.extractLsb'_toNat, Nat.shiftRight_eq_div_pow, ← BitVec.toNat_inj, BitVec.ofNat_eq_ofNat,
    BitVec.toNat_ofNat] at h
  have kinds : w.toNat / 2 ^ 30 % 2 ^ 2 = 0 ∨ w.toNat / 2 ^ 30 % 2 ^ 2 = 1 ∨ w.toNat / 2 ^ 30 % 2 ^ 2 = 2 ∨
      w.toNat / 2 ^ 30 % 2 ^ 2 = 3 := by omega
  rcases kinds with hkind | hkind | hkind | hkind <;> simp only [hkind] at h
  · cases h
    refine ⟨by simp only [Pin.wellFormed, decide_eq_true_eq]; omega, ?_⟩
    simp only [Pin.word, ← BitVec.toNat_inj, BitVec.toNat_ofNat]
    omega
  all_goals
    split at h <;> cases h
    refine ⟨rfl, ?_⟩
    simp only [Pin.word, ← BitVec.toNat_inj, BitVec.toNat_ofNat, Fin.ofNat]
    omega

theorem takePin_eq_some {bs rest : List Byte} {p : Pin} (h : takePin bs = some (p, rest)) :
    p.wellFormed = true ∧ bs = wordBytes p.word ++ rest := by
  simp only [takePin, Option.bind_eq_bind, Option.bind_eq_some_iff, Prod.exists] at h
  obtain ⟨w, last, hw, q, hq, h⟩ := h
  cases h
  obtain ⟨hwf, hword⟩ := pinOfWord_eq_some hq
  exact ⟨hwf, by rw [hword, takeWord_eq_some hw]⟩

theorem takeSig_eq_some {bs rest : List Byte} {x : Sig} (h : takeSig bs = some (x, rest)) :
    x.wellFormed = true ∧ bs = x.bytes ++ rest := by
  simp only [takeSig, Option.bind_eq_bind, Option.bind_eq_some_iff, Prod.exists] at h
  obtain ⟨isPort, mid, hp, h⟩ := h
  rw [takeBool_eq_some hp]
  cases isPort with
  | true =>
    obtain ⟨⟨w, last⟩, hw, h⟩ := Option.bind_eq_some_iff.mp h
    cases h
    refine ⟨by simpa [Sig.wellFormed] using w.isLt, ?_⟩
    rw [takeWord_eq_some hw, Sig.bytes, BitVec.ofNat_toNat, BitVec.setWidth_eq, List.append_assoc]
  | false =>
    obtain ⟨⟨p, last⟩, hpin, h⟩ := Option.bind_eq_some_iff.mp h
    cases h
    obtain ⟨hwf, hbytes⟩ := takePin_eq_some hpin
    exact ⟨hwf, by rw [hbytes, Sig.bytes, List.append_assoc]⟩

theorem takePinMode_eq_some {bs rest : List Byte} {m : PinMode} (h : takePinMode bs = some (m, rest)) :
    bs = [m.byte] ++ rest := by
  simp only [takePinMode, Option.bind_eq_bind, Option.bind_eq_some_iff, Prod.exists] at h
  obtain ⟨b, last, hb, h⟩ := h
  rw [takeByte_eq_some hb]
  split at h <;> cases h
  all_goals
    next hval => exact congrArg (fun b => b :: rest) (BitVec.eq_of_toNat_eq hval)

theorem takePortMode_eq_some {bs rest : List Byte} {m : PortMode} (h : takePortMode bs = some (m, rest)) :
    bs = m.bytes ++ rest := by
  simp only [takePortMode, Option.bind_eq_bind, Option.bind_eq_some_iff, Prod.exists] at h
  obtain ⟨isIn, last, hb, h⟩ := h
  rw [takeBool_eq_some hb]
  cases isIn <;> cases h <;> rfl

theorem takeWidth_eq_some {bs rest : List Byte} {w : Nat} (h : takeWidth bs = some (w, rest)) :
    (1 ≤ w ∧ w ≤ 64) ∧ bs = [BitVec.ofNat 8 (w - 1)] ++ rest := by
  simp only [takeWidth, Option.bind_eq_bind, Option.bind_eq_some_iff, Prod.exists] at h
  obtain ⟨b, last, hb, h⟩ := h
  rw [takeByte_eq_some hb]
  split at h <;> cases h
  exact ⟨by omega, by simp⟩

theorem takePerm_eq_some {bs rest : List Byte} {p : Perm} (h : takePerm bs = some (p, rest)) :
    bs = [p.byte] ++ rest := by
  simp only [takePerm, Option.bind_eq_bind, Option.bind_eq_some_iff, Prod.exists] at h
  obtain ⟨b, last, hb, h⟩ := h
  rw [takeByte_eq_some hb]
  split at h <;> cases h
  all_goals
    next hval => exact congrArg (fun b => b :: rest) (BitVec.eq_of_toNat_eq hval)

theorem takeCellInit_eq_some {bs rest : List Byte} {c : CellInit} (h : takeCellInit bs = some (c, rest)) :
    bs = c.bytes ++ rest := by
  simp only [takeCellInit, Option.bind_eq_bind, Option.bind_eq_some_iff, Prod.exists] at h
  obtain ⟨wide, mid, hwide, h⟩ := h
  rw [takeBool_eq_some hwide]
  cases wide with
  | true =>
    simp only [if_true, Option.bind_eq_some_iff, Prod.exists] at h
    obtain ⟨init, rem, hinit, mask, last, hmask, h⟩ := h
    cases h
    rw [takeDouble_eq_some hinit, takeDouble_eq_some hmask, CellInit.bytes, List.append_assoc, List.append_assoc]
  | false =>
    simp only [Bool.false_eq_true, if_false, Option.bind_eq_some_iff, Prod.exists] at h
    obtain ⟨init, rem, hinit, mask, last, hmask, h⟩ := h
    cases h
    rw [takeWord_eq_some hinit, takeWord_eq_some hmask, CellInit.bytes, List.append_assoc, List.append_assoc]

end Sys2Proof.Machine
end

section
/-!
PROOFS. The descriptor (30_encoding.md R60, R62, R73) is what its fields say, and so decode and encode are inverse to each
other.
-/

namespace Sys2Proof.Machine

/-! ### Descriptors -/

/-- A descriptor is its three fields. -/
theorem descriptor_fields (d : BitVec 16) : d.toNat =
    (d.extractLsb' 12 4).toNat * 2 ^ 12 + (d.extractLsb' 9 3).toNat * 2 ^ 9 + (d.extractLsb' 0 9).toNat := by
  have := d.isLt
  simp only [BitVec.extractLsb'_toNat, Nat.shiftRight_eq_div_pow]
  omega

theorem accessOf_of_class {d : BitVec 16} : ((d.extractLsb' 12 4).toNat = 0 → accessOf d = .read) ∧
    ((d.extractLsb' 12 4).toNat = 1 → accessOf d = .write) := by
  constructor
  · intro h
    rw [accessOf, if_pos (BitVec.eq_of_toNat_eq h)]
  · intro h
    rw [accessOf, if_neg (fun h0 => by rw [h0] at h; cases h)]

/-- The descriptor of a register access is that of its direction and offset. -/
theorem isAccess_descriptor {d : BitVec 16} (h : isAccess d = true) : d = accessDescriptor (accessOf d) (offsetOf d) := by
  simp only [isAccess, Bool.and_eq_true, decide_eq_true_eq] at h
  have fields := descriptor_fields d
  rw [h.1] at fields
  have class_cases : (d.extractLsb' 12 4).toNat = 0 ∨ (d.extractLsb' 12 4).toNat = 1 := by omega
  have off_fits := (d.extractLsb' 0 9).isLt
  apply BitVec.eq_of_toNat_eq
  rcases class_cases with hc | hc
  · rw [accessOf_of_class.1 hc, accessDescriptor, BitVec.toNat_ofNat, offsetOf, fields, hc]
    simp; omega
  · rw [accessOf_of_class.2 hc, accessDescriptor, BitVec.toNat_ofNat, offsetOf, fields, hc]
    simp; omega

/-- The register at an offset is the one whose offset it is. -/
theorem regAt_eq_some_iff (off : BitVec 9) (r : RegId) : regAt off = some r ↔ off.toNat = r.offset := by
  constructor
  · have table : ∀ off : BitVec 9, (regAt off).all (fun r => off.toNat = r.offset) = true := by decide +kernel
    intro h
    have := table off
    simpa [h] using this
  · intro h
    have rows : ∀ r : RegId, r.offset < 2 ^ 9 ∧ regAt (BitVec.ofNat 9 r.offset) = some r := by
      rintro (n | n | n | n | n | n | n) <;> revert n <;> decide
    rw [← (rows r).2, ← h, BitVec.ofNat_toNat, BitVec.setWidth_eq]

/-- The row of an offset that holds no register has the descriptor of the access. -/
theorem reservedAt_descriptor (d : Access) {off : BitVec 9} (h : regAt off = none) :
    (reservedAt d off).descriptor = accessDescriptor d off.toNat := by
  obtain ⟨haccess, hoffset, his⟩ := reservedAt_access d h
  rw [isAccess_descriptor his, haccess, hoffset]

/-! ### The operation that a descriptor's body reads -/

/-- Operation `i` with descriptor `d` and the operand bytes in front of `rest`. -/
structure Packet (bo : ByteOrder) (d : BitVec 16) (bs : List Byte) (i : Instr) (rest : List Byte) : Prop where
  wellFormed : i.wellFormed = true
  descriptor : i.descriptor = d
  bytes : bs = i.operandBytes bo ++ rest

theorem Packet.encode {bo : ByteOrder} {d : BitVec 16} {bs : List Byte} {i : Instr} {rest : List Byte}
    (h : Packet bo d bs i rest) : descriptorBytes d ++ bs = encode bo i ++ rest := by
  rw [Sys2Proof.encode, List.append_assoc, h.descriptor, ← h.bytes]

theorem Packet.read (bo : ByteOrder) (r : RegId) (bs : List Byte) :
    Packet bo (accessDescriptor .read r.offset) bs (readOf r) bs := by
  cases r <;> exact ⟨rfl, rfl, rfl⟩

theorem Packet.write (bo : ByteOrder) (r : RegId) (v : Word) (rest : List Byte) :
    Packet bo (accessDescriptor .write r.offset) (datumBytes bo v ++ rest) (writeOf v r) rest := by
  cases r <;> exact ⟨rfl, rfl, rfl⟩

theorem Packet.reserved (bo : ByteOrder) (d : Access) {off : BitVec 9} (h : regAt off = none) (bs : List Byte) :
    Packet bo (accessDescriptor d off.toNat) bs (reservedAt d off) bs := by
  have shape : (reservedAt d off).wellFormed = true ∧ (reservedAt d off).operandBytes bo = [] := by
    unfold reservedAt
    dsimp only
    repeat' split
    all_goals exact ⟨rfl, rfl⟩
  exact ⟨shape.1, reservedAt_descriptor d h, by rw [shape.2, List.nil_append]⟩

theorem decodeRead_packet (bo : ByteOrder) {off : BitVec 9} {bs rest : List Byte} {i : Instr}
    (h : decodeRead off bs = some (i, rest)) : Packet bo (accessDescriptor .read off.toNat) bs i rest := by
  unfold decodeRead at h
  split at h <;> cases h
  · next r hr => rw [(regAt_eq_some_iff off r).mp hr]; exact Packet.read bo r bs
  · next hr => exact Packet.reserved bo .read hr bs

theorem decodeWrite_packet {bo : ByteOrder} {off : BitVec 9} {bs rest : List Byte} {i : Instr}
    (h : decodeWrite bo off bs = some (i, rest)) : Packet bo (accessDescriptor .write off.toNat) bs i rest := by
  unfold decodeWrite at h
  split at h
  · next r hr =>
    obtain ⟨⟨v, last⟩, hv, h⟩ := Option.bind_eq_some_iff.mp h
    cases h
    rw [(regAt_eq_some_iff off r).mp hr, takeDatum_eq_some hv]
    exact Packet.write bo r v rest
  · next hr => cases h; exact Packet.reserved bo .write hr bs

/-- The classes 2 to 9: each operand form read is written back. -/
theorem decodeOperands_packet (bo : ByteOrder) {cls : Nat} (h2 : 2 ≤ cls) (h9 : cls ≤ 9) {bs rest : List Byte} {i : Instr}
    (h : decodeOperands cls bs = some (i, rest)) : Packet bo (BitVec.ofNat 16 (cls * 2 ^ 12)) bs i rest := by
  interval_cases cls <;>
    simp only [decodeOperands, Option.bind_eq_bind, Option.bind_eq_some_iff, Prod.exists, Option.some.injEq,
      Prod.mk.injEq] at h
  · obtain ⟨p, _, hp, b, _, hb, rfl, rfl⟩ := h
    obtain ⟨hwf, hbytes⟩ := takePin_eq_some hp
    exact ⟨hwf, rfl, by rw [hbytes, takeBool_eq_some hb, Instr.operandBytes, List.append_assoc]⟩
  · obtain ⟨k, _, hk, v, _, hv, rfl, rfl⟩ := h
    exact ⟨by simpa [Instr.wellFormed] using k.isLt, rfl,
      by rw [takeWord_eq_some hk, takeDouble_eq_some hv, Instr.operandBytes, BitVec.ofNat_toNat, BitVec.setWidth_eq,
        List.append_assoc]⟩
  · obtain ⟨a, _, ha, b, _, hb, rfl, rfl⟩ := h
    obtain ⟨hwfa, hbytesa⟩ := takeSig_eq_some ha
    obtain ⟨hwfb, hbytesb⟩ := takeSig_eq_some hb
    exact ⟨by simp [Instr.wellFormed, hwfa, hwfb], rfl, by rw [hbytesa, hbytesb, Instr.operandBytes, List.append_assoc]⟩
  · obtain ⟨rfl, rfl⟩ := h
    exact ⟨rfl, rfl, rfl⟩
  · obtain ⟨rfl, rfl⟩ := h
    exact ⟨rfl, rfl, rfl⟩
  · obtain ⟨name, _, hn, mode, _, hm, cb, _, hcb, ctx, _, hctx, rfl, rfl⟩ := h
    exact ⟨rfl, rfl, by
      simp only [takeWord_eq_some hn, takePinMode_eq_some hm, takeTag_eq_some hcb, takeTag_eq_some hctx,
        Instr.operandBytes, List.append_assoc]⟩
  · obtain ⟨name, _, hn, mode, _, hm, width, _, hw, cb, _, hcb, ctx, _, hctx, rfl, rfl⟩ := h
    obtain ⟨⟨hlow, hhigh⟩, hbytes⟩ := takeWidth_eq_some hw
    exact ⟨by simp [Instr.wellFormed, hlow, hhigh], rfl, by
      simp only [takeWord_eq_some hn, takePortMode_eq_some hm, hbytes, takeTag_eq_some hcb, takeTag_eq_some hctx,
        Instr.operandBytes, List.append_assoc]⟩
  · obtain ⟨name, _, hn, offset, _, ho, perm, _, hp, init, _, hi, cb, _, hcb, rfl, rfl⟩ := h
    exact ⟨rfl, rfl, by
      simp only [takeWord_eq_some hn, takeWord_eq_some ho, takePerm_eq_some hp, takeCellInit_eq_some hi,
        takeTag_eq_some hcb, Instr.operandBytes, List.append_assoc]⟩

theorem Packet.reservedClass10 (bo : ByteOrder) {d : BitVec 16}
    (h : (d.extractLsb' 12 4).toNat = 10 ∨ (d.extractLsb' 12 4).toNat = 11) (bs : List Byte) :
    Packet bo d bs (.rsvCls10 (d.extractLsb' 0 13)) bs := by
  refine ⟨rfl, BitVec.eq_of_toNat_eq ?_, rfl⟩
  have := d.isLt
  simp only [Instr.descriptor, toNat_append_eq, BitVec.extractLsb'_toNat, Nat.shiftRight_eq_div_pow,
    BitVec.toNat_ofNat] at h ⊢
  omega

theorem Packet.reservedClass12 (bo : ByteOrder) {d : BitVec 16} (h : 12 ≤ (d.extractLsb' 12 4).toNat) (bs : List Byte) :
    Packet bo d bs (.rsvCls12 (d.extractLsb' 0 14)) bs := by
  refine ⟨rfl, BitVec.eq_of_toNat_eq ?_, rfl⟩
  have := d.isLt
  simp only [Instr.descriptor, toNat_append_eq, BitVec.extractLsb'_toNat, Nat.shiftRight_eq_div_pow,
    BitVec.toNat_ofNat] at h ⊢
  omega

/-- What the body of a descriptor that names a row reads is that row's packet. -/
theorem decodeBody_packet {bo : ByteOrder} {d : BitVec 16} {bs rest : List Byte} {i : Instr} (hn : namesRow d = true)
    (h : decodeBody bo d bs = some (i, rest)) : Packet bo d bs i rest := by
  have fields := descriptor_fields d
  have class_fits := (d.extractLsb' 12 4).isLt
  simp only [namesRow, Bool.or_eq_true, Bool.and_eq_true, decide_eq_true_eq] at hn
  have access_d : (d.extractLsb' 12 4).toNat ≤ 1 → isAccess d = true := fun hle => by
    simp only [isAccess, Bool.and_eq_true, decide_eq_true_eq]
    exact ⟨(hn.resolve_left (by omega)).1, hle⟩
  have classes : (d.extractLsb' 12 4).toNat = 0 ∨ (d.extractLsb' 12 4).toNat = 1 ∨
      (2 ≤ (d.extractLsb' 12 4).toNat ∧ (d.extractLsb' 12 4).toNat ≤ 9) ∨
      ((d.extractLsb' 12 4).toNat = 10 ∨ (d.extractLsb' 12 4).toNat = 11) ∨ 12 ≤ (d.extractLsb' 12 4).toNat := by omega
  obtain hread | hwrite | ⟨hlow, hhigh⟩ | h10 | h12 := classes
  · simp only [decodeBody, hread] at h
    rw [isAccess_descriptor (access_d (by omega)), accessOf_of_class.1 hread]
    exact decodeRead_packet bo h
  · simp only [decodeBody, hwrite] at h
    rw [isAccess_descriptor (access_d (by omega)), accessOf_of_class.2 hwrite]
    exact decodeWrite_packet h
  · rw [decodeBody_operands bo d bs rfl hlow hhigh] at h
    obtain ⟨hz, hoff⟩ := hn.resolve_left (by omega)
    have hd : d = BitVec.ofNat 16 ((d.extractLsb' 12 4).toNat * 2 ^ 12) := by
      rw [hz, hoff.resolve_left (by omega)] at fields
      apply BitVec.eq_of_toNat_eq
      simp only [BitVec.ofNat_eq_ofNat, BitVec.toNat_ofNat] at fields ⊢
      omega
    have packet := decodeOperands_packet bo hlow hhigh h
    rwa [← hd] at packet
  · have hbody : decodeBody bo d bs = some (.rsvCls10 (d.extractLsb' 0 13), bs) := by
      rcases h10 with hc | hc <;> simp only [decodeBody, hc]
    cases hbody.symm.trans h
    exact Packet.reservedClass10 bo h10 bs
  · have hbody : decodeBody bo d bs = some (.rsvCls12 (d.extractLsb' 0 14), bs) := by
      have last_classes : (d.extractLsb' 12 4).toNat = 12 ∨ (d.extractLsb' 12 4).toNat = 13 ∨
        (d.extractLsb' 12 4).toNat = 14 ∨ (d.extractLsb' 12 4).toNat = 15 := by omega
      rcases last_classes with hc | hc | hc | hc <;> simp only [decodeBody, hc]
    cases hbody.symm.trans h
    exact Packet.reservedClass12 bo h12 bs

/-! ### Decode and encode -/

/-- What the decoder reads is a well-formed operation, from exactly its packet. -/
theorem decode_eq_ok {bo : ByteOrder} {bytes rest : List Byte} {i : Instr} (h : decode bo bytes = .ok (i, rest)) :
    i.wellFormed = true ∧ bytes = encode bo i ++ rest := by
  unfold decode at h
  split at h
  · next b0 b1 bs =>
    dsimp only at h
    split at h
    · next hn =>
      split at h <;> cases h
      next hb =>
      have packet := decodeBody_packet hn hb
      refine ⟨packet.wellFormed, ?_⟩
      rw [← packet.encode, descriptorBytes, BitVec.extractLsb'_append_eq_right, BitVec.extractLsb'_append_eq_left]
      rfl
    · cases h
  · cases h

open Sys2Proof.Laws in
/-- A well-formed operation is read back from its packet, whatever follows. -/
theorem decode_encode (bo : ByteOrder) (i : Instr) (rest : List Byte) (h : i.wellFormed = true) :
    decode bo (encode bo i ++ rest) = .ok (i, rest) := by
  have roundTrip : RoundTrip.Statement i := by
    cases i with
    | rdCtrl n => exact RoundTrip.rdCtrl n
    | wrCtrl n v => exact RoundTrip.wrCtrl n v
    | rdSrc n => exact RoundTrip.rdSrc n
    | wrSrc n v => exact RoundTrip.wrSrc n v
    | rdDst n => exact RoundTrip.rdDst n
    | wrDst n v => exact RoundTrip.wrDst n v
    | rdSize n => exact RoundTrip.rdSize n
    | wrSize n v => exact RoundTrip.wrSize n v
    | rdTrigger n => exact RoundTrip.rdTrigger n
    | wrTrigger n v => exact RoundTrip.wrTrigger n v
    | rdCfg k => exact RoundTrip.rdCfg k
    | wrCfg k v => exact RoundTrip.wrCfg k v
    | rdStatus k => exact RoundTrip.rdStatus k
    | wrStatus k v => exact RoundTrip.wrStatus k v
    | pinWrite p b => exact RoundTrip.pinWrite p b
    | portWrite k v => exact RoundTrip.portWrite k v
    | bind a b => exact RoundTrip.bind a b
    | teardown => exact RoundTrip.teardown
    | reset => exact RoundTrip.reset
    | createPin name mode cb ctx => exact RoundTrip.createPin name mode cb ctx
    | createPort name mode width cb ctx => exact RoundTrip.createPort name mode width cb ctx
    | createReg name offset perm init cb => exact RoundTrip.createReg name offset perm init cb
    | rsvChOff14 d n => exact RoundTrip.rsvChOff14 d n
    | rsvChOff18 d n hi => exact RoundTrip.rsvChOff18 d n hi
    | rsvOff120 d m => exact RoundTrip.rsvOff120 d m
    | rsvOff140 d m => exact RoundTrip.rsvOff140 d m
    | rsvOff180 d m => exact RoundTrip.rsvOff180 d m
    | rsvMisalignedB0 d m => exact RoundTrip.rsvMisalignedB0 d m
    | rsvMisalignedB1 d m => exact RoundTrip.rsvMisalignedB1 d m
    | rsvCls10 rest => exact RoundTrip.rsvCls10 rest
    | rsvCls12 rest => exact RoundTrip.rsvCls12 rest
  exact roundTrip bo rest h

/-- Settles O2: each operand form is read back from its bytes and read from nothing else, and a descriptor is what its
fields say. -/
theorem decodeEncodeInverse : Obligations.DecodeEncodeInverse :=
  fun bo i _ rest => ⟨decode_encode bo i rest, decode_eq_ok⟩

end Sys2Proof.Machine
end

section
/-!
PROOFS. What exec can do, said once: a register access, a write of another device's pin or port, a change of the fabric or
the platform, a rejection or a refusal. The rules over the whole machine are read off these cases.
-/

namespace Sys2Proof.Machine

/-- Every way an operation can go. -/
inductive ExecOf (s : State) : Result → Prop where
  /-- the access is rejected -/
  | rejected (d : BitVec 16) (width : Nat) : ExecOf s (badAccess d width s)
  /-- the operation has no meaning -/
  | refused (r : Refusal) (h : r.state = some s.markRefused) : ExecOf s (.refused r)
  /-- an event is recorded and nothing else happens -/
  | recorded (e : Event) : ExecOf s (.next (s.record e))
  /-- a register write -/
  | write (r : RegId) (v : Word) : ExecOf s (regWrite (topWrite s) r v s)
  /-- a write of another device's pin -/
  | pin (k : Nat) (v : SigVal) (h : s.dir (.pin (.ext k)) ≠ none) : ExecOf s (topWrite s (.pin (.ext k)) v s)
  /-- a write of another device's port -/
  | port (k : Nat) (v : SigVal) (h : s.dir (.port k) ≠ none) : ExecOf s (topWrite s (.port k) v s)
  /-- an output joined to a free input of its shape -/
  | bound (o i : Sig) (ho : s.dir o = some .output) (hi : s.dir i = some .input) (hs : s.shape o = s.shape i)
      (hfree : ∀ b ∈ s.bindings, b.2 ≠ i) : ExecOf s (.next { s with bindings := s.bindings ++ [(o, i)] })
  /-- the bindings dropped -/
  | teardown : ExecOf s (.next { s with bindings := [] })
  /-- the device reset -/
  | reset : ExecOf s (.next (resetDevice s))
  /-- a pin created -/
  | pinCreated (p : ExtPin) : ExecOf s (.next { s with extPins := s.extPins ++ [p] })
  /-- a port created -/
  | portCreated (p : ExtPort) (hlow : 1 ≤ p.width) (hhigh : p.width ≤ 64) (hstate : p.state = 0) :
      ExecOf s (.next { s with extPorts := s.extPorts ++ [p] })
  /-- a register of another device created -/
  | regCreated (r : OtherReg) : ExecOf s (.next { s with otherRegs := s.otherRegs ++ [r] })

/-! ### The operations -/

theorem regRead_of (r : RegId) (s : State) : ExecOf s (regRead r s) := by
  rw [regRead_eq]; exact .recorded _

theorem State.dir_of_isExtPort {s : State} {k : Nat} (h : s.isExtPort k = true) : s.dir (.port k) ≠ none := by
  simp only [State.isExtPort, decide_eq_true_eq] at h
  simp [State.dir, List.getElem?_eq_getElem h]

theorem State.dir_of_isExtPin {s : State} {k : Nat} (h : s.isExtPin (.ext k) = true) : s.dir (.pin (.ext k)) ≠ none := by
  simp only [State.isExtPin, decide_eq_true_eq] at h
  simp [State.dir, List.getElem?_eq_getElem h]

theorem execPinWrite_of (p : Pin) (b : Bool) (s : State) : ExecOf s (execPinWrite p b s) := by
  unfold execPinWrite
  split
  · next h =>
    cases p with
    | ext k => exact .pin k _ (State.dir_of_isExtPin h)
    | trig n i => cases h
    | done n => cases h
    | reqo n => cases h
  · exact .refused _ rfl

theorem execPortWrite_of (k : Nat) (v : SigVal) (s : State) : ExecOf s (execPortWrite k v s) := by
  unfold execPortWrite
  split
  · next h => exact .port k v (State.dir_of_isExtPort h)
  · exact .refused _ rfl

theorem State.bound_eq_false_iff {s : State} {i : Sig} : s.bound i = false ↔ ∀ b ∈ s.bindings, b.2 ≠ i := by
  simp [State.bound]

/-- The checks of a bind that come after the directions, for an output and an input in either order. -/
theorem bindOriented_of {a b o i : Sig} {s : State} (ho : s.dir o = some .output) (hi : s.dir i = some .input)
    (hshape : s.shape a = s.shape b → s.shape o = s.shape i) : ExecOf s (bindOriented a b (o, i) s) := by
  unfold bindOriented
  split
  · exact .recorded _
  · next hs =>
    split
    · exact .recorded _
    · next hfree =>
      exact .bound o i ho hi (hshape (not_not.mp hs)) (State.bound_eq_false_iff.mp (Bool.not_eq_true _ ▸ hfree))

theorem bindSignals_of (a b : Sig) (s : State) : ExecOf s (bindSignals a b s) := by
  unfold bindSignals
  split
  · exact .refused _ rfl
  · exact .refused _ rfl
  · next da db ha hb =>
    split
    · exact .recorded _
    · next hne =>
      cases da <;> cases db
      · exact absurd rfl hne
      · exact bindOriented_of hb ha Eq.symm
      · exact bindOriented_of ha hb id
      · exact absurd rfl hne

theorem execCreatePort_of (name : Tag) (mode : PortMode) (width : Nat) (cb ctx : Option Tag) (s : State) :
    ExecOf s (execCreatePort name mode width cb ctx s) := by
  unfold execCreatePort
  split
  · next h => exact .portCreated _ h.1 h.2 rfl
  · exact .refused _ rfl

/-- Every operation goes one of these ways. -/
theorem exec_of (i : Instr) (s : State) : ExecOf s (exec i s) := by
  cases i with
  | rdCtrl n => exact regRead_of (.ctrl n) s
  | rdSrc n => exact regRead_of (.src n) s
  | rdDst n => exact regRead_of (.dst n) s
  | rdSize n => exact regRead_of (.size n) s
  | rdTrigger n => exact regRead_of (.trigger n) s
  | rdCfg k => exact regRead_of (.cfg k) s
  | rdStatus k => exact regRead_of (.status k) s
  | wrCtrl n v => exact .write (.ctrl n) v
  | wrSrc n v => exact .write (.src n) v
  | wrDst n v => exact .write (.dst n) v
  | wrSize n v => exact .write (.size n) v
  | wrTrigger n v => exact .write (.trigger n) v
  | wrCfg k v => exact .write (.cfg k) v
  | wrStatus k v => exact .write (.status k) v
  | pinWrite p b => exact execPinWrite_of p b s
  | portWrite k v => exact execPortWrite_of k v s
  | bind a b => exact bindSignals_of a b s
  | teardown => exact .teardown
  | reset => exact .reset
  | createPin name mode cb ctx => exact .pinCreated _
  | createPort name mode width cb ctx => exact execCreatePort_of name mode width cb ctx s
  | createReg name offset perm init cb => exact .regCreated _
  | rsvChOff14 d n | rsvOff120 d n | rsvOff140 d n | rsvOff180 d n | rsvMisalignedB0 d n | rsvMisalignedB1 d n =>
    exact .rejected _ 4
  | rsvChOff18 d n hi => exact .rejected _ 4
  | rsvCls10 rest | rsvCls12 rest => exact .refused _ rfl

/-- What an operation answers is the outcome of one of these ways. -/
theorem exec_ways {i : Instr} {s : State} {o : Result} (e : exec i s = o) : ∃ o', o = o' ∧ ExecOf s o' :=
  ⟨_, e.symm, exec_of i s⟩

/-- What a step with a packet pending answers is the outcome of one of its ways. -/
theorem step_ways {s : State} {p : Issued} {rest : List Issued} {o : Result} (hp : s.pending = p :: rest)
    (h : step s = o) : ∃ o', o = o' ∧ StepOf { s with pending := rest } o' :=
  ⟨_, h.symm, step_of hp⟩

/-- A property that no pending packet bears on and every operation keeps is kept by every step. -/
theorem step_keeps {P : State → Prop} (hq : ∀ s rest, P s → P { s with pending := rest })
    (hx : ∀ i s t, P s → exec i s = .next t → P t) {s t : State} (hs : P s) (h : step s = .next t) : P t := by
  obtain ⟨-, rfl⟩ | ⟨p, rest, i, -, hexec⟩ := step_next h
  · exact hs
  · exact hx i _ t (hq s rest hs) hexec

end Sys2Proof.Machine
end

section
/-!
PROOFS. Between operations nothing is in progress (43_dma_transfer.md R124, 70_reset_and_hazards.md R158): the invariant
`Quiet` over every way an operation can go.
-/

namespace Sys2Proof.Machine

/-- A signal write or register write that settles keeps the device quiet. -/
theorem Quiet.settles {s t : State} (q : Quiet s) (b : BindingsOk s) (h : Settles none s t) : Quiet t where
  propagating := h.kept.propagating.trans q.propagating
  inCallback := h.kept.inCallback.trans q.inCallback
  active n := (h.kept.active n).trans (q.active n)
  run n := (h.clear b n).run (q.run n)
  done n := (h.clear b n).done (by simp) (q.done n)
  reqo n := (h.clear b n).reqo (by simp) (q.reqo n)

theorem topWrite_settles (s : State) : RespectsUses (fun _ => True) (Settles none) (topWrite s) :=
  sigWrite_settles (nestBound s)

theorem Quiet.resetDevice (s : State) : Quiet (Machine.resetDevice s) := by
  refine ⟨rfl, rfl, ?_, ?_, ?_, ?_⟩ <;> intro n <;> rw [resetDevice_chan] <;> rfl

theorem exec_quiet {i : Instr} {s t : State} (b : BindingsOk s) (q : Quiet s) (e : exec i s = .next t) : Quiet t := by
  obtain ⟨o, ho, ways⟩ := exec_ways e
  cases ways with
  | rejected | refused => cases ho
  | write r v => exact q.settles b (regWrite_stable settles_inside (topWrite_settles s) trivial trivial ho.symm)
  | pin k v => exact q.settles b ((topWrite_settles s).pin k v s t trivial ho.symm)
  | port k v => exact q.settles b ((topWrite_settles s).port k v s t trivial ho.symm)
  | reset => cases ho; exact Quiet.resetDevice s
  | recorded | bound | teardown | pinCreated | portCreated | regCreated =>
    cases ho; exact ⟨q.propagating, q.inCallback, q.active, q.run, q.done, q.reqo⟩

/-- Settles O57: over a well-formed binding list every use of a signal write settles, to any depth of nesting. -/
theorem quietBetweenOperations : Obligations.QuietBetweenOperations := by
  intro s t b q h
  obtain ⟨-, rfl⟩ | ⟨p, rest, i, -, hexec⟩ := step_next h
  · exact q
  · exact exec_quiet (s := { s with pending := rest }) ⟨b.ends, b.once⟩
      ⟨q.propagating, q.inCallback, q.active, q.run, q.done, q.reqo⟩ hexec

end Sys2Proof.Machine
end

section
/-!
PROOFS. How a step can end (60_exceptions.md R131 to R133): what its marks, its history and its parameters are, that a
refusal changes nothing but its mark, and that the bound on the nesting of signal writes is never reached.
-/

namespace Sys2Proof.Machine

/-! ### Faults and refusals of an operation -/

theorem regWrite_topWrite_ends (r : RegId) (v : Word) (s : State) : Ends s (regWrite (topWrite s) r v s) :=
  regWrite_ends (topWrite_stable kept_stable s) (fun _ _ _ _ hd h => topWrite_ends hd h (room_le s)) (Within.refl s)

theorem topWrite_top_ends {p : Sig} (v : SigVal) {s : State} (h : s.dir p ≠ none) : Ends s (topWrite s p v s) :=
  topWrite_ends h (Within.refl s) (room_le s)

/-- A faulting operation carries what was recorded before, with the fault mark set, and the fault is one of the spec's. -/
theorem exec_fault {i : Instr} {s : State} {f : Fault} (e : exec i s = .fault f) :
    Ends s (.fault f : Result) := by
  obtain ⟨o, ho, ways⟩ := exec_ways e
  rw [ho]
  cases ways with
  | rejected d width => exact badAccess_ends (Within.refl s)
  | write r v => exact regWrite_topWrite_ends r v s
  | pin k v h => exact topWrite_top_ends v h
  | port k v h => exact topWrite_top_ends v h
  | refused | recorded | bound | teardown | reset | pinCreated | portCreated | regCreated => cases ho

/-- A refused operation changes nothing but the refusal mark: no register or signal write refuses. -/
theorem exec_refused {i : Instr} {s : State} {r : Refusal} (e : exec i s = .refused r) :
    r.state = some s.markRefused := by
  obtain ⟨o, ho, ways⟩ := exec_ways e
  cases ways with
  | refused r' h => cases ho; exact h
  | write x v => exact (ho ▸ regWrite_topWrite_ends x v s : Ends s (.refused r : Result)).elim
  | pin k v h => exact (ho ▸ topWrite_top_ends v h : Ends s (.refused r : Result)).elim
  | port k v h => exact (ho ▸ topWrite_top_ends v h : Ends s (.refused r : Result)).elim
  | rejected | recorded | bound | teardown | reset | pinCreated | portCreated | regCreated => cases ho

/-- The parameters and the marks are as they were, but for a refusal mark that a callback set, and the history grew. -/
structure Carried (s t : State) : Prop where
  params : t.params = s.params
  faultMark : t.faultMark = s.faultMark
  refusalMark : s.refusalMark = true → t.refusalMark = true
  hist : ∃ es, t.hist = s.hist ++ es

theorem Kept.carried {s t : State} (h : Kept s t) : Carried s t := ⟨h.params, h.faultMark, h.refusalMark, h.hist⟩

theorem exec_carried {i : Instr} {s t : State} (e : exec i s = .next t) : Carried s t := by
  obtain ⟨o, ho, ways⟩ := exec_ways e
  cases ways with
  | rejected | refused => cases ho
  | recorded event => cases ho; exact (Kept.record s event).carried
  | write r v => exact (regWrite_kept ho.symm).carried
  | pin k v | port k v => exact (topWrite_kept ho.symm).carried
  | bound | teardown | reset | pinCreated | portCreated | regCreated =>
    cases ho; exact ⟨rfl, rfl, id, [], (List.append_nil _).symm⟩

/-! ### Faults and refusals of a step -/

/-- A step that faults had a packet pending, and ends as an operation in the state without it. -/
theorem step_fault {s : State} {f : Fault} (h : step s = .fault f) :
    ∃ rest, Ends { s with pending := rest } (.fault f : Result) := by
  cases hp : s.pending with
  | nil => rw [step_idle hp] at h; cases h
  | cons p rest =>
    refine ⟨rest, ?_⟩
    obtain ⟨o, ho, ways⟩ := step_ways hp h
    cases ways with
    | rejected d width => rw [ho]; exact badAccess_ends (Within.refl _)
    | nameless => cases ho
    | ran i => exact exec_fault ho.symm

/-- A step that refuses had a packet pending, and carries the state without it, refused. -/
theorem step_refused {s : State} {r : Refusal} (h : step s = .refused r) :
    ∃ p rest, s.pending = p :: rest ∧ r.state = some { s with pending := rest, refusalMark := true } := by
  cases hp : s.pending with
  | nil => rw [step_idle hp] at h; cases h
  | cons p rest =>
    refine ⟨p, rest, rfl, ?_⟩
    obtain ⟨o, ho, ways⟩ := step_ways hp h
    cases ways with
    | rejected d width => cases ho
    | nameless r' hr => cases ho; obtain rfl | ⟨d, rfl⟩ | ⟨d, rfl⟩ := hr <;> rfl
    | ran i => exact exec_refused ho.symm

/-- Settles O58: for a next state, a fault and a refusal in turn. -/
theorem marksAndHistory : Obligations.MarksAndHistory := by
  refine ⟨fun s t h => ?_, fun s f h => ?_, fun s r h => ?_⟩
  · obtain ⟨-, rfl⟩ | ⟨p, rest, i, -, hexec⟩ := step_next h
    · exact ⟨rfl, rfl, id, [], (List.append_nil _).symm⟩
    · obtain ⟨hparams, hfault, hrefusal, hhist⟩ := exec_carried hexec
      exact ⟨hparams, hfault, hrefusal, hhist⟩
  · obtain ⟨rest, hfault, hparams, hhist, hrefusal, -⟩ := step_fault h
    exact ⟨hfault, hrefusal, hparams, hhist⟩
  · obtain ⟨p, rest, -, hstate⟩ := step_refused h
    exact ⟨_, hstate, rfl, rfl, rfl, rfl⟩

/-- Settles O60: a fault of a step is one of the spec's. -/
theorem nestingBoundNeverReached : Obligations.NestingBoundNeverReached := by
  intro s t h
  obtain ⟨rest, -, -, -, -, hspec⟩ := step_fault h
  exact hspec t rfl

/-! ### Refusals inside a callback -/

/-- The class of a register access, at any offset of the window. -/
theorem accessDescriptor_class (d : Access) {off : Nat} (h : off < 2 ^ 9) :
    ((accessDescriptor d off).extractLsb' 12 4).toNat ≤ 1 := by
  cases d <;> simp only [accessDescriptor, BitVec.extractLsb'_toNat, BitVec.toNat_ofNat, Nat.shiftRight_eq_div_pow] <;>
    omega

/-- A callback performs no operation of class 4 or above. -/
theorem nestedOp_class (write : Writer) {i : Instr} (s : State) (h : 4 ≤ (i.descriptor.extractLsb' 12 4).toNat) :
    nestedOp write i s = .next s.markRefused := by
  have no_access : ∀ d off, off < 2 ^ 9 → i.descriptor ≠ accessDescriptor d off := fun d off hoff he => by
    have := accessDescriptor_class d hoff
    rw [← he] at this
    omega
  cases i with
  | bind | teardown | reset | createPin | createPort | createReg | rsvCls10 | rsvCls12 => rfl
  | pinWrite | portWrite => simp [Instr.descriptor] at h
  | rdCtrl n | rdSrc n | rdDst n | rdSize n | rdTrigger n | rdCfg n | rdStatus n =>
    exact absurd rfl (no_access .read _ (by simp only [RegId.offset]; omega))
  | wrCtrl n v | wrSrc n v | wrDst n v | wrSize n v | wrTrigger n v | wrCfg n v | wrStatus n v =>
    exact absurd rfl (no_access .write _ (by simp only [RegId.offset]; omega))
  | rsvChOff14 d n | rsvOff120 d n | rsvOff140 d n | rsvOff180 d n | rsvMisalignedB0 d n | rsvMisalignedB1 d n =>
    exact absurd rfl (no_access d _ (by omega))
  | rsvChOff18 d n hi => exact absurd rfl (no_access d _ (by split <;> omega))

/-- Of the classes 0 to 3 a callback performs all but the writes of signals that are no other device's. -/
theorem nestedOp_refuses (write : Writer) {i : Instr} {s : State}
    (h : 4 ≤ (i.descriptor.extractLsb' 12 4).toNat ∨
      (∃ p b, i = .pinWrite p b ∧ ∀ k, p = .ext k → s.extPins.length ≤ k) ∨
      ∃ k v, i = .portWrite k v ∧ s.extPorts.length ≤ k) : nestedOp write i s = .next s.markRefused := by
  obtain hclass | ⟨p, b, rfl, hp⟩ | ⟨k, v, rfl, hk⟩ := h
  · exact nestedOp_class write s hclass
  · have hext : s.isExtPin p = false := by
      cases p with
      | ext k => simpa [State.isExtPin] using hp k rfl
      | trig | done | reqo => rfl
    simp [nestedOp, hext, refuseNested]
  · simp [nestedOp, State.isExtPort, hk, refuseNested]

/-- Settles O59: at the top level the step's own refusal, in a callback the nested one, after which the rest goes on. -/
theorem refusalsChangeNothing : Obligations.RefusalsChangeNothing := by
  refine ⟨fun s r => step_refused, fun write i is s h => ?_⟩
  have refuses := nestedOp_refuses write h
  exact ⟨refuses, by rw [nestedOps, refuses]; rfl⟩

end Sys2Proof.Machine
end

section
/-!
PROOFS. Invariants of what a program sets up: a property that reads CTRL, CFG, the sensitivities, the parameters and the
form of the memory only, and that the engine's clearing of DMAEN, the CTRL and CFG writes and RESET keep, is kept by every
step. The canonical memory, the reserved bits and the sensitivities are three such properties.
-/

namespace Sys2Proof.Machine

/-! ### What such a property reads -/

/-- CTRL, CFG, the sensitivities and the parameters are as they were, and a canonical memory is canonical. -/
structure SameSetup (s t : State) : Prop where
  ctrl : ∀ n, (t.chan n).ctrl.cur = (s.chan n).ctrl.cur
  sens : ∀ (n : Chan) (i : Source), (t.chan n).trig[i].sens = (s.chan n).trig[i].sens
  cfg : t.cfg = s.cfg
  params : t.params = s.params
  mem : Memory.wf s.mem = true → Memory.wf t.mem = true

theorem SameSetup.of_fields {s t : State} (hchans : t.chans = s.chans := by rfl) (hcfg : t.cfg = s.cfg := by rfl)
    (hparams : t.params = s.params := by rfl) (hmem : t.mem = s.mem := by rfl) : SameSetup s t :=
  ⟨fun n => by simp only [State.chan, hchans], fun n i => by simp only [State.chan, hchans], hcfg, hparams,
    fun h => hmem ▸ h⟩

theorem SameSetup.bus {s t : State} (h : BusOnly s t) : SameSetup s t := by
  obtain ⟨as, d, ws, es, rfl⟩ := h
  exact ⟨fun _ => rfl, fun _ _ => rfl, rfl, rfl, memSetAll_wf ws⟩

/-- A change of one channel that keeps CTRL and the sensitivities. -/
theorem SameSetup.modChan (s : State) (n : Chan) (f : Channel → Channel)
    (hctrl : (f (s.chan n)).ctrl = (s.chan n).ctrl := by rfl)
    (hsens : ∀ i : Source, (f (s.chan n)).trig[i].sens = (s.chan n).trig[i].sens := by intro i; rfl) :
    SameSetup s (s.modChan n f) := by
  refine ⟨fun m => ?_, fun m i => ?_, rfl, rfl, id⟩ <;> rw [State.modChan_chan] <;> split
  · next h => subst h; rw [hctrl]
  · rfl
  · next h => subst h; exact hsens i
  · rfl

theorem SameSetup.setSig (s : State) (p : Sig) (v : SigVal) : SameSetup s (s.setSig p v) := by
  obtain (k | ⟨n, i⟩ | n | n) | k := p
  · exact .of_fields
  · unfold State.setSig
    refine .modChan s n _ (hsens := fun j => ?_)
    simp only [Fin.getElem_fin, Vector.getElem_set]
    split
    · next h => simp only [h]
    · rfl
  · unfold State.setSig; exact .modChan s n _
  · unfold State.setSig; exact .modChan s n _
  · exact .of_fields

/-! ### Such properties -/

/-- A property of the set-up that its own changes keep. -/
structure SetupInvariant (P : State → Prop) : Prop where
  same : ∀ {s t}, SameSetup s t → P s → P t
  clearEnable : ∀ s n, P s → P (clearEnable s n)
  ctrlWrite : ∀ s n v, P s → P (ctrlCommitted n v s)
  cfgWrite : ∀ s k v, P s → P (s.commit (.cfg k) v)
  reset : ∀ s, P s → P (resetDevice s)

/-- The bindings stay, and with them the property. -/
structure KeepsSetup (P : State → Prop) (s t : State) : Prop where
  bindings : t.bindings = s.bindings
  keeps : P s → P t

variable {P : State → Prop}

theorem KeepsSetup.trans {s t u : State} (h : KeepsSetup P s t) (k : KeepsSetup P t u) : KeepsSetup P s u :=
  ⟨k.bindings.trans h.bindings, k.keeps ∘ h.keeps⟩

theorem SetupInvariant.modChan (inv : SetupInvariant P) (s : State) (n : Chan) (f : Channel → Channel)
    (hctrl : (f (s.chan n)).ctrl = (s.chan n).ctrl := by rfl) (htrig : (f (s.chan n)).trig = (s.chan n).trig := by rfl) :
    KeepsSetup P s (s.modChan n f) :=
  ⟨rfl, inv.same (.modChan s n f hctrl fun _ => by rw [htrig])⟩

theorem SetupInvariant.commit_trigger (inv : SetupInvariant P) (s : State) (n : Chan) (v : Word) :
    KeepsSetup P s (s.commit (.trigger n) v) := by
  rw [Machine.commit_trigger]; exact inv.modChan s n _

theorem SetupInvariant.commit (inv : SetupInvariant P) (s : State) {r : RegId} (v : Word) (hp : regPerm r ≠ .ro)
    (hh : regHandler r = none) : KeepsSetup P s (s.commit r v) := by
  cases r with
  | ctrl n | trigger n => cases hh
  | status k => exact absurd rfl hp
  | cfg k => exact ⟨rfl, inv.cfgWrite s k v⟩
  | src n => rw [commit_src]; exact inv.modChan s n _
  | dst n => rw [commit_dst]; exact inv.modChan s n _
  | size n => rw [commit_size]; exact inv.modChan s n _

/-- Every signal write keeps such a property, whatever it reaches. -/
theorem SetupInvariant.stable (inv : SetupInvariant P) : StableEverywhere (KeepsSetup P) where
  refl _ := ⟨rfl, id⟩
  trans := KeepsSetup.trans
  bindings h := h.bindings
  bus h := ⟨(Kept.bus h).bindings, inv.same (.bus h)⟩
  counters s n b c _ := by cases b <;> (unfold setCounters; exact inv.modChan s n _)
  loadWorking s n _ := inv.modChan s n _
  configError s n _ := inv.modChan s n _
  requested s n _ := inv.modChan s n _
  completed s n _ := inv.modChan s n _
  passEnded s n _ := inv.modChan s n _
  clearEnable s n _ := ⟨rfl, inv.clearEnable s n⟩
  invocation _ _ h _ k := ((inv.modChan _ _ _).trans (h.trans k)).trans (inv.modChan _ _ _)
  inner h := h
  innerTrans := KeepsSetup.trans
  innerBindings h := h.bindings
  setSig s _ i v _ := ⟨by simp, inv.same (.setSig s i v)⟩
  output {s t p v} _ _ h :=
    ⟨by simpa using h.bindings, fun hs => inv.same .of_fields (h.keeps
      (inv.same (.of_fields (s := s.setSig p v) rfl rfl rfl rfl) (inv.same (.setSig s p v) hs)))⟩
  markRefused _ _ := ⟨rfl, inv.same .of_fields⟩
  commit _ s _ v hp hh := inv.commit s v hp hh
  arm _ s n := KeepsSetup.trans (t := loadWorking s n) (inv.modChan s n _)
    (show KeepsSetup P (loadWorking s n) (modFlags (loadWorking s n) n Flags.armed) from inv.modChan _ n _)
  ctrlWrite _ _ h := ⟨h.bindings, fun hs => inv.same .of_fields (h.keeps (inv.ctrlWrite _ _ _ hs))⟩
  triggerWrite {s _ n v} _ _ h := ⟨h.bindings, fun hs => inv.same .of_fields
    (h.keeps (inv.same .of_fields ((inv.commit_trigger s n v).keeps hs)))⟩

theorem SetupInvariant.exec (inv : SetupInvariant P) {i : Instr} {s t : State} (hs : P s) (e : exec i s = .next t) :
    P t := by
  have writes := topWrite_stable inv.stable s
  obtain ⟨o, ho, ways⟩ := exec_ways e
  cases ways with
  | rejected | refused => cases ho
  | write r v =>
    exact (regWrite_stable inv.stable.toStableInside (writes.uses inv.stable.toStableInside) trivial trivial ho.symm).keeps hs
  | pin k v | port k v => exact (writes _ v s t trivial ho.symm).keeps hs
  | reset => cases ho; exact inv.reset s hs
  | recorded | bound | teardown | pinCreated | portCreated | regCreated =>
    cases ho; exact inv.same .of_fields hs

/-- Every step keeps such a property. -/
theorem SetupInvariant.step (inv : SetupInvariant P) {s t : State} (hs : P s) (h : step s = .next t) : P t :=
  step_keeps (fun _ _ => inv.same .of_fields) (fun _ _ _ hs => inv.exec hs) hs h

/-! ### The canonical memory -/

theorem memoryCanonical_invariant : SetupInvariant fun s => Memory.wf s.mem = true where
  same h := h.mem
  clearEnable _ _ := id
  ctrlWrite _ _ _ := id
  cfgWrite _ _ _ := id
  reset _ := id

/-- Settles O53: of the set-up only the bus changes the memory, by writes of single bytes. -/
theorem memoryStaysCanonical : Obligations.MemoryStaysCanonical := fun _ _ => memoryCanonical_invariant.step

/-! ### What a CTRL write sets up -/

theorem ctrlCommitted_channel (n : Chan) (v : Word) (s : State) : (ctrlCommitted n v s).chan n = { s.chan n with
    ctrl := { cur := v &&& ctrlMask s.params.ctrlLayout, prev := (s.chan n).ctrl.cur }
    trig := mapEntries (fun p => { p with
      sens := sensOf (ctrlLevel s.params.ctrlLayout (v &&& ctrlMask s.params.ctrlLayout)) }) (s.chan n).trig } :=
  (congrArg (·.chan n) (ctrlCommitted_eq n v s)).trans (ctrlStored_chan n v s)

theorem ctrlCommitted_channel_ne {n m : Chan} (v : Word) (s : State) (h : m ≠ n) :
    (ctrlCommitted n v s).chan m = s.chan m :=
  (congrArg (·.chan m) (ctrlCommitted_eq n v s)).trans ((ctrlStored_only n v s).others m h)

/-! ### The reserved bits -/

theorem and_mask_and_not (v m : Word) : v &&& m &&& ~~~m = 0 := by
  rw [BitVec.and_assoc, BitVec.and_not_self]; exact BitVec.and_zero

theorem ReservedZero.resetDevice (s : State) : ReservedZero (Machine.resetDevice s) :=
  ⟨fun n => by rw [resetDevice_chan]; exact BitVec.zero_and, fun k => by rw [resetDevice_cfgCell]; exact BitVec.zero_and⟩

theorem reservedZero_invariant : SetupInvariant ReservedZero where
  same h r := ⟨fun n => by rw [h.ctrl, h.params]; exact r.ctrl n, fun k => by
    rw [State.cfgCell, h.cfg]; exact r.cfg k⟩
  clearEnable s n r := ⟨fun m => by
    by_cases h : n = m
    · subst h
      simp only [clearEnable, State.modChan_chan_same, clearEn]
      rw [BitVec.and_assoc, BitVec.and_comm (~~~ _), ← BitVec.and_assoc, State.modChan_params, r.ctrl]
      exact BitVec.zero_and
    · rw [clearEnable, State.modChan_chan_ne s _ h]; exact r.ctrl m, r.cfg⟩
  ctrlWrite s n v r := ⟨fun m => by
    by_cases h : m = n
    · subst h
      rw [ctrlCommitted_channel]; exact and_mask_and_not v _
    · rw [ctrlCommitted_channel_ne v s h]; exact r.ctrl m, r.cfg⟩
  cfgWrite s k v r := ⟨r.ctrl, fun j => by
    rw [commit_cfg, State.setCfg_cfgCell]
    split
    · exact and_mask_and_not v _
    · exact r.cfg j⟩
  reset s _ := .resetDevice s

/-- Settles O54: writes are masked, and the engine only clears a bit. -/
theorem reservedBitsStayZero : Obligations.ReservedBitsStayZero := fun _ _ => reservedZero_invariant.step

/-! ### The sensitivities -/

/-- The sensitivities follow DMALEVEL, in a layout where clearing DMAEN leaves DMALEVEL alone. -/
structure LevelFollowed (s : State) : Prop where
  apart : s.params.ctrlLayout.level ≠ s.params.ctrlLayout.en
  follows : SensFollows s

theorem ctrlLevel_clearEn {l : CtrlLayout} (h : l.level ≠ l.en) (w : Word) :
    ctrlLevel l (clearEn l w) = ctrlLevel l w := by
  have mask_bit : (fieldMask l.en 1).getLsbD l.level = false := by
    rw [fieldMask, BitVec.getLsbD_ofNat, Nat.pow_one, Nat.one_mul, Nat.testBit_two_pow_of_ne h.symm, Bool.and_false]
  rw [ctrlLevel, ctrlLevel, clearEn, BitVec.getLsbD_and, BitVec.getLsbD_not, mask_bit]
  by_cases hlt : l.level < 32
  · simp only [hlt, decide_true, Bool.not_false, Bool.and_true]
  · rw [BitVec.getLsbD_of_ge w _ (Nat.le_of_not_lt hlt), Bool.false_and]

/-- After RESET every trigger input is posedge-sensitive and DMALEVEL is 0. -/
theorem SensFollows.resetDevice (s : State) : SensFollows (Machine.resetDevice s) := fun n i => by
  simp only [State.sens, State.lvl, resetDevice_chan, resetDevice_ctrlWord, Channel.reset_trig]
  simp [ctrlLevel, sensOf]

theorem levelFollowed_invariant : SetupInvariant LevelFollowed where
  same h r := ⟨by rw [h.params]; exact r.apart, fun n i => by
    rw [State.lvl, State.ctrlWord, h.params, h.ctrl]
    exact (h.sens n i).trans (r.follows n i)⟩
  clearEnable s n r := ⟨r.apart, fun m i => by
    by_cases h : n = m
    · subst h
      have level_kept : (clearEnable s n).lvl n = s.lvl n := by
        simp only [State.lvl, State.ctrlWord, clearEnable, State.modChan_chan_same, State.modChan_params]
        exact ctrlLevel_clearEn r.apart _
      rw [level_kept, ← r.follows n i]
      simp only [State.sens, clearEnable, State.modChan_chan_same]
    · have chan_kept : (clearEnable s n).chan m = s.chan m := State.modChan_chan_ne s _ h
      simp only [State.sens, State.lvl, State.ctrlWord, chan_kept]
      exact r.follows m i⟩
  ctrlWrite s n v r := ⟨r.apart, fun m i => by
    by_cases h : m = n
    · subst h
      simp only [State.sens, State.lvl, State.ctrlWord, ctrlCommitted_channel, Fin.getElem_fin, mapEntries_getElem]
      rfl
    · simp only [State.sens, State.lvl, State.ctrlWord, ctrlCommitted_channel_ne v s h]
      exact r.follows m i⟩
  cfgWrite _ _ _ r := ⟨r.apart, r.follows⟩
  reset s r := ⟨r.apart, .resetDevice s⟩

/-- Settles O55: the CTRL write sets both together, and the engine changes neither. -/
theorem sensitivityFollowsLevel : Obligations.SensitivityFollowsLevel :=
  fun _ _ hapart hfollows h => (levelFollowed_invariant.step ⟨hapart, hfollows⟩ h).follows

end Sys2Proof.Machine
end

section
/-!
PROOFS. The binding list and the ports stay well formed (10_state.md R32, R34): what a create and a bind leave of the
directions and shapes, and that a signal write leaves a value of its width in every port, since the values it delivers are
cut to the width that an output and its inputs share.
-/

namespace Sys2Proof.Machine

/-! ### The binding list under bind and create -/

theorem BindingsOk.bind {s : State} (b : BindingsOk s) {o i : Sig} (ho : s.dir o = some .output)
    (hi : s.dir i = some .input) (hs : s.shape o = s.shape i) (hfree : ∀ x ∈ s.bindings, x.2 ≠ i) :
    BindingsOk { s with bindings := s.bindings ++ [(o, i)] } := by
  refine ⟨fun x hx => ?_, ?_⟩
  · obtain hx | rfl := by simpa only [List.mem_append, List.mem_singleton] using hx
    · exact b.ends x hx
    · exact ⟨ho, hi, hs⟩
  · have fresh : i ∉ s.bindings.map Prod.snd := by
      rintro hmem
      obtain ⟨x, hx, rfl⟩ := List.mem_map.mp hmem
      exact hfree x hx rfl
    simpa only [List.map_append, List.map_cons, List.map_nil] using
      List.nodup_append.mpr ⟨b.once, List.nodup_singleton i, fun x hx y hy => by
        rintro rfl; exact fresh (List.mem_singleton.mp hy ▸ hx)⟩

/-- The state with signals of other devices appended. -/
def State.withSignals (s : State) (pins : List ExtPin) (ports : List ExtPort) : State :=
  { s with extPins := s.extPins ++ pins, extPorts := s.extPorts ++ ports }

theorem getElem?_append_of_eq_some {α : Type} {l : List α} {k : Nat} {a : α} (h : l[k]? = some a) (m : List α) :
    (l ++ m)[k]? = some a := by
  rw [List.getElem?_append_left (List.getElem?_eq_some_iff.mp h).1, h]

/-- A signal that existed keeps its direction and its shape. -/
theorem State.withSignals_dir {s : State} {p : Sig} {d : Dir} (pins : List ExtPin) (ports : List ExtPort)
    (h : s.dir p = some d) : (s.withSignals pins ports).dir p = some d ∧ (s.withSignals pins ports).shape p = s.shape p := by
  obtain (k | ⟨n, i⟩ | n | n) | k := p
  · obtain ⟨q, hq, hd⟩ := Option.map_eq_some_iff.mp h
    exact ⟨Option.map_eq_some_iff.mpr ⟨q, getElem?_append_of_eq_some hq pins, hd⟩, rfl⟩
  · exact ⟨h, rfl⟩
  · exact ⟨h, rfl⟩
  · exact ⟨h, rfl⟩
  · obtain ⟨q, hq, hd⟩ := Option.map_eq_some_iff.mp h
    have hq' := getElem?_append_of_eq_some hq ports
    exact ⟨Option.map_eq_some_iff.mpr ⟨q, hq', hd⟩, by simp only [State.shape, State.withSignals, hq, hq']⟩

theorem BindingsOk.withSignals {s : State} (b : BindingsOk s) (pins : List ExtPin) (ports : List ExtPort) :
    BindingsOk (s.withSignals pins ports) := by
  refine ⟨fun x hx => ?_, b.once⟩
  obtain ⟨ho, hi, hs⟩ := b.ends x hx
  obtain ⟨ho', hso⟩ := State.withSignals_dir pins ports ho
  obtain ⟨hi', hsi⟩ := State.withSignals_dir pins ports hi
  exact ⟨ho', hi', by rw [hso, hsi, hs]⟩

theorem exec_bindingsOk {i : Instr} {s t : State} (b : BindingsOk s) (e : exec i s = .next t) : BindingsOk t := by
  obtain ⟨o, ho, ways⟩ := exec_ways e
  cases ways with
  | rejected | refused => cases ho
  | write r v => exact (regWrite_kept ho.symm).bindingsOk b
  | pin k v | port k v => exact (topWrite_kept ho.symm).bindingsOk b
  | bound o i hout hin hshape hfree => cases ho; exact b.bind hout hin hshape hfree
  | teardown => cases ho; exact ⟨by simp, by simp⟩
  | pinCreated p => cases ho; simpa [State.withSignals] using b.withSignals [p] []
  | portCreated p => cases ho; simpa [State.withSignals] using b.withSignals [] [p]
  | recorded | reset | regCreated => cases ho; exact ⟨b.ends, b.once⟩

/-! ### Ports -/

/-- Port k, if there is one, is 1 to 64 bits wide and holds a value of its width. -/
def PortFits (s : State) (k : Nat) : Prop :=
  ∀ p, s.extPorts[k]? = some p → 1 ≤ p.width ∧ p.width ≤ 64 ∧ p.state.toNat < 2 ^ p.width

theorem portsOk_iff (s : State) : PortsOk s ↔ ∀ k, PortFits s k := by
  simp only [PortsOk, PortFits, List.mem_iff_getElem?]
  exact ⟨fun h k p hp => h p ⟨k, hp⟩, fun h p ⟨k, hp⟩ => h k p hp⟩

theorem PortFits.congr {s t : State} {k : Nat} (h : t.extPorts[k]? = s.extPorts[k]?) (f : PortFits s k) : PortFits t k := by
  rwa [PortFits, h]

/-- The output `o` or an input bound to it: what a write of `o` sets. -/
def OnWire (B : List (Sig × Sig)) (o p : Sig) : Prop := p = o ∨ (o, p) ∈ B

/-- Every signal write keeps what `Kept` lists and, over a well-formed binding list, the ports that fit but for the
exempted ones. -/
structure PortsStay (exempt : Sig → Prop) (s t : State) : Prop where
  kept : Kept s t
  fits : BindingsOk s → ∀ k, ¬ exempt (.port k) → PortFits s k → PortFits t k

theorem PortsStay.trans {X : Sig → Prop} {s t u : State} (h : PortsStay X s t) (g : PortsStay X t u) : PortsStay X s u :=
  ⟨h.kept.trans g.kept, fun b k hk f => g.fits (h.kept.bindingsOk b) k hk (h.fits b k hk f)⟩

theorem PortsStay.of {X : Sig → Prop} {s t : State} (h : Kept s t) (hp : t.extPorts = s.extPorts := by rfl) :
    PortsStay X s t :=
  ⟨h, fun _ k _ => PortFits.congr (by rw [hp])⟩

theorem PortsStay.modChan {X : Sig → Prop} (s : State) (n : Chan) (f : Channel → Channel)
    (h : (f (s.chan n)).active = (s.chan n).active := by rfl) : PortsStay X s (s.modChan n f) :=
  .of (Kept.modChan s n f h)

/-- Entries and leavings that keep the ports. -/
theorem PortsStay.wrap {X : Sig → Prop} {s s' t t' : State} (h : PortsStay X s' t) (hkept : Kept s t')
    (hb : BindingsOk s → BindingsOk s') (h1 : s'.extPorts = s.extPorts := by rfl)
    (h2 : t'.extPorts = t.extPorts := by rfl) : PortsStay X s t' :=
  ⟨hkept, fun b k hk f => PortFits.congr (by rw [h2]) (h.fits (hb b) k hk (PortFits.congr (by rw [h1]) f))⟩

theorem State.setSig_extPorts_ne (s : State) {p : Sig} {k : Nat} (h : .port k ≠ p) (v : SigVal) :
    (s.setSig p v).extPorts[k]? = s.extPorts[k]? := by
  obtain (_ | _ | _ | _) | j := p
  iterate 4 rfl
  · have hne : j ≠ k := fun he => h (by rw [he])
    simp [State.setSig, hne]

/-- Everything but a signal write lets the ports stay; inside the propagation of `o` those on its wire are exempt. -/
theorem portsStay_inside : StableInside (fun _ => True) (fun _ => True) True (PortsStay fun _ => False)
    (fun o s t => PortsStay (OnWire s.bindings o) s t) where
  refl s := .of (Kept.refl s)
  trans := PortsStay.trans
  bindings h := h.kept.bindings
  bus h := .of (Kept.bus h) (by obtain ⟨as, d, ws, es, rfl⟩ := h; rfl)
  counters s n b c _ := by cases b <;> (unfold setCounters; exact .modChan s n _)
  loadWorking s n _ := .modChan s n _
  configError s n _ := .modChan s n _
  requested s n _ := .modChan s n _
  completed s n _ := .modChan s n _
  passEnded s n _ := .modChan s n _
  clearEnable s n _ := .modChan s n _
  invocation _ ha h _ k :=
    (h.trans k).wrap (Kept.endInvocation ha (h.kept.trans k.kept)) fun b => ⟨b.ends, b.once⟩
  inner h := ⟨h.kept, fun b k _ => h.fits b k id⟩
  innerTrans {o s t u} h k := h.trans (by rw [h.kept.bindings] at k; exact k)
  innerBindings h := h.kept.bindings
  setSig s o i v hi := ⟨Kept.setSig s i v, fun _ k hk =>
    PortFits.congr (s.setSig_extPorts_ne (fun he => hk (.inr (he ▸ hi))) v)⟩
  markRefused _ s := .of (Kept.markRefused s)
  commit _ s r v _ _ := .of (Kept.commit s r v) (by cases r <;> rfl)
  arm _ s n := .of (Kept.arm s n)
  ctrlWrite _ _ h := h.wrap (Kept.ctrlWrite h.kept) fun b => ⟨b.ends, b.once⟩
  triggerWrite _ _ h :=
    h.wrap ((Kept.commit _ _ _).trans (Kept.leaveHandler h.kept)) fun b => ⟨b.ends, b.once⟩

theorem lowBits_lt (w : Nat) (v : SigVal) : (lowBits w v).toNat < 2 ^ w :=
  (Nat.mod_le _ _).trans_lt (Nat.mod_lt _ (Nat.two_pow_pos w))

/-- The ports on a port's wire exist and have its width. -/
theorem OnWire.width {s : State} {j k : Nat} (b : BindingsOk s) (hd : s.dir (.port j) = some .output)
    (h : OnWire s.bindings (.port j) (.port k)) : s.dir (.port k) ≠ none ∧ s.shape (.port j) = s.shape (.port k) := by
  obtain h | h := h
  · cases h; exact ⟨by rw [hd]; simp, rfl⟩
  · obtain ⟨-, hi, hs⟩ := b.ends _ h
    exact ⟨by rw [hi]; simp, hs⟩

/-- A port on the wire of a port that changed holds the value delivered, which is cut to the width the two share. -/
theorem PortFits.onWire {s t : State} {j k : Nat} {v : SigVal} (b : BindingsOk s) (kept : Kept s t)
    (hd : s.dir (.port j) = some .output) (hk : OnWire s.bindings (.port j) (.port k)) (f : PortFits s k)
    (ht : t.sig (.port k) = s.fit (.port j) v) : PortFits t k := by
  intro p hp
  obtain ⟨hexists, hshape⟩ := hk.width b hd
  obtain ⟨q, hq⟩ : ∃ q, s.extPorts[k]? = some q := by
    rw [← Option.ne_none_iff_exists']
    simpa [State.dir] using hexists
  have same_width : q.width = p.width := by
    simpa [State.shape, hp, hq] using (kept.shape (.port k)).symm
  have shared_width : (s.extPorts[j]?.map fun r => r.width).getD 64 = p.width := by
    simpa [State.shape, hq, same_width] using hshape
  have state_delivered : p.state = lowBits p.width v := by
    simpa [State.sig, State.fit, hp, shared_width] using ht
  obtain ⟨hlow, hhigh, -⟩ := f q hq
  rw [same_width] at hlow hhigh
  exact ⟨hlow, hhigh, by rw [state_delivered]; exact lowBits_lt _ v⟩

/-- A signal write that answers a next state was to an input, held the state, or was delivered. -/
theorem writeSignal_eq_next {write : Writer} {p : Sig} {v : SigVal} {s t : State}
    (e : writeSignal write p v s = .next t) :
    (s.dir p = some .input ∧ t = (s.record (.sigWrite p v)).raise (.writeToInput p)) ∨
    (s.dir p = some .output ∧ s.fit p v = s.sig p ∧ t = s.record (.sigWrite p v)) ∨
    (s.dir p = some .output ∧ s.fit p v ≠ s.sig p ∧ p ∉ s.propagating ∧
      ∃ a, deliver write (s.sig p) (s.fit p v) (s.inputsOf p)
        ((s.record (.sigWrite p v)).enterOutput p (s.fit p v)) = .next a ∧ t = a.leaveOutput p) := by
  cases hd : s.dir p with
  | none => simp [writeSignal, hd] at e
  | some d =>
    cases d with
    | input => rw [writeSignal_input _ _ hd] at e; cases e; exact .inl ⟨rfl, rfl⟩
    | output =>
      by_cases hv : s.fit p v = s.sig p
      · rw [writeSignal_same _ hd hv] at e; cases e; exact .inr (.inl ⟨rfl, hv, rfl⟩)
      · by_cases hp : p ∈ s.propagating
        · rw [writeSignal_reentrant _ hd hv hp] at e; cases e
        · rw [writeSignal_change _ hd hv hp] at e
          obtain ⟨a, ha, hb⟩ := andThen_eq_next.mp e
          cases hb
          exact .inr (.inr ⟨rfl, hv, hp, a, ha, rfl⟩)

/-- A wire with a port on it is that of a port. -/
theorem OnWire.isPort {s : State} {o : Sig} {k : Nat} (b : BindingsOk s) (h : OnWire s.bindings o (.port k)) :
    ∃ j, o = .port j := by
  obtain rfl | h := h
  · exact ⟨k, rfl⟩
  · obtain p | j := o
    · cases (b.ends _ h).2.2
    · exact ⟨j, rfl⟩

/-- A port that a changing write delivers to holds a value of its width. -/
theorem sigWrite_onWire {n : Nat} {o : Sig} {k : Nat} {v : SigVal} {s t : State} (b : BindingsOk s)
    (hd : s.dir o = some .output) (hv : s.fit o v ≠ s.sig o) (e : sigWrite (n + 1) o v s = .next t)
    (hk : OnWire s.bindings o (.port k)) (f : PortFits s k) : PortFits t k := by
  obtain ⟨j, rfl⟩ := hk.isPort b
  obtain ⟨hout, hins⟩ := sigWrite_changes n b hd hv e (b.port_sets hd _)
  refine f.onWire (v := v) b (sigWrite_stable kept_stable (n + 1) _ v s t trivial e) hd hk ?_
  obtain hk | hk := hk
  · rw [hk]; exact hout
  · exact hins _ hk

/-- Every signal write lets the ports stay, to any depth of nesting. -/
theorem sigWrite_portsStay : ∀ n, Respects (fun _ => True) (PortsStay fun _ => False) (sigWrite n) := by
  intro n
  induction n with
  | zero => intro p v s t _ e; cases e
  | succ n ih =>
    intro p v s t _ e
    refine ⟨sigWrite_stable kept_stable (n + 1) p v s t trivial e, fun b k _ f => ?_⟩
    obtain ⟨-, rfl⟩ | ⟨-, -, rfl⟩ | ⟨hd, hv, -, a, ha, rfl⟩ := writeSignal_eq_next e
    · exact f
    · exact f
    · by_cases hk : OnWire s.bindings p (.port k)
      · exact sigWrite_onWire b hd hv e hk f
      · have stays := deliver_stable (o := p) portsStay_inside (ih.uses portsStay_inside) _ trivial
          (fun i hi => by simpa using State.mem_inputsOf.mp hi) ha
        refine stays.fits (b.enterOutput _ _ _) k (by simpa using hk) (f.congr ?_)
        exact (s.record (.sigWrite p v)).setSig_extPorts_ne (fun he => hk (.inl he)) _

theorem exec_portsOk {i : Instr} {s t : State} (b : BindingsOk s) (f : PortsOk s) (e : exec i s = .next t) :
    PortsOk t := by
  have writes := sigWrite_portsStay (nestBound s)
  have stays : PortsStay (fun _ => False) s t → PortsOk t := fun h =>
    (portsOk_iff t).mpr fun k => h.fits b k id ((portsOk_iff s).mp f k)
  obtain ⟨o, ho, ways⟩ := exec_ways e
  cases ways with
  | rejected | refused => cases ho
  | write r v => exact stays (regWrite_stable portsStay_inside (writes.uses portsStay_inside) trivial trivial ho.symm)
  | pin k v | port k v => exact stays (writes _ v s t trivial ho.symm)
  | portCreated p hlow hhigh hstate =>
    cases ho
    intro q hq
    obtain hq | rfl := by simpa only [List.mem_append, List.mem_singleton] using hq
    · exact f q hq
    · exact ⟨hlow, hhigh, by rw [hstate]; exact Nat.two_pow_pos _⟩
  | recorded | bound | teardown | reset | pinCreated | regCreated => cases ho; exact f

/-- Settles O56: a bind is checked, directions and shapes last, and the values delivered are cut. -/
theorem bindingsAndPortsStayWellFormed : Obligations.BindingsAndPortsStayWellFormed := by
  intro s t b h
  obtain ⟨-, rfl⟩ | ⟨p, rest, i, -, hexec⟩ := step_next h
  · exact ⟨b, id⟩
  · have b' : BindingsOk { s with pending := rest } := ⟨b.ends, b.once⟩
    exact ⟨exec_bindingsOk b' hexec, fun f => exec_portsOk b' f hexec⟩

end Sys2Proof.Machine
end

section
/-!
PROOFS. The fetch (30_encoding.md R60, R62, R73; 20_memory.md R43): what a step does with a descriptor, which packets stand
for themselves, and which are refused or rejected.
-/

namespace Sys2Proof.Machine

/-! ### Register accesses -/

/-- The descriptor of an access at an offset of the window says just that. -/
theorem accessDescriptor_fields (d : Access) (off : BitVec 9) :
    isAccess (accessDescriptor d off.toNat) = true ∧ accessOf (accessDescriptor d off.toNat) = d ∧
      (accessDescriptor d off.toNat).extractLsb' 0 9 = off := by
  have off_fits := off.isLt
  have value : (accessDescriptor d off.toNat).toNat = (if d = .read then 0 else 0x1000) + off.toNat := by
    cases d <;> simp only [accessDescriptor, BitVec.toNat_ofNat] <;> simp <;> omega
  have class_value : ((accessDescriptor d off.toNat).extractLsb' 12 4).toNat = if d = .read then 0 else 1 := by
    rw [BitVec.extractLsb'_toNat, value, Nat.shiftRight_eq_div_pow]
    split <;> omega
  have z_zero : (accessDescriptor d off.toNat).extractLsb' 9 3 = 0 := by
    apply BitVec.eq_of_toNat_eq
    rw [BitVec.extractLsb'_toNat, value, Nat.shiftRight_eq_div_pow]
    split <;> simp <;> omega
  refine ⟨?_, ?_, ?_⟩
  · simp only [isAccess, z_zero, class_value, Bool.and_eq_true, decide_eq_true_eq]
    exact ⟨trivial, by split <;> omega⟩
  · cases d
    · exact accessOf_of_class.1 class_value
    · exact accessOf_of_class.2 class_value
  · apply BitVec.eq_of_toNat_eq
    rw [BitVec.extractLsb'_toNat, value, Nat.shiftRight_zero]
    split <;> omega

theorem badAccess_eq (d : BitVec 16) (width : Nat) (s : State) :
    badAccess d width s = rejectedAccess (accessOf d) (offsetOf d) width s := rfl

/-- The rejection of an access to an offset of the window. -/
theorem badAccess_accessDescriptor (d : Access) {off : Nat} (h : off < 2 ^ 9) (width : Nat) (s : State) :
    badAccess (accessDescriptor d off) width s = rejectedAccess d off width s := by
  obtain ⟨-, haccess, hoff⟩ := accessDescriptor_fields d (BitVec.ofNat 9 off)
  rw [BitVec.toNat_ofNat, Nat.mod_eq_of_lt h] at haccess hoff
  rw [badAccess_eq, haccess, offsetOf, hoff, BitVec.toNat_ofNat, Nat.mod_eq_of_lt h]

/-- Settles O8: each row's descriptor is that of an access at its offset. -/
theorem reservedOffsetsFault : Obligations.ReservedOffsetsFault := by
  intro s d
  have rejects : ∀ off off' : Nat, off' = off → off < 2 ^ 9 →
      badAccess (accessDescriptor d off') 4 s = rejectedAccess d off 4 s := fun off off' he h =>
    he ▸ badAccess_accessDescriptor d h 4 s
  exact ⟨fun n => rejects _ _ (Nat.add_comm _ _) (by omega),
    fun n => ⟨rejects _ _ (Nat.add_comm _ _) (by omega), rejects _ _ (Nat.add_comm _ _) (by omega)⟩,
    fun m => rejects _ _ rfl (by omega), fun m => rejects _ _ rfl (by omega), fun m => rejects _ _ rfl (by omega),
    fun m => rejects _ _ rfl (by omega), fun m => rejects _ _ rfl (by omega)⟩

/-- Settles O9: the descriptor of a reserved class is its class and the rest. -/
theorem reservedClassesRefused : Obligations.ReservedClassesRefused := by
  have refuses : ∀ {d e : BitVec 16} (s : State), d.toNat = e.toNat →
      refuseDescriptor d s = .refused (.reservedDescriptor e { s with refusalMark := true }) :=
    fun s h => by rw [BitVec.eq_of_toNat_eq h]; rfl
  refine fun s => ⟨fun rest => refuses s ?_, fun rest => refuses s ?_⟩ <;>
    (have := rest.isLt; simp only [Instr.descriptor, toNat_append_eq, BitVec.toNat_ofNat]; omega)

/-! ### The offset map -/

/-- The default map lists the decoder's registers. -/
theorem regIn_defaultRegMap : ∀ off : BitVec 9, regIn defaultRegMap off = regAt off := by decide +kernel

/-- A register access is looked up in the map. -/
theorem rowDescriptor_accessDescriptor {m : RegMap} {off : BitVec 9} {r : RegId} (d : Access) (h : regIn m off = some r) :
    rowDescriptor m (accessDescriptor d off.toNat) = some (accessDescriptor d r.offset) := by
  obtain ⟨his, haccess, hoff⟩ := accessDescriptor_fields d off
  simp only [rowDescriptor, his, if_true, hoff, h, haccess]

theorem rowDescriptor_defaultRegMap (d : BitVec 16) : rowDescriptor defaultRegMap d = some d := by
  by_cases his : isAccess d = true
  · cases hr : regAt (d.extractLsb' 0 9) with
    | none => simp only [rowDescriptor, his, if_true, regIn_defaultRegMap, hr]
    | some r =>
      have hd : accessDescriptor (accessOf d) r.offset = d := by
        rw [← (regAt_eq_some_iff _ r).mp hr]; exact (isAccess_descriptor his).symm
      simp only [rowDescriptor, his, if_true, regIn_defaultRegMap, hr, hd]
  · simp only [rowDescriptor, his]; rfl

theorem descriptorBytes_append (b0 b1 : Byte) : descriptorBytes (b1 ++ b0) = [b0, b1] := by
  rw [descriptorBytes, BitVec.extractLsb'_append_eq_right, BitVec.extractLsb'_append_eq_left]

theorem rowPacket_descriptorBytes (m : RegMap) (d : BitVec 16) (bs : List Byte) :
    rowPacket m (descriptorBytes d ++ bs) = (rowDescriptor m d).map fun e => descriptorBytes e ++ bs := by
  simp only [descriptorBytes, List.cons_append, List.nil_append, rowPacket, append_halves]

theorem rowPacket_defaultRegMap (bytes : List Byte) : rowPacket defaultRegMap bytes = some bytes := by
  unfold rowPacket
  split
  · rw [rowDescriptor_defaultRegMap, Option.map_some, descriptorBytes_append]; rfl
  · rfl

theorem accessDescriptor_read (off : BitVec 9) : 0b0000000#7 ++ off = accessDescriptor .read off.toNat := by
  have := off.isLt
  apply BitVec.eq_of_toNat_eq
  rw [toNat_append_eq, accessDescriptor, BitVec.toNat_ofNat, BitVec.toNat_ofNat]
  omega

theorem accessDescriptor_write (off : BitVec 9) : 0b0001000#7 ++ off = accessDescriptor .write off.toNat := by
  have := off.isLt
  apply BitVec.eq_of_toNat_eq
  rw [toNat_append_eq, accessDescriptor, BitVec.toNat_ofNat, BitVec.toNat_ofNat]
  omega

/-- Settles O3: the decoder's registers are the table's, the default map lists them, and a map's register gives the row. -/
theorem offsetMap : Obligations.OffsetMap := by
  refine ⟨fun n => ?_, fun k => ⟨rfl, rfl⟩, fun off r => ⟨regAt_eq_some_iff off r, ?_⟩, rowPacket_defaultRegMap,
    fun m off r bs h => ⟨?_, ?_⟩⟩
  · exact ⟨rfl, Nat.add_comm _ _, Nat.add_comm _ _, Nat.add_comm _ _, Nat.add_comm _ _⟩
  · rw [regIn_defaultRegMap]; exact regAt_eq_some_iff off r
  · rw [accessDescriptor_read, rowPacket_descriptorBytes, rowDescriptor_accessDescriptor .read h]; rfl
  · rw [accessDescriptor_write, rowPacket_descriptorBytes, rowDescriptor_accessDescriptor .write h]; rfl

/-! ### The fetch -/

/-- Settles O6. -/
theorem nothingIssuedNothingHappens : Obligations.NothingIssuedNothingHappens := fun _ => step_idle

/-- A step with a descriptor pending: the width is checked, the offset looked up, and the row decoded. -/
theorem step_descriptor {s : State} {d : BitVec 16} {bs : List Byte} {width : Nat} {rest : List Issued}
    (h : s.pending = { bytes := d.extractLsb' 0 8 :: d.extractLsb' 8 8 :: bs, width := width } :: rest) :
    step s = if isAccess d && width != 4 then badAccess d width { s with pending := rest }
      else (rowDescriptor s.params.regMap d).elim (badAccess d width { s with pending := rest }) fun e =>
        runFetched s (fetchRow (descriptorBytes e ++ bs) { s with pending := rest }) := by
  simp only [step_eq, fetch, h, fetchPacket, append_halves, rowPacket]
  split
  · rfl
  · cases rowDescriptor s.params.regMap d <;> rfl

theorem fetchRow_ok {bytes more : List Byte} {i : Instr} {t : State}
    (h : decode t.params.regByteOrder bytes = .ok (i, more)) : fetchRow bytes t = .op i t := by
  simp only [fetchRow, h]

theorem fetchRow_error {bytes : List Byte} {e : DecodeError} {t : State}
    (h : decode t.params.regByteOrder bytes = .error e) : fetchRow bytes t = .stop (refusePacket e t) := by
  simp only [fetchRow, h]

theorem decode_nameless (bo : ByteOrder) {d : BitVec 16} (h : namesRow d = false) (bs : List Byte) :
    decode bo (descriptorBytes d ++ bs) = .error (.reservedDescriptor d) := by
  simp [descriptorBytes, decode, append_halves, h]

/-- The reserved classes decode to a row with their descriptor, whose meaning is its refusal. -/
theorem decode_reservedClass (bo : ByteOrder) {d : BitVec 16} (h : 10 ≤ (d.extractLsb' 12 4).toNat) (bs : List Byte) :
    ∃ i, decode bo (descriptorBytes d ++ bs) = .ok (i, bs) ∧ ∀ s, exec i s = refuseDescriptor d s := by
  have class_fits := (d.extractLsb' 12 4).isLt
  have low_high : ((d.extractLsb' 12 4).toNat = 10 ∨ (d.extractLsb' 12 4).toNat = 11) ∨
      12 ≤ (d.extractLsb' 12 4).toNat := by omega
  obtain h10 | h12 := low_high
  · have packet := Packet.reservedClass10 bo h10 bs
    refine ⟨_, by rw [packet.encode]; exact decode_encode bo _ bs packet.wellFormed, fun s => ?_⟩
    exact congrArg (fun e => refuseDescriptor e s) packet.descriptor
  · have packet := Packet.reservedClass12 bo h12 bs
    refine ⟨_, by rw [packet.encode]; exact decode_encode bo _ bs packet.wellFormed, fun s => ?_⟩
    exact congrArg (fun e => refuseDescriptor e s) packet.descriptor

/-- Settles O4: such a descriptor is no register access, so it stands for itself, and the decoder reads a reserved class
or nothing. -/
theorem namelessDescriptorRefused : Obligations.NamelessDescriptorRefused := by
  intro s d bs width rest hp h
  have not_access : isAccess d = false := by
    simp only [isAccess, Bool.and_eq_false_iff, decide_eq_false_iff_not]
    obtain hz | hc | ⟨hc, -⟩ := h
    · exact .inl hz
    · exact .inr (by omega)
    · exact .inr (by omega)
  have row_self : rowDescriptor s.params.regMap d = some d := by simp [rowDescriptor, not_access]
  rw [step_descriptor hp, not_access, Bool.false_and, if_neg Bool.false_ne_true, row_self, Option.elim_some]
  by_cases hc : 10 ≤ (d.extractLsb' 12 4).toNat
  · obtain ⟨i, hdecode, hexec⟩ := decode_reservedClass s.params.regByteOrder hc bs
    rw [fetchRow_ok (t := { s with pending := rest }) hdecode]
    exact hexec _
  · have nameless : namesRow d = false := by
      simp only [namesRow, Bool.or_eq_false_iff, Bool.and_eq_false_iff, decide_eq_false_iff_not]
      refine ⟨hc, ?_⟩
      obtain hz | hc' | ⟨hc', hoff⟩ := h
      · exact .inl hz
      · exact absurd hc' hc
      · exact .inr ⟨by omega, hoff⟩
    rw [fetchRow_error (decode_nameless _ nameless bs)]
    rfl

/-- An access at an offset that holds no register decodes to the row that rejects it. -/
theorem decode_reservedOffset (bo : ByteOrder) {d : BitVec 16} (h : isAccess d = true)
    (hr : regAt (d.extractLsb' 0 9) = none) (bs : List Byte) :
    decode bo (descriptorBytes d ++ bs) = .ok (reservedAt (accessOf d) (d.extractLsb' 0 9), bs) := by
  have packet := Packet.reserved bo (accessOf d) hr bs
  have hd : d = accessDescriptor (accessOf d) (d.extractLsb' 0 9).toNat := isAccess_descriptor h
  rw [← hd] at packet
  rw [packet.encode]
  exact decode_encode bo _ bs packet.wellFormed

/-- Settles O7: the width is checked before the offset is looked up, and an offset the map leaves free has a reserved row
or none; each way ends in the same rejection. -/
theorem unacceptableAccessesFault : Obligations.UnacceptableAccessesFault := by
  intro s d bs width rest hp hz hclass h
  have access : isAccess d = true := by simp only [isAccess, hz, decide_true, Bool.true_and, hclass]
  have direction : accessOf d = if (d.extractLsb' 12 4).toNat = 0 then .read else .write := by
    split
    · next h0 => exact accessOf_of_class.1 h0
    · exact accessOf_of_class.2 (by omega)
  rw [← direction]
  change _ = badAccess d width { s with pending := rest }
  rw [step_descriptor hp, access, Bool.true_and]
  by_cases hw : width = 4
  · have hmap := h.resolve_right (not_not.mpr hw)
    subst hw
    simp only [bne_self_eq_false, Bool.false_eq_true, if_false, rowDescriptor, access, if_true, hmap]
    by_cases hr : regAt (d.extractLsb' 0 9) = none
    · rw [if_pos hr, Option.elim_some, fetchRow_ok (decode_reservedOffset _ access hr bs)]
      refine (exec_reservedAt _ _ _).trans ?_
      rw [reservedAt_descriptor _ hr]
      exact congrArg (badAccess · 4 _) (isAccess_descriptor access).symm
    · rw [if_neg hr]; rfl
  · rw [if_pos (by simpa using hw)]

/-- Settles O5: an accepted packet's row is decoded, and a register access decodes from no other descriptor. -/
theorem stepRunsDecoded : Obligations.StepRunsDecoded := by
  intro s p rest bytes i more hp hrow hdecode hwidth
  obtain ⟨pbytes, width⟩ := p
  rw [step_eq, fetch, hp]
  simp only
  unfold fetchPacket
  split
  · next b0 b1 bs hbytes =>
    cases hbytes
    have accepted : (isAccess (b1 ++ b0) && width != 4) = false := by
      by_cases access : isAccess (b1 ++ b0 : BitVec 16) = true
      · obtain ⟨e, he, rfl⟩ := Option.map_eq_some_iff.mp hrow
        have row_access := decode_access (rowDescriptor_access he access) hdecode
        have reg_access : isRegAccess i = true := by
          simp only [isAccess, Bool.and_eq_true, decide_eq_true_eq] at row_access
          simpa only [isRegAccess, decide_eq_true_eq] using row_access.2
        have four : width = 4 := hwidth.resolve_left (by simp [reg_access])
        simp [four]
      · simp [access]
    simp only [accepted, Bool.false_eq_true, if_false]
    rw [show rowPacket s.params.regMap (b0 :: b1 :: bs) = some bytes from hrow]
    simp only [fetchRow_ok (t := { s with pending := rest }) hdecode]
    rfl
  · next hshort =>
    have self : rowPacket s.params.regMap pbytes = some pbytes := by
      unfold rowPacket
      split
      · next b0 b1 bs => exact absurd rfl (hshort b0 b1 bs)
      · rfl
    cases self.symm.trans hrow
    rw [fetchRow_ok (t := { s with pending := rest }) hdecode]
    rfl

/-- Settles O1, by reading each word. -/
theorem decodedWords : Obligations.DecodedWords := by
  unfold Obligations.DecodedWords
  decide

end Sys2Proof.Machine
end

section
/-!
PROOFS. Creation (70_reset_and_hazards.md R145) and the platform's creates (41_signal_fabric.md R83, R84;
40_register_framework.md R76): the state after creation is a reset device, and a create appends one record.
-/

namespace Sys2Proof.Machine

/-- The state after creation is a reset device. -/
theorem resetDevice_reset : resetDevice State.reset = State.reset := rfl

/-- Settles O11: what holds of a reset device holds after creation, and there is no binding and one 8-bit port. -/
theorem creationState : Obligations.CreationState := by
  refine ⟨congrArg _ resetDevice_reset, rfl, rfl, ?_, ?_, ?_, ⟨nofun, List.nodup_nil⟩, ?_, rfl⟩
  · rw [← resetDevice_reset]; exact Quiet.resetDevice _
  · rw [← resetDevice_reset]; exact ReservedZero.resetDevice _
  · rw [← resetDevice_reset]; exact SensFollows.resetDevice _
  · intro p hp
    obtain rfl := List.mem_singleton.mp hp
    decide

theorem getElem?_append_singleton {α : Type} (l : List α) (a : α) : (l ++ [a])[l.length]? = some a := by simp

/-- Settles O12: the pin appended is the one with the next index, and its mode says its direction and sensitivity. -/
theorem createPinResult : Obligations.CreatePinResult := by
  intro s name mode cb ctx
  refine ⟨_, rfl, rfl, ?_⟩
  simp only [State.sig, State.dir, State.sens, getElem?_append_singleton, Option.map_some, Option.getD_some]
  cases mode <;> decide

/-- Settles O13: a width in range appends the port, any other is refused. -/
theorem createPortResult : Obligations.CreatePortResult := by
  intro s name mode width cb ctx
  refine ⟨fun hlow hhigh => ⟨_, if_pos ⟨hlow, hhigh⟩, rfl, ?_⟩, fun hout => if_neg (by omega)⟩
  simp only [State.sig, State.dir, State.sens, State.shape, getElem?_append_singleton, Option.map_some, Option.getD_some,
    true_and]
  cases mode <;> decide

theorem roleOf_ext (perm : Perm) (cb : Option Tag) : roleOf perm (cb.map Handler.ext) =
    if perm = .ro then .readOnly else cb.elim .plain fun h => .onWrite (.ext h) := by
  cases perm <;> cases cb <;> rfl

/-- Settles O14: either width makes a cell with the initial value as it is given. -/
theorem createRegResult : Obligations.CreateRegResult := fun _ _ _ perm cb =>
  ⟨fun init mask => ⟨createCell perm init mask (cb.map Handler.ext), rfl, rfl, rfl, rfl, rfl, roleOf_ext perm cb⟩,
    fun init mask => ⟨createCell perm init mask (cb.map Handler.ext), rfl, rfl, rfl, rfl, rfl, roleOf_ext perm cb⟩⟩

end Sys2Proof.Machine
end

section
/-!
PROOFS. Register reads and writes (40_register_framework.md R77 to R80; 42_dma_registers.md R95 to R108).
-/

namespace Sys2Proof.Machine

/-! ### Accesses by register -/

theorem exec_writeOf (r : RegId) (v : Word) (s : State) : exec (writeOf v r) s = regWrite (topWrite s) r v s := by
  cases r <;> rfl

theorem nestedOp_writeOf (write : Writer) (r : RegId) (v : Word) (s : State) :
    nestedOp write (writeOf v r) s = regWrite write r v s := by
  cases r <;> rfl

/-- Settles O15: no register read is write-only. -/
theorem readsReturnCurrent : Obligations.ReadsReturnCurrent := fun s =>
  ⟨fun n => ⟨regRead_eq (.ctrl n) s, regRead_eq (.src n) s, regRead_eq (.dst n) s, regRead_eq (.size n) s,
    regRead_eq (.trigger n) s⟩, fun k => regRead_eq (.cfg k) s⟩

/-- A write of a register that is not read-only, during its handler. -/
theorem regWrite_reentrant (write : Writer) {r : RegId} (v : Word) {s : State} (hp : regPerm r ≠ .ro)
    (h : r ∈ s.inCallback) :
    regWrite write r v s = .fault (.registerReentrancy r (s.record (.regWrite r v)).markFaulted) := by
  rw [regWrite_eq, if_neg hp, if_pos h]

/-- Settles O20: the framework's check, which every write goes through. -/
theorem registerReentrancyFaults : Obligations.RegisterReentrancyFaults := by
  intro write s r v o h hp ho
  have faults : ∀ w : Writer, regWrite w r v s = o := fun w => by
    rw [regWrite_reentrant w v (by simp [hp]) h, ho]; rfl
  exact ⟨faults write, (nestedOp_writeOf write r v s).trans (faults write), (exec_writeOf r v s).trans (faults _)⟩

/-- Settles O19: the permission is checked first. -/
theorem statusWriteRejected : Obligations.StatusWriteRejected := by
  intro s k v
  rw [show exec (.wrStatus k v) s = regWrite (topWrite s) (.status k) v s from rfl, regWrite_eq,
    if_pos (show regPerm (.status k) = .ro from rfl)]
  simp [State.raise, State.record]

/-! ### Plain registers -/

/-- Settles O17: each is a plain register with a full mask, so its write is its commit. -/
theorem dataRegisterWrites : Obligations.DataRegisterWrites := by
  intro s n v
  refine ⟨fun h => ?_, fun h => ?_, fun h => ?_⟩
  · refine (regWrite_plain (topWrite s) v (r := .src n) nofun rfl h).trans ?_
    rw [commit_src]; rfl
  · refine (regWrite_plain (topWrite s) v (r := .dst n) nofun rfl h).trans ?_
    rw [commit_dst]; rfl
  · refine (regWrite_plain (topWrite s) v (r := .size n) nofun rfl h).trans ?_
    rw [commit_size]; rfl

theorem pairOf_evenChan (k : Pair) : pairOf (evenChan k) = k := by
  apply Fin.ext; simp only [pairOf, evenChan]; omega

theorem pairOf_oddChan (k : Pair) : pairOf (oddChan k) = k := by
  apply Fin.ext; simp only [pairOf, oddChan]; omega

/-- Only two channels share a CFG word. -/
theorem pairOf_ne {n : Chan} {k : Pair} (he : n ≠ evenChan k) (ho : n ≠ oddChan k) : k ≠ pairOf n := by
  rintro rfl
  simp only [ne_eq, Fin.ext_iff, evenChan, oddChan, pairOf] at he ho
  omega

theorem tselOf_evenChan (w : Word) (k : Pair) : (tselOf w (evenChan k)).val = (w.extractLsb' 0 5).toNat := by
  rw [tselOf, if_pos (by simp [evenChan])]
  exact Nat.mod_eq_of_lt (w.extractLsb' 0 5).isLt

theorem tselOf_oddChan (w : Word) (k : Pair) : (tselOf w (oddChan k)).val = (w.extractLsb' 16 5).toNat := by
  rw [tselOf, if_neg (by simp only [oddChan]; omega)]
  exact Nat.mod_eq_of_lt (w.extractLsb' 16 5).isLt

/-- The mask of CFG keeps both selectors (30_encoding.md R68). -/
theorem cfgMask_selectors (v : Word) : (v &&& 0x001F001F).extractLsb' 0 5 = v.extractLsb' 0 5 ∧
    (v &&& 0x001F001F).extractLsb' 16 5 = v.extractLsb' 16 5 := by
  rw [BitVec.extractLsb'_and, BitVec.extractLsb'_and]
  exact ⟨BitVec.and_allOnes, BitVec.and_allOnes⟩

/-- Settles O18: the word is committed under its mask, and a selector is read from its own channel pair's word. -/
theorem cfgWrite : Obligations.CfgWrite := by
  intro s k v h
  refine ⟨_, regWrite_plain (topWrite s) v (r := .cfg k) nofun rfl h, rfl, ?_, ?_, fun n he ho => ?_⟩ <;>
    rw [State.tsel, commit_cfg, State.setCfg_cfgCell]
  · rw [pairOf_evenChan, if_pos rfl, tselOf_evenChan, (cfgMask_selectors v).1]
  · rw [pairOf_oddChan, if_pos rfl, tselOf_oddChan, (cfgMask_selectors v).2]
  · rw [if_neg (pairOf_ne he ho)]; rfl

/-! ### CTRL -/

/-- Settles O24: the layout's positions, and the mask summed up. -/
theorem ctrlFieldPositions : Obligations.CtrlFieldPositions := by
  refine ⟨by decide, fun s n w hlayout hword => ?_⟩
  simp only [State.en, State.lvl, State.sbyte, State.dbyte, State.sinc, State.dinc, State.modeField, State.test,
    State.ctrlWord, hlayout, hword]
  exact ⟨rfl, rfl, rfl, rfl, rfl, rfl, rfl, rfl⟩

/-- The 32 trigger inputs after a CTRL write: sensitivities by DMALEVEL, states as they were. -/
theorem ctrlStored_trig (n : Chan) (v : Word) (s : State) (i : Source) : ((ctrlStored n v s).chan n).trig[i] =
    { sens := sensOf (ctrlLevel s.params.ctrlLayout (v &&& ctrlMask s.params.ctrlLayout))
      state := (s.chan n).trig[i].state } := by
  rw [ctrlStored_chan]
  simp only [Fin.getElem_fin, mapEntries_getElem]

/-- Settles O21: with EN = 0 the write is what it stores. -/
theorem ctrlWriteDisabling : Obligations.CtrlWriteDisabling := by
  rintro s n v w h rfl hen
  refine ⟨ctrlStored n v s, ?_, ctrlStored_only n v s, ⟨rfl, rfl, rfl⟩, rfl, ctrlStored_trig n v s, ?_⟩
  · rw [exec_wrCtrl, regWrite_ctrl_eq _ _ h, if_neg (by simp [hen])]
  · rw [ctrlStored_chan]

/-- What a CTRL write with EN = 1 has committed when it pulses (42_dma_registers.md R95). -/
def ctrlArmed (n : Chan) (v : Word) (s : State) : State := arm n (ctrlStored n v s)

theorem ctrlArmed_only (n : Chan) (v : Word) (s : State) : OnlyChannel n s (ctrlArmed n v s) :=
  (ctrlStored_only n v s).trans (arm_only n _)

theorem ctrlArmed_chan (n : Chan) (v : Word) (s : State) : (ctrlArmed n v s).chan n = { (ctrlStored n v s).chan n with
    st := { (s.chan n).st with req := true }
    wk := { src := (s.chan n).src.cur, dst := (s.chan n).dst.cur, size := (s.chan n).size.cur } } := by
  rw [ctrlArmed, arm_chan, backingCounters, ctrlStored_chan]; rfl

theorem ctrlArmed_trig (n : Chan) (v : Word) (s : State) (i : Source) : ((ctrlArmed n v s).chan n).trig[i] =
    { sens := sensOf (ctrlLevel s.params.ctrlLayout (v &&& ctrlMask s.params.ctrlLayout))
      state := (s.chan n).trig[i].state } := by
  rw [ctrlArmed_chan]; exact ctrlStored_trig n v s i

theorem exec_wrCtrl_enabling {s : State} {n : Chan} {v : Word} (h : .ctrl n ∉ s.inCallback)
    (hen : ctrlEn s.params.ctrlLayout (v &&& ctrlMask s.params.ctrlLayout) = true) :
    exec (.wrCtrl n v) s = andThen (pulse (topWrite s) (.reqo n) ((ctrlArmed n v s).enterHandler (.ctrl n)))
      fun u => .next (u.leaveHandler (.ctrl n)) := by
  rw [exec_wrCtrl, regWrite_ctrl_eq _ _ h, if_pos hen, ctrlArmed]

/-- Settles O23: everything is committed before the pulse. -/
theorem ctrlWritePulsesRequest : Obligations.CtrlWritePulsesRequest := by
  rintro s n v w h rfl hen
  refine ⟨ctrlArmed n v s, exec_wrCtrl_enabling h hen, ctrlArmed_only n v s, ⟨rfl, rfl, rfl⟩, rfl, ctrlArmed_trig n v s, ?_⟩
  rw [ctrlArmed_chan, ctrlStored_chan]

/-- The pulse of an output of the block that reaches nobody, at the top level. -/
theorem pulse_topWrite_quiet (u : State) {s : State} (n : Chan) (e : Pulse) (h : QuietOutput s (pulsePin n e)) :
    pulse (topWrite u) (pulsePin n e) s = .next { s with hist := s.hist ++ pulseEvents (pulsePin n e) } := by
  obtain ⟨k, hk⟩ := topWrite_succ u
  rw [hk, pulse_quiet k n e h]

/-- A CTRL write leaves its own request output as it was. -/
theorem ctrlArmed_quiet {n : Chan} (v : Word) {s : State} (h : QuietOutput s (.reqo n)) :
    QuietOutput ((ctrlArmed n v s).enterHandler (.ctrl n)) (.reqo n) := by
  refine h.congr rfl ?_ h.still
  simp only [State.sig, State.enterHandler_chan, ctrlArmed_chan, ctrlStored_chan]

/-- Settles O22: the pulse from the committed state reaches nobody. -/
theorem ctrlWriteEnabling : Obligations.CtrlWriteEnabling := by
  rintro s n v w h rfl hen hquiet
  refine ⟨{ ctrlArmed n v s with hist := (ctrlArmed n v s).hist ++ pulseEvents (.reqo n) }, ?_,
    (ctrlArmed_only n v s).with_hist _, ⟨rfl, rfl, rfl⟩, rfl, ctrlArmed_trig n v s, ?_⟩
  · rw [exec_wrCtrl_enabling h hen, show Pin.reqo n = pulsePin n .request from rfl,
      pulse_topWrite_quiet s n .request (ctrlArmed_quiet v hquiet), andThen_next]
    exact congrArg Host.Outcome.next (by simp [State.leaveHandler, State.enterHandler])
  · rw [State.chan_with_hist, ctrlArmed_chan, ctrlStored_chan]

/-! ### TRIGGER -/

/-- Settles O25: the handler's two ways that start no transfer. -/
theorem triggerWriteNotAccepted : Obligations.TriggerWriteNotAccepted := by
  rintro s t n v h rfl
  refine ⟨fun hen => ?_, fun hen hignored => ?_⟩
  · rw [exec_wrTrigger, regWrite_trigger_eq _ _ h, if_pos hen]; rfl
  · have not_accepted : (s.test n && s.lvl n && transitioned (s.chan n).trigger.cur v (s.tsel n)) = false := by
      obtain htest | hlvl | hbit := hignored
      · simp [htest]
      · simp [hlvl]
      · rw [Bool.and_eq_false_iff]; exact .inr (bne_eq_false_iff_eq.mpr hbit)
    rw [exec_wrTrigger, regWrite_trigger_eq _ _ h, if_neg (by simp [hen]), not_accepted]; rfl

theorem exec_wrTrigger_accepted {s : State} {n : Chan} {v : Word} (h : .trigger n ∉ s.inCallback)
    (hen : s.en n = true) (htest : s.test n = true) (hlvl : s.lvl n = true)
    (hbit : (s.chan n).trigger.cur.getLsbD (s.tsel n).val ≠ v.getLsbD (s.tsel n).val) :
    exec (.wrTrigger n v) s = andThen (run (topWrite s) n ((triggerStored n v s).enterHandler (.trigger n)))
      fun u => .next (u.leaveHandler (.trigger n)) := by
  have accepted : (s.test n && s.lvl n && transitioned (s.chan n).trigger.cur v (s.tsel n)) = true := by
    rw [htest, hlvl]; exact (transitioned_iff _ _ _).mpr hbit
  rw [exec_wrTrigger, regWrite_trigger_eq _ _ h, if_neg (by simp [hen]), if_pos accepted]

/-- Settles O26: the handler's third way. -/
theorem triggerWriteRuns : Obligations.TriggerWriteRuns := by
  rintro s t n v h rfl hen htest hlvl hbit
  exact exec_wrTrigger_accepted h hen htest hlvl hbit

/-- Settles O28: the active flag is looked at first. -/
theorem reentrantChannelFaults : Obligations.ReentrantChannelFaults := fun _ _ _ h => if_pos h

end Sys2Proof.Machine
end

section
/-!
PROOFS. Pin and port writes of other devices (41_signal_fabric.md R86 to R94): what one write alone does, what a second write
does, and what an output and its inputs hold after it.
-/

namespace Sys2Proof.Machine

/-! ### Another device's pins and ports -/

theorem pinDir_eq_output {m : PinMode} (h : m = .out) : pinDir m = .output := by rw [h]; rfl

theorem pinDir_eq_input {m : PinMode} (h : m ≠ .out) : pinDir m = .input := by
  cases m with
  | out => exact absurd rfl h
  | _ => rfl

theorem portDir_eq_input {m : PortMode} (h : m ≠ .out) : portDir m = .input := by
  cases m with
  | out => exact absurd rfl h
  | inp => rfl

section
variable {s : State} {k : Nat} {p : ExtPin} (hp : s.extPins[k]? = some p)
include hp

theorem State.dir_extPin : s.dir (.pin (.ext k)) = some (pinDir p.mode) := by simp [State.dir, hp]

theorem State.sig_extPin : s.sig (.pin (.ext k)) = pinVal p.state := by simp [State.sig, hp]

theorem State.setSig_extPin (b : Bool) :
    s.setSig (.pin (.ext k)) (pinVal b) = { s with extPins := s.extPins.set k { p with state := b } } := by
  simp only [State.setSig, List.modify_eq_set_getElem?, hp, pinVal_getLsbD]
  rfl

/-- A write of another device's pin is a signal write with some levels of nesting. -/
theorem exec_pinWrite_writeSignal (b : Bool) :
    ∃ j, exec (.pinWrite (.ext k) b) s = writeSignal (sigWrite j) (.pin (.ext k)) (pinVal b) s := by
  obtain ⟨j, hj⟩ := topWrite_succ s
  exact ⟨j, by rw [exec_pinWrite (List.getElem?_eq_some_iff.mp hp).1, hj, sigWrite_succ]⟩

end

section
variable {s : State} {k : Nat} {p : ExtPort} (hp : s.extPorts[k]? = some p)
include hp

theorem State.dir_extPort : s.dir (.port k) = some (portDir p.mode) := by simp [State.dir, hp]

theorem State.sig_extPort : s.sig (.port k) = p.state := by simp [State.sig, hp]

theorem State.setSig_extPort (v : SigVal) :
    s.setSig (.port k) v = { s with extPorts := s.extPorts.set k { p with state := v } } := by
  simp only [State.setSig, List.modify_eq_set_getElem?, hp]
  rfl

/-- A value is cut to the port's width. -/
theorem State.fit_extPort {v w : SigVal} (hw : w.toNat = v.toNat % 2 ^ p.width) : s.fit (.port k) v = w := by
  apply BitVec.eq_of_toNat_eq
  simp only [State.fit, hp, Option.map_some, Option.getD_some, lowBits, BitVec.toNat_ofNat, ← hw]
  exact Nat.mod_eq_of_lt w.isLt

/-- A write of another device's port is a signal write with some levels of nesting. -/
theorem exec_portWrite_writeSignal (v : SigVal) :
    ∃ j, exec (.portWrite k v) s = writeSignal (sigWrite j) (.port k) v s := by
  obtain ⟨j, hj⟩ := topWrite_succ s
  exact ⟨j, by rw [exec_portWrite (List.getElem?_eq_some_iff.mp hp).1, hj, sigWrite_succ]⟩

end

theorem exec_pinWrite_missing {s : State} {k : Nat} (h : s.extPins.length ≤ k) (b : Bool) :
    exec (.pinWrite (.ext k) b) s = .refused (.pinOutsideExtPins (.ext k) s.markRefused) := by
  simp [exec, execPinWrite, State.isExtPin, h]

theorem exec_portWrite_missing {s : State} {k : Nat} (h : s.extPorts.length ≤ k) (v : SigVal) :
    exec (.portWrite k v) s = .refused (.portOutsideExtPins k s.markRefused) := by
  simp [exec, execPortWrite, State.isExtPort, h]

/-! ### One write alone -/

/-- Settles O40: no pin of the block is another device's; the rest are the ways of a signal write that reach nothing. -/
theorem pinWriteAlone : Obligations.PinWriteAlone := by
  intro s k b
  refine ⟨fun n i => ⟨rfl, rfl, rfl⟩, fun h => exec_pinWrite_missing h b, fun p hp => ?_⟩
  obtain ⟨j, hj⟩ := exec_pinWrite_writeSignal hp b
  have hdir := State.dir_extPin hp
  have hsig := State.sig_extPin hp
  rw [hj]
  refine ⟨fun hin => ?_, fun hout hsame => ?_, fun hout hne hstill hunbound => ?_⟩
  · rw [writeSignal_input _ _ (by rw [hdir, pinDir_eq_input hin])]
    simp [State.raise, State.record]
  · rw [writeSignal_same _ (by rw [hdir, pinDir_eq_output hout]) (by rw [fit_pinVal, hsig, hsame])]
    rfl
  · rw [writeSignal_unbound _ (by rw [hdir, pinDir_eq_output hout])
      (by rw [fit_pinVal, hsig, ne_eq, pinVal_inj]; exact hne.symm) hstill hunbound, fit_pinVal,
      State.setSig_extPin (s := s.record _) hp]
    rfl

/-- Settles O41: the ways of a signal write that reach nothing, on the value cut to the port's width. -/
theorem portWriteAlone : Obligations.PortWriteAlone := by
  intro s k v w
  refine ⟨fun h => exec_portWrite_missing h v, fun p hp => ?_⟩
  obtain ⟨j, hj⟩ := exec_portWrite_writeSignal hp v
  have hdir := State.dir_extPort hp
  have hsig := State.sig_extPort hp
  rw [hj]
  refine ⟨fun hin => ?_, fun hout hw => ⟨fun hsame => ?_, fun hne hstill hunbound => ?_⟩⟩
  · rw [writeSignal_input _ _ (by rw [hdir, portDir_eq_input hin])]
    simp [State.raise, State.record]
  · rw [writeSignal_same _ (by rw [hdir, hout]; rfl) (by rw [State.fit_extPort hp hw, hsig, hsame])]
    rfl
  · rw [writeSignal_unbound _ (by rw [hdir, hout]; rfl) (by rw [State.fit_extPort hp hw, hsig]; exact hne.symm) hstill
      hunbound, State.fit_extPort hp hw, State.setSig_extPort (s := s.record _) hp]
    rfl

/-- Settles O42: the check comes before the delivery. -/
theorem outputReentrancyFaults : Obligations.OutputReentrancyFaults := fun write _ _ _ hd hv hp =>
  writeSignal_reentrant write hd hv hp

/-! ### Bind and teardown -/

theorem exec_bind {a b : Sig} {s : State} {da db : Dir} (ha : s.dir a = some da) (hb : s.dir b = some db) :
    exec (.bind a b) s = if da = db then .next (s.raise (.bindModeMatch a b)) else bindOriented a b (orient da a b) s := by
  simp only [exec, execBind, bindSignals, ha, hb]

/-- A bind of signals of one shape appends the pair if its input is free. -/
theorem bindOriented_free {a b : Sig} {oi : Sig × Sig} {s : State} (hs : s.shape a = s.shape b)
    (hfree : ∀ x ∈ s.bindings, x.2 ≠ oi.2) :
    bindOriented a b oi s = .next { s with bindings := s.bindings ++ [oi] } := by
  rw [bindOriented, if_neg (not_not.mpr hs), State.bound_eq_false_iff.mpr hfree]; rfl

/-- Settles O45: either order names the same output and input. -/
theorem bindAppends : Obligations.BindAppends := by
  intro s o i ho hi hs hfree
  rw [exec_bind ho hi, exec_bind hi ho]
  exact ⟨bindOriented_free hs hfree, bindOriented_free hs.symm hfree⟩

/-- Settles O46: the checks in their order. -/
theorem bindRejects : Obligations.BindRejects := by
  intro s a b da db
  refine ⟨fun ha hb => ?_, fun ha => ?_, fun ha hb => ?_⟩
  · rw [exec_bind ha hb]
    refine ⟨fun hsame => if_pos hsame, fun hne hshape => ?_, fun hne hshape ⟨o, ho⟩ => ?_⟩
    · rw [if_neg hne, bindOriented, if_pos hshape]
    · have input_bound : s.bound (orient da a b).2 = true := by
        have hinput : (orient da a b).2 = if da = .output then b else a := by cases da <;> rfl
        rw [hinput, State.bound, List.any_eq_true]
        exact ⟨_, ho, by simp⟩
      rw [if_neg hne, bindOriented, if_neg (not_not.mpr hshape), if_pos input_bound]
  · simp only [exec, execBind, bindSignals, ha]; rfl
  · simp only [exec, execBind, bindSignals, ha, hb]; rfl

/-- A pin write with no bindings changes that pin and the history, and calls nobody. -/
theorem writeSignal_unbound_next {write : Writer} {k : Nat} {v : SigVal} {s t : State} (hb : s.bindings = [])
    (e : writeSignal write (.pin (.ext k)) v s = .next t) :
    t = { s with extPins := t.extPins, hist := t.hist } ∧ (∀ j, j ≠ k → t.extPins[j]? = s.extPins[j]?) ∧
      ∀ i w, Event.callback i w ∈ t.hist → Event.callback i w ∈ s.hist := by
  obtain ⟨-, rfl⟩ | ⟨-, -, rfl⟩ | ⟨-, -, -, a, ha, rfl⟩ := writeSignal_eq_next e
  · exact ⟨rfl, fun _ _ => rfl, fun i w h => by simpa using h⟩
  · exact ⟨rfl, fun _ _ => rfl, fun i w h => by simpa using h⟩
  · have unbound : s.inputsOf (.pin (.ext k)) = [] := by simp [State.inputsOf, hb]
    rw [unbound] at ha
    cases ha
    rw [State.leaveOutput_enterOutput]
    exact ⟨rfl, fun j hj => by simp [State.setSig, Ne.symm hj], fun i w h => by simpa using h⟩

/-- Settles O47: with no bindings a write has nothing to deliver to. -/
theorem teardownUnbinds : Obligations.TeardownUnbinds := by
  refine fun s => ⟨rfl, fun k b t e => ?_⟩
  by_cases hk : k < s.extPins.length
  · obtain ⟨j, hj⟩ := exec_pinWrite_writeSignal (s := { s with bindings := [] }) (List.getElem?_eq_getElem hk) b
    exact writeSignal_unbound_next rfl (hj.symm.trans e)
  · rw [exec_pinWrite_missing (s := { s with bindings := [] }) (Nat.le_of_not_lt hk)] at e
    cases e

/-! ### What a write leaves -/

theorem exec_pinWrite_output {s : State} {k : Nat} (h : s.dir (.pin (.ext k)) = some .output) (b : Bool) :
    ∃ j, exec (.pinWrite (.ext k) b) s = sigWrite (j + 1) (.pin (.ext k)) (pinVal b) s := by
  obtain ⟨p, hp, -⟩ := Option.map_eq_some_iff.mp h
  exact exec_pinWrite_writeSignal hp b

theorem exec_portWrite_output {s : State} {k : Nat} (h : s.dir (.port k) = some .output) (v : SigVal) :
    ∃ j, exec (.portWrite k v) s = sigWrite (j + 1) (.port k) v s := by
  obtain ⟨p, hp, -⟩ := Option.map_eq_some_iff.mp h
  exact exec_portWrite_writeSignal hp v

/-- After a port write the port holds the value written, cut to its width. -/
theorem sigWrite_port_sig (j : Nat) {s t : State} {k : Nat} {v : SigVal} (b : BindingsOk s)
    (hd : s.dir (.port k) = some .output) (e : sigWrite (j + 1) (.port k) v s = .next t) :
    t.sig (.port k) = s.fit (.port k) v := by
  by_cases h : s.fit (.port k) v = s.sig (.port k)
  · rw [sigWrite_succ, writeSignal_same _ hd h] at e
    cases e
    rw [State.record_sig, h]
  · exact (sigWrite_changes j b hd h e (b.port_sets hd _)).1

/-- Settles O48: after the first write the output holds the value written, so the second finds the state held. -/
theorem secondWriteIsNoOp : Obligations.SecondWriteIsNoOp := by
  intro s t b
  refine ⟨fun k v hd e => ?_, fun k v hd e => ?_⟩
  · obtain ⟨j, hj⟩ := exec_pinWrite_output hd v
    rw [hj] at e
    have kept := sigWrite_stable kept_stable _ _ _ _ _ trivial e
    have hdt := (kept.dir _).trans hd
    obtain ⟨j', hj'⟩ := exec_pinWrite_output hdt v
    rw [hj', sigWrite_succ, writeSignal_same _ hdt (by rw [fit_pinVal, sigWrite_pin_sig j b hd e])]
    rfl
  · obtain ⟨j, hj⟩ := exec_portWrite_output hd v
    rw [hj] at e
    have kept := sigWrite_stable kept_stable _ _ _ _ _ trivial e
    have hdt := (kept.dir _).trans hd
    obtain ⟨j', hj'⟩ := exec_portWrite_output hdt v
    rw [hj', sigWrite_succ, writeSignal_same _ hdt (by rw [kept.fit, sigWrite_port_sig j b hd e])]
    rfl

/-- Settles O49: the delivery sets each input, and nothing that it reaches changes the wire again. -/
theorem boundInputsFollow : Obligations.BoundInputsFollow := by
  intro s t b
  refine ⟨fun k v hd hne e => ?_, fun k p v w hp hout hw hne e => ?_⟩
  · obtain ⟨j, hj⟩ := exec_pinWrite_output hd v
    rw [hj] at e
    simpa only [fit_pinVal] using
      sigWrite_changes j b hd (by rw [fit_pinVal]; exact hne.symm) e (b.pin_sets hd v)
  · have hd : s.dir (.port k) = some .output := by rw [State.dir_extPort hp, hout]; rfl
    obtain ⟨j, hj⟩ := exec_portWrite_output hd v
    rw [hj] at e
    have fits := State.fit_extPort hp hw
    simpa only [fits] using
      sigWrite_changes j b hd (by rw [fits, State.sig_extPort hp]; exact hne.symm) e (b.port_sets hd _)

end Sys2Proof.Machine
end

section
/-!
PROOFS. What signals leave alone while the callbacks of other devices do nothing (43_dma_transfer.md R109, R111, R116): a
channel that accepts no trigger, what a program wrote, and a channel that is active.
-/

namespace Sys2Proof.Machine

/-! ### A channel that accepts no trigger -/

/-- Other devices' callbacks do nothing and channel n accepts no trigger. -/
structure SilentBlocked (n : Chan) (s : State) : Prop where
  silent : s.params.envReact = []
  blocked : Blocked n s

theorem SilentBlocked.kept {n : Chan} {s t : State} (h : BodyKept n s t) (hs : SilentBlocked n s) : SilentBlocked n t := by
  refine ⟨by rw [h.params]; exact hs.silent, ?_⟩
  have word : t.ctrlWord n = s.ctrlWord n := congrArg Cell.cur h.body.ctrl
  simp only [Blocked, State.en, State.test, h.params, word]
  exact hs.blocked

theorem silentBlocked_stable (n : Chan) :
    Stable (SilentBlocked n) (fun m => m ≠ n) False (BodyKept n) (fun _ => BodyKept n) :=
  body_stable n (SilentBlocked n) (fun _ _ => SilentBlocked.kept) (fun _ h => h.silent) (by
    rintro s m hI - hen htest rfl
    obtain hdisabled | htesting := hI.blocked
    · rw [hen] at hdisabled; cases hdisabled
    · rw [htest.resolve_right id] at htesting; cases htesting)

theorem OnlyChannel.bodyKept {m n : Chan} (h : m ≠ n) {s t : State} (only : OnlyChannel m s t) : BodyKept n s t :=
  ⟨by rw [only.others n h.symm]; exact Channel.SameBody.refl _, only.params, only.bindings⟩

/-- A CTRL write of another channel reaches a blocked one only through its pulse. -/
theorem wrCtrl_bodyKept {m n : Chan} (hmn : m ≠ n) {v : Word} {s t : State} (hs : SilentBlocked n s)
    (e : exec (.wrCtrl m v) s = .next t) : BodyKept n s t := by
  have writes := (topWrite_stable (silentBlocked_stable n) s).uses (silentBlocked_stable n).toStableInside
  rw [exec_wrCtrl] at e
  by_cases hin : .ctrl m ∈ s.inCallback
  · rw [regWrite_reentrant (r := .ctrl m) _ v nofun hin] at e; cases e
  · rw [regWrite_ctrl_eq _ _ hin] at e
    split at e
    · obtain ⟨a, ha, hb⟩ := andThen_eq_next.mp e
      cases hb
      have entered : BodyKept n s ((ctrlArmed m v s).enterHandler (.ctrl m)) :=
        ⟨((ctrlArmed_only m v s).bodyKept hmn).body, rfl, rfl⟩
      have pulsed := writes.pulse m .request _ a (hs.kept entered) ha
      have left := entered.trans pulsed
      exact ⟨left.body, left.params, left.bindings⟩
    · cases e; exact (ctrlStored_only m v s).bodyKept hmn

/-- A TRIGGER write of another channel reaches a blocked one only through its transfer. -/
theorem wrTrigger_bodyKept {m n : Chan} (hmn : m ≠ n) {v : Word} {s t : State} (hs : SilentBlocked n s)
    (e : exec (.wrTrigger m v) s = .next t) : BodyKept n s t := by
  have writes := (topWrite_stable (silentBlocked_stable n) s).uses (silentBlocked_stable n).toStableInside
  have stored : BodyKept n s (triggerStored m v s) := (triggerStored_only m v s).bodyKept hmn
  rw [exec_wrTrigger] at e
  by_cases hin : .trigger m ∈ s.inCallback
  · rw [regWrite_reentrant (r := .trigger m) _ v nofun hin] at e; cases e
  · rw [regWrite_trigger_eq _ _ hin] at e
    split at e
    · cases e; exact ⟨stored.body, stored.params, stored.bindings⟩
    · split at e
      · obtain ⟨a, ha, hb⟩ := andThen_eq_next.mp e
        cases hb
        have entered : BodyKept n s ((triggerStored m v s).enterHandler (.trigger m)) :=
          ⟨stored.body, stored.params, stored.bindings⟩
        have ran := run_stable (silentBlocked_stable n).toStableInside writes (hs.kept entered) (fun _ => hmn) ha
        have left := entered.trans ran
        exact ⟨left.body, left.params, left.bindings⟩
      · cases e; exact stored

/-- A pin or port write that answers a next state is a signal write. -/
theorem exec_signal_next {i : Instr} {s t : State} (hi : (∃ p b, i = .pinWrite p b) ∨ ∃ k v, i = .portWrite k v)
    (e : exec i s = .next t) : ∃ p v, topWrite s p v s = .next t := by
  obtain ⟨p, b, rfl⟩ | ⟨k, v, rfl⟩ := hi
  · change execPinWrite p b s = .next t at e
    unfold execPinWrite at e
    split at e
    · exact ⟨_, _, e⟩
    · cases e
  · change execPortWrite k v s = .next t at e
    unfold execPortWrite at e
    split at e
    · exact ⟨_, _, e⟩
    · cases e

/-- Settles O50: a channel that runs is enabled and out of test mode, so it is another one. -/
theorem blockedChannelUntouched : Obligations.BlockedChannelUntouched := by
  intro s t n i hsilent hblocked hi e
  have hs : SilentBlocked n s := ⟨hsilent, hblocked⟩
  obtain hpin | hport | ⟨m, v, hmn, rfl⟩ | ⟨m, v, hmn, rfl⟩ := hi
  · obtain ⟨p, v, e⟩ := exec_signal_next (.inl hpin) e
    exact (topWrite_stable (silentBlocked_stable n) s p v s t hs e).body
  · obtain ⟨p, v, e⟩ := exec_signal_next (.inr hport) e
    exact (topWrite_stable (silentBlocked_stable n) s p v s t hs e).body
  · exact (wrTrigger_bodyKept hmn hs e).body
  · exact (wrCtrl_bodyKept hmn hs e).body

/-! ### What a program wrote -/

/-- The previous value of each register of the block. -/
theorem WrittenKept.values_prev {s t : State} (h : WrittenKept s t) (r : RegId) : (t.values r).prev = (s.values r).prev := by
  cases r with
  | ctrl n => exact (h.chan n).ctrl
  | cfg k => simp only [State.values, State.cfgCell, h.cfg]
  | src n => exact (h.chan n).src
  | dst n => exact (h.chan n).dst
  | size n => exact (h.chan n).size
  | status k => rfl
  | trigger n => exact congrArg Cell.prev (h.chan n).trigger

/-- Settles O51: the engine updates current values only, and of neither CFG nor TRIGGER. -/
theorem signalsLeaveProgrammedRegisters : Obligations.SignalsLeaveProgrammedRegisters := by
  intro s t i hsilent hi e
  obtain ⟨p, v, e⟩ := exec_signal_next hi e
  have kept := topWrite_stable written_stable s p v s t hsilent e
  exact ⟨kept.cfg, fun n => (kept.chan n).trigger, kept.values_prev⟩

/-! ### A channel that is active -/

/-- Other devices' callbacks do nothing and channel n is active. -/
structure SilentActive (n : Chan) (s : State) : Prop where
  silent : s.params.envReact = []
  active : (s.chan n).active = true

theorem silentActive_stable (n : Chan) :
    Stable (SilentActive n) (fun m => m ≠ n) False (BodyKept n) (fun _ => BodyKept n) :=
  body_stable n (SilentActive n)
    (fun _ _ h hs => ⟨by rw [h.params]; exact hs.silent, h.body.active.trans hs.active⟩) (fun _ h => h.silent) (by
    rintro s m hI hidle - - rfl
    rw [hI.active] at hidle; cases hidle)

/-- Settles O52: a run of an active channel faults, so a channel that changes is another one. -/
theorem pulsesLeaveActiveChannel : Obligations.PulsesLeaveActiveChannel := by
  intro s t u n p hsilent hactive e
  have writes := topWrite_stable (silentActive_stable n) u
  obtain ⟨a, ha, hb⟩ := andThen_eq_next.mp e
  have hs : SilentActive n s := ⟨hsilent, hactive⟩
  have raised := writes _ _ s a hs ha
  have lowered := writes _ _ a t ((silentActive_stable n).inv raised hs) hb
  exact (raised.trans lowered).body

end Sys2Proof.Machine
end

section
/-!
PROOFS. Run in each mode (43_dma_transfer.md R115 to R121): the units moved from the start of the invocation, what the mode
leaves in its channel, the pulses that are still to come, and the faults of a counter that runs out and of the register
window.
-/

namespace Sys2Proof.Machine

/-! ### The pulses of an invocation -/

theorem andThen_next_right {α : Type} (x : Host.Outcome α Fault Refusal) : andThen x .next = x := by cases x <;> rfl

theorem emitPulses_one (write : Writer) (n : Chan) (e : Pulse) (s : State) :
    emitPulses write n [e] s = pulse write (pulsePin n e) s :=
  andThen_next_right _

theorem emitPulses_two (write : Writer) (n : Chan) (e e' : Pulse) (s : State) :
    emitPulses write n [e, e'] s =
      andThen (pulse write (pulsePin n e) s) fun z => pulse write (pulsePin n e') z :=
  congrArg (andThen _) (funext fun z => emitPulses_one write n e' z)

/-! ### The units of an invocation -/

/-- The `k` units of a transfer by channel n on bank `b`, from the state before its invocation: nothing outside the channel
changed but the bus side and the history, which has their events. -/
structure Transferred (n : Chan) (b : Bank) (u k : Nat) (s t : State) (es : List Event) : Prop where
  only : OnlyChannel n s t
  hist : t.hist = s.hist ++ es
  events : TransferEvents n (s.sinc n) (s.dinc n) u k (counters s n b).src (counters s n b).dst es
  stores : Memory.wf s.mem = true → StoresOnly s t n u k (counters s n b).dst

/-- The start of the invocation adds nothing to what its units do. -/
theorem UnitsMoved.transferred {n : Chan} {b : Bank} {u k : Nat} {s t : State}
    (h : UnitsMoved n b u k (startInvocation n s) t) : ∃ es, Transferred n b u k s t es := by
  obtain ⟨-, -, -, hsinc, hdinc, hparams, hmem, hhist, hcounters⟩ := startInvocation_views n s
  obtain ⟨es, hes, hevents⟩ := h.events
  rw [hsinc, hdinc, hcounters] at hevents
  refine ⟨es, (startInvocation_only n s).trans h.only, by rw [hes, hhist], hevents, fun hwf => ?_⟩
  have stores := (h.stores (hmem ▸ hwf)).2
  rw [hcounters] at stores
  exact stores.congr hmem.symm rfl hdinc.symm hparams.symm

/-- What ends a transfer changes its channel only. -/
theorem Transferred.finish {n : Chan} {b : Bank} {u k : Nat} {s t t' : State} {es : List Event}
    (h : Transferred n b u k s t es) (only : OnlyChannel n t t') (hhist : t'.hist = t.hist := by rfl)
    (hmem : t'.mem = t.mem := by rfl) : Transferred n b u k s t' es :=
  ⟨h.only.trans only, hhist.trans h.hist, h.events, fun hwf => (h.stores hwf).congr rfl hmem rfl rfl⟩

/-- The events of one unit. -/
theorem transferEvents_one {n : Chan} {sinc dinc : BitVec 2} {u : Nat} {a d : Word} {es : List Event}
    (h : TransferEvents n sinc dinc u 1 a d es) : UnitEvents n a d u es := by
  obtain ⟨e1, e2, rfl, hunit, rfl⟩ := h
  rwa [List.append_nil]

section
variable {n : Chan} {s : State} {u k : Nat} {b : Bank} {c : Bool}

/-- One unit from the start of the invocation. -/
theorem unitStep_started (hu : u = unitLen c) (hsize : u ≤ (counters s n b).size.toNat)
    (hclear : ClearOfWindow s n u 1 (counters s n b)) :
    ∃ t, unitStep b n u (startInvocation n s) = .next t ∧ UnitsMoved n b u 1 (startInvocation n s) t := by
  obtain ⟨-, -, -, -, -, -, -, -, hcounters⟩ := startInvocation_views n s
  exact unitStep_moved (hu ▸ (unitLen_bounds c).1) (by rw [hcounters]; exact hsize)
    (by rw [hcounters]; exact hclear.start)

/-- All units from the start of the invocation. -/
theorem runBlock_started (hu : u = unitLen c) (hsize : (counters s n b).size.toNat = (k + 1) * u)
    (hclear : ClearOfWindow s n u (k + 1) (counters s n b)) :
    ∃ t, runBlock b n u (startInvocation n s) = .next t ∧ UnitsMoved n b u (k + 1) (startInvocation n s) t := by
  obtain ⟨-, -, -, -, -, -, -, -, hcounters⟩ := startInvocation_views n s
  obtain ⟨hle, hpos⟩ := unitLen_bounds c
  rw [← hu] at hle hpos
  rw [runBlock, hcounters, hsize, Nat.mul_div_cancel _ hpos]
  exact blockLoop_moved hpos hle k _ (by rw [hcounters]; exact hsize) (by rw [hcounters]; exact hclear.start)

/-- After one unit the counter is 0 exactly if it held one unit. -/
theorem UnitsMoved.size_zero_iff (hu : u = unitLen c) (hsize : u ≤ (counters s n b).size.toNat) {t : State}
    (h : UnitsMoved n b u 1 (startInvocation n s) t) :
    (counters t n b).size = 0 ↔ (counters s n b).size.toNat = u := by
  obtain ⟨-, -, -, -, -, -, -, -, hcounters⟩ := startInvocation_views n s
  rw [h.counters_eq, hcounters]
  exact Machine.size_zero_iff _ u hsize (hu ▸ (unitLen_bounds c).1)

/-- The channel after units on the backing registers, from the start of the invocation. -/
theorem UnitsMoved.started_backing_chan {t : State} (h : UnitsMoved n .backing u k (startInvocation n s) t) :
    t.chan n = { s.chan n with
      src := { (s.chan n).src with cur := addrAfter (s.sinc n) u k (s.chan n).src.cur }
      dst := { (s.chan n).dst with cur := addrAfter (s.dinc n) u k (s.chan n).dst.cur }
      size := { (s.chan n).size with cur := (s.chan n).size.cur - BitVec.ofNat 32 (k * u) }
      st := Flags.running
      active := true } := by
  obtain ⟨-, -, -, hsinc, hdinc, -⟩ := startInvocation_views n s
  rw [h.backing_chan, startInvocation_chan, hsinc, hdinc]

/-- The channel after units on the working copy, from the start of the invocation. -/
theorem UnitsMoved.started_working_chan {t : State} (h : UnitsMoved n .working u k (startInvocation n s) t) :
    t.chan n = { s.chan n with
      wk := countersAfter s n u k (s.chan n).wk
      st := Flags.running
      active := true } := by
  obtain ⟨-, -, -, hsinc, hdinc, -⟩ := startInvocation_views n s
  rw [h.working_chan, startInvocation_chan, countersAfter_congr hsinc hdinc]

end

/-! ### The modes -/

/-- Settles O30: one unit, and then the end that the counter calls for. -/
theorem runSingle : Obligations.RunSingle := by
  intro write n s u hidle hmode hbytes hu hsize hclear
  obtain ⟨t, hstep, hmoved⟩ := unitStep_started (b := .backing) hu hsize hclear
  obtain ⟨es, done⟩ := hmoved.transferred
  have hzero := hmoved.size_zero_iff (b := .backing) hu hsize
  have hchan := hmoved.started_backing_chan
  have unit := transferEvents_one done.events
  rw [run_accepts write hidle hmode hbytes, ← hu, runMode, modeSingle, hstep, andThen_next]
  by_cases hlast : (s.chan n).size.cur.toNat = u
  · have done' := done.finish (completeOneShot_only n t)
    refine ⟨completeOneShot n t, es, ?_, done'.only, done'.hist, unit, done'.stores, ?_⟩
    · rw [if_pos (hzero.mpr hlast), andThen_next, emitPulses_one, if_pos hlast]; rfl
    · rw [completeOneShot_chan, hchan, done.only.params]
      simp [hlast, Flags.completed, Flags.running, addrAfter]
  · have done' := done.finish (modFlags_only t n Flags.requested)
    refine ⟨modFlags t n Flags.requested, es, ?_, done'.only, done'.hist, unit, done'.stores, ?_⟩
    · rw [if_neg (mt hzero.mp hlast), andThen_next, emitPulses_one, if_neg hlast]; rfl
    · rw [modFlags_chan, hchan]
      simp [hlast, Flags.requested, Flags.running, addrAfter]

/-- A counter of whole units is 0 after them. -/
theorem sub_ofNat_toNat {x : Word} {m : Nat} (h : x.toNat = m) : x - BitVec.ofNat 32 m = 0 := by
  rw [← h, BitVec.ofNat_toNat, BitVec.setWidth_eq, BitVec.sub_self]
  rfl

/-- Settles O31: all units, and then the end of a one-shot transfer. -/
theorem runBlockMode : Obligations.RunBlock := by
  intro write n s k u hidle hmode hbytes hu hsize hclear
  obtain ⟨t, hstep, hmoved⟩ := runBlock_started (b := .backing) hu hsize hclear
  obtain ⟨es, done⟩ := hmoved.transferred
  have done' := done.finish (completeOneShot_only n t)
  refine ⟨completeOneShot n t, es, ?_, done'.only, done'.hist, done.events, done'.stores, ?_⟩
  · rw [run_accepts write hidle hmode hbytes, ← hu, runMode, modeBlock, hstep, andThen_next, andThen_next, emitPulses_one]
    rfl
  · rw [completeOneShot_chan, hmoved.started_backing_chan, done.only.params, sub_ofNat_toNat hsize]
    rfl

/-- Settles O32: one unit of the working copy, and then the end that its counter calls for. -/
theorem runRepeatedSingle : Obligations.RunRepeatedSingle := by
  intro write n s u hidle hmode hbytes hu hsize hclear
  obtain ⟨t, hstep, hmoved⟩ := unitStep_started (b := .working) hu hsize hclear
  obtain ⟨es, done⟩ := hmoved.transferred
  have hzero := hmoved.size_zero_iff (b := .working) hu hsize
  have hchan := hmoved.started_working_chan
  have unit := transferEvents_one done.events
  rw [run_accepts write hidle hmode hbytes, ← hu, runMode, modeRepeatedSingle, hstep, andThen_next]
  by_cases hlast : (s.chan n).wk.size.toNat = u
  · have done' := done.finish (completePass_only n t)
    refine ⟨completePass n t, es, ?_, done'.only, done'.hist, unit, done'.stores, ?_⟩
    · rw [if_pos (hzero.mpr hlast), andThen_next, emitPulses_two, if_pos hlast, andThen_assoc]; rfl
    · rw [completePass_chan, backingCounters, hchan]
      simp [hlast, Flags.passEnded, Flags.running]
  · have done' := done.finish (modFlags_only t n Flags.requested)
    refine ⟨modFlags t n Flags.requested, es, ?_, done'.only, done'.hist, unit, done'.stores, ?_⟩
    · rw [if_neg (mt hzero.mp hlast), andThen_next, emitPulses_one, if_neg hlast]; rfl
    · rw [modFlags_chan, hchan]
      simp [hlast, Flags.requested, Flags.running, countersAfter, addrAfter]

/-- Settles O33: all units of the working copy, and then the end of a repeated pass. -/
theorem runRepeatedBlock : Obligations.RunRepeatedBlock := by
  intro write n s k u hidle hmode hbytes hu hsize hclear
  obtain ⟨t, hstep, hmoved⟩ := runBlock_started (b := .working) hu hsize hclear
  obtain ⟨es, done⟩ := hmoved.transferred
  have done' := done.finish (completePass_only n t)
  refine ⟨completePass n t, es, ?_, done'.only, done'.hist, done.events, done'.stores, ?_⟩
  · rw [run_accepts write hidle hmode hbytes, ← hu, runMode, modeRepeatedBlock, hstep, andThen_next, andThen_next,
      emitPulses_two, andThen_assoc]
    rfl
  · rw [completePass_chan, backingCounters, hmoved.started_working_chan]
    rfl

/-! ### Faults -/

/-- The bank a mode works on (43_dma_transfer.md R121). -/
def modeBank (m : Mode) : Bank := if m = .single ∨ m = .block then .backing else .working

theorem blockLoop_firstUnit_faults {b : Bank} {n : Chan} {u : Nat} {s : State} {f : Fault}
    (h : unitStep b n u s = .fault f) (k : Nat) : blockLoop b n u k s = .fault f := by
  cases k with
  | zero => exact h
  | succ k => rw [blockLoop, h]; rfl

theorem andThen_of_fault {α β : Type} {x : Host.Outcome α Fault Refusal} {g : α → Host.Outcome β Fault Refusal} {f : Fault}
    (h : x = .fault f) : andThen x g = .fault f := by
  rw [h]; rfl

/-- A fault of the first unit is the mode's. -/
theorem runMode_firstUnit_faults {m : Mode} {n : Chan} {u : Nat} {s : State} {f : Fault}
    (h : unitStep (modeBank m) n u s = .fault f) : runMode m n u s = .fault f := by
  cases m with
  | single => exact andThen_of_fault h
  | block => exact andThen_of_fault (blockLoop_firstUnit_faults h _)
  | repeatedSingle => exact andThen_of_fault h
  | repeatedBlock => exact andThen_of_fault (blockLoop_firstUnit_faults h _)

/-- A fault of the loop is that of a Block mode. -/
theorem runMode_runBlock_faults {m : Mode} (hm : m = .block ∨ m = .repeatedBlock) {n : Chan} {u : Nat} {s : State}
    {f : Fault} (h : runBlock (modeBank m) n u s = .fault f) : runMode m n u s = .fault f := by
  obtain rfl | rfl := hm <;> exact andThen_of_fault h

/-- A fault of the mode is the invocation's. -/
theorem run_faults (write : Writer) {n : Chan} {s : State} {m : Mode} {f : Fault} (hidle : (s.chan n).active = false)
    (hmode : modeOf (s.modeField n) = some m) (hbytes : s.sbyte n = s.dbyte n)
    (h : runMode m n (unitLen (s.sbyte n)) (startInvocation n s) = .fault f) : run write n s = .fault f :=
  (run_accepts write hidle hmode hbytes).trans (andThen_of_fault h)

/-- The fault of a mode whose counter holds `k` units and `r` bytes, after the `k` units. -/
theorem runMode_underrun {m : Mode} {n : Chan} {u k r : Nat} {s : State} (hu : u ≤ 4) (hr : r < u)
    (hsize : (counters s n (modeBank m)).size.toNat = k * u + r)
    (hmode : k = 0 ∨ r ≠ 0 ∧ (m = .block ∨ m = .repeatedBlock))
    (hclear : ClearOfWindow s n u k (counters s n (modeBank m))) :
    ∃ t, runMode m n u s = .fault (.sizeUnderrun n (BitVec.ofNat 32 r) u t.markFaulted) ∧
      UnitsMoved n (modeBank m) u k s t := by
  obtain ⟨t, hloop, hmoved⟩ := blockLoop_underrun hu hr k s hsize (hmode.imp id And.left) hclear
  refine ⟨t, ?_, hmoved⟩
  obtain rfl | ⟨-, hm⟩ := hmode
  · exact runMode_firstUnit_faults hloop
  · refine runMode_runBlock_faults hm ?_
    have whole_units : (k * u + r) / u = k := by
      rw [Nat.mul_comm, Nat.mul_add_div (by omega), Nat.div_eq_of_lt hr, Nat.add_zero]
    rw [runBlock, hsize, whole_units, hloop]

/-- Settles O34: the units before the fault are those of any transfer. -/
theorem sizeUnderrunFaults : Obligations.SizeUnderrunFaults := by
  intro write n s m b k u r hidle hmode hb hbytes hu hsize hr hcase hclear
  obtain ⟨-, -, -, -, -, -, -, -, hcounters⟩ := startInvocation_views n s
  obtain rfl : b = modeBank m := hb
  obtain ⟨t, hrun, hmoved⟩ := runMode_underrun (s := startInvocation n s) (hu ▸ (unitLen_bounds _).1) hr
    (by rw [hcounters]; exact hsize) hcase (by rw [hcounters]; exact hclear.start)
  obtain ⟨es, done⟩ := hmoved.transferred
  exact ⟨t.markFaulted, es, run_faults write hidle hmode hbytes (hu ▸ hrun), rfl, done.hist, done.events⟩

/-- The window is tested before any request, the source first. -/
theorem unitStep_selfAccess {b : Bank} {n : Chan} {u : Nat} {s : State} {a : Word}
    (hsize : u ≤ (counters s n b).size.toNat)
    (h : reachesWindow s (counters s n b).src u = true ∧ a = (counters s n b).src ∨
      reachesWindow s (counters s n b).src u = false ∧ reachesWindow s (counters s n b).dst u = true ∧
        a = (counters s n b).dst) : unitStep b n u s = .fault (.selfAccess a s.markFaulted) := by
  unfold unitStep
  simp only [if_neg (Nat.not_lt.mpr hsize)]
  obtain ⟨hsrc, rfl⟩ | ⟨hsrc, hdst, rfl⟩ := h
  · rw [if_pos hsrc]
  · rw [if_neg (by simp [hsrc]), if_pos hdst]

/-- Settles O35: the first unit's fault, from the start of the invocation. -/
theorem selfAccessFaults : Obligations.SelfAccessFaults := by
  intro write n s m b u a hidle hmode hb hbytes hu hsize hwindow
  obtain ⟨-, -, -, -, -, hparams, hmem, hhist, hcounters⟩ := startInvocation_views n s
  obtain rfl : b = modeBank m := hb
  have hfault := unitStep_selfAccess (s := startInvocation n s) (n := n) (b := modeBank m) (u := u) (a := a)
    (by rw [hcounters]; exact hsize) (by
      rw [hcounters, reachesWindow_params hparams, reachesWindow_params hparams]; exact hwindow)
  exact ⟨(startInvocation n s).markFaulted, run_faults write hidle hmode hbytes (hu ▸ runMode_firstUnit_faults hfault),
    rfl, hhist, hmem⟩

end Sys2Proof.Machine
end

section
/-!
PROOFS. One unit on either bus: the free-answer bus, whose failures stop nothing (43_dma_transfer.md R121, R122; log entry 4),
and the plain byte memory, on which a unit is a copy (20_memory.md R48; log entry 5).
-/

namespace Sys2Proof.Machine

/-! ### The free-answer bus -/

section
variable {s : State} {x : Answer} {as : List Answer} (hbus : s.params.busKind = .oracle) (has : s.answers = x :: as)
include hbus has

theorem memRead_oracle (a : Word) (u : Nat) : memRead a u s = (answerBytes x u, x.ok,
    { s with answers := as, hist := s.hist ++ [.memRead a.toNat (answerBytes x u) x.ok] }) := by
  simp [memRead, busRead, hbus, nextAnswer, has, State.record]

theorem writeUnit_oracle (n : Chan) (d : Word) (bytes : List Byte) : writeUnit n d bytes s =
    { s with answers := as, hist := s.hist ++ ([.memWrite d.toNat bytes x.ok] ++ writeErrors n d x.ok) } := by
  cases hok : x.ok <;> simp [writeUnit, memWrite, busWrite, hbus, nextAnswer, has, State.record, State.raise, writeErrors, hok]

/-- A read that succeeds is followed by the write of its bytes. -/
theorem moveUnit_oracle_read (n : Chan) (c : Counters) (u : Nat) {w : Answer} {rest : List Answer} (hok : x.ok = true)
    (hrest : as = w :: rest) : moveUnit n c u s = { s with
      answers := rest
      hist := s.hist ++ ([.memRead c.src.toNat (answerBytes x u) true, .memWrite c.dst.toNat (answerBytes x u) w.ok] ++
        writeErrors n c.dst w.ok) } := by
  rw [moveUnit, memRead_oracle hbus has]
  simp only [hok, if_true]
  refine (writeUnit_oracle (x := w) (as := rest) ?_ ?_ n _ _).trans ?_
  · exact hbus
  · exact hrest
  · simp

/-- A read that fails is followed by a draw. -/
theorem moveUnit_oracle_failed (n : Chan) (c : Counters) (u : Nat) {p : Answer} {rest : List Answer} (hok : x.ok = false)
    (hrest : as = p :: rest) : moveUnit n c u s =
      let t := { s with answers := rest, hist := s.hist ++
        [.memRead c.src.toNat (answerBytes x u) false, .error (.busReadFail n c.src)] }
      if p.ok then writeUnit n c.dst (answerBytes p u) t else t := by
  rw [moveUnit, memRead_oracle hbus has]
  simp [hok, afterFailedRead, nextAnswer, State.raise, State.record, hrest]

end

theorem setCounters_only (s : State) (n : Chan) (b : Bank) (c : Counters) : OnlyChannel n s (setCounters s n b c) := by
  cases b with
  | backing => exact OnlyChannel.modChan s n fun ch => { ch with
      src := { ch.src with cur := c.src }, dst := { ch.dst with cur := c.dst }, size := { ch.size with cur := c.size } }
  | working => exact OnlyChannel.modChan s n fun ch => { ch with wk := c }

theorem setCounters_chan_kept (s : State) (n : Chan) (b : Bank) (c : Counters) :
    ((setCounters s n b c).chan n).st = (s.chan n).st ∧ ((setCounters s n b c).chan n).ctrl = (s.chan n).ctrl := by
  cases b <;> simp [setCounters]

theorem setCounters_answers (s : State) (n : Chan) (b : Bank) (c : Counters) :
    (setCounters s n b c).answers = s.answers := by
  cases b <;> rfl

/-- A unit step whose bus requests are known. -/
theorem unitStep_of_moveUnit {s z : State} {n : Chan} {b : Bank} {u : Nat} {c : Counters} (hc : c = counters s n b)
    (hsize : u ≤ c.size.toNat) (hsrc : reachesWindow s c.src u = false) (hdst : reachesWindow s c.dst u = false)
    (hmove : moveUnit n c u s = z) : unitStep b n u s = .next (setCounters z n b (advance s n u c)) := by
  subst hc hmove
  exact unitStep_eq_next.mpr ⟨hsize, hsrc, hdst, rfl⟩

/-- Settles O37: whatever the answers, the requests use them in order and the counters advance. -/
theorem busFailuresAreNotFatal : Obligations.BusFailuresAreNotFatal := by
  intro s n b u c r p w rest hbus hc hsize hsrc hdst as used es hcase has hanswers
  have hmove : moveUnit n c u s = { s with answers := rest, hist := s.hist ++ es } := by
    obtain ⟨hr, hp, rfl, rfl⟩ | ⟨hr, hp, rfl, rfl⟩ | ⟨hr, rfl, rfl⟩ := hcase
    · rw [moveUnit_oracle_failed hbus (hanswers.trans has) n c u hr rfl]
      simp [hp, answerBytes]
    · rw [moveUnit_oracle_failed hbus (hanswers.trans has) n c u hr rfl]
      simp only [hp, if_true]
      refine (writeUnit_oracle (x := w) (as := rest) ?_ rfl n _ _).trans ?_
      · exact hbus
      · simp [answerBytes]
    · exact moveUnit_oracle_read hbus (hanswers.trans has) n c u hr rfl
  obtain ⟨-, -, -, hmem, hhist⟩ := setCounters_views { s with answers := rest, hist := s.hist ++ es } n b (advance s n u c)
  obtain ⟨hst, hctrl⟩ := setCounters_chan_kept { s with answers := rest, hist := s.hist ++ es } n b (advance s n u c)
  exact ⟨_, unitStep_of_moveUnit hc hsize hsrc hdst hmove, setCounters_answers _ _ _ _, hhist, hmem,
    (hmove ▸ (moveUnit_busOnly n c u s).onlyChannel n).trans (setCounters_only _ _ _ _), hst, hctrl,
    counters_setCounters _ _ _ _⟩

/-! ### The plain byte memory -/

/-- A byte written once, at an address no other write of the list has, is read back. -/
theorem memGet_memSetAll_of_mem {a : Nat} {b : Byte} {ws : List (Nat × Byte)} : ∀ {m : Memory}, Memory.wf m = true →
    (ws.map Prod.fst).Nodup → (a, b) ∈ ws → memGet (memSetAll m ws) a = b := by
  induction ws with
  | nil => intro m _ _ hmem; cases hmem
  | cons w ws ih =>
    intro m hwf hnodup hmem
    obtain ⟨hnotin, hrest⟩ := List.nodup_cons.mp hnodup
    rw [memSetAll]
    obtain rfl | htail := List.mem_cons.mp hmem
    · rw [memGet_memSetAll_of_notMem ws a (memSet_wf a b hwf) hnotin, memGet_memSet_wf hwf, if_pos rfl]
    · exact ih (memSet_wf _ _ hwf) hrest htail

/-- The addresses of a unit are distinct: the bus space holds more than a unit. -/
theorem byteAddrs_nodup {s : State} (a : Word) {u : Nat} (hu : u ≤ 2 ^ s.params.busAddrWidth) : (byteAddrs s a u).Nodup := by
  refine List.Nodup.map_on (fun i hi j hj h => ?_) List.nodup_range
  rw [List.mem_range] at hi hj
  exact (Nat.ModEq.add_left_cancel' _ h).eq_of_lt_of_lt (hi.trans_le hu) (hj.trans_le hu)

theorem mem_byteAddrs {s : State} {a : Word} {u x : Nat} :
    x ∈ byteAddrs s a u ↔ ∃ i, i < u ∧ (a.toNat + i) % 2 ^ s.params.busAddrWidth = x := by
  simp [byteAddrs]

/-- The stores of a unit on the plain byte memory: each destination address with the byte of its source address. -/
def unitStores (s : State) (c : Counters) (u : Nat) : List (Nat × Byte) :=
  (byteAddrs s c.dst u).zip (memGetAll s.mem (byteAddrs s c.src u))

theorem unitStores_eq (s : State) (c : Counters) (u : Nat) : unitStores s c u = (List.range u).map fun i =>
    ((c.dst.toNat + i) % 2 ^ s.params.busAddrWidth, memGet s.mem ((c.src.toNat + i) % 2 ^ s.params.busAddrWidth)) := by
  rw [unitStores, memGetAll, byteAddrs, byteAddrs, List.map_map, List.zip_map']
  rfl

theorem unitStores_addrs (s : State) (c : Counters) (u : Nat) : (unitStores s c u).map Prod.fst = byteAddrs s c.dst u := by
  rw [unitStores_eq, List.map_map]; rfl

/-- A unit on the plain byte memory reads all its bytes and then stores them. -/
theorem moveUnit_memory_mem {s : State} (hbus : s.params.busKind = .memory) (n : Chan) (c : Counters) (u : Nat) :
    (moveUnit n c u s).mem = memSetAll s.mem (unitStores s c u) := by
  simp [moveUnit, memRead, busRead, writeUnit, memWrite, busWrite, hbus, State.record, unitStores, memGetAll,
    byteAddrs_length]
  rfl

/-- Settles O38: the destination addresses are distinct, so each holds the byte stored to it. -/
theorem unitCopiesBytes : Obligations.UnitCopiesBytes := by
  intro s n b u c hbus hwidth hwf hu hc hsize hsrc hdst
  have hspace : u ≤ 2 ^ s.params.busAddrWidth := calc
    u ≤ 2 ^ 32 := by omega
    _ ≤ 2 ^ s.params.busAddrWidth := Nat.pow_le_pow_right (by decide) hwidth
  obtain ⟨-, -, -, hmem, -⟩ := setCounters_views (moveUnit n c u s) n b (advance s n u c)
  rw [moveUnit_memory_mem hbus] at hmem
  refine ⟨_, unitStep_of_moveUnit hc hsize hsrc hdst rfl, fun i hi => ?_, fun x hx => ?_, ?_⟩ <;> rw [hmem]
  · refine memGet_memSetAll_of_mem hwf (by rw [unitStores_addrs]; exact byteAddrs_nodup _ hspace) ?_
    rw [unitStores_eq]
    exact List.mem_map.mpr ⟨i, List.mem_range.mpr hi, rfl⟩
  · refine memGet_memSetAll_of_notMem _ x hwf ?_
    rw [unitStores_addrs, mem_byteAddrs]
    rintro ⟨i, hi, rfl⟩
    exact hx i hi rfl
  · exact memSetAll_wf _ hwf

end Sys2Proof.Machine
end

section
/-!
PROOFS. Transfers from the operation that starts them: a TRIGGER write in test mode (43_dma_transfer.md R110), and an edge of
another device's output on a trigger input (R111), with the edges that start none.
-/

namespace Sys2Proof.Machine

/-! ### Views of one channel that only its CTRL word and the parameters say -/

/-- States with the same parameters and CTRL[n] agree on every field of CTRL[n]. -/
theorem ctrl_views_congr {s z : State} {n : Chan} (hp : z.params = s.params) (hc : (z.chan n).ctrl = (s.chan n).ctrl) :
    z.en n = s.en n ∧ z.test n = s.test n ∧ z.modeField n = s.modeField n ∧ z.sbyte n = s.sbyte n ∧
    z.dbyte n = s.dbyte n ∧ z.sinc n = s.sinc n ∧ z.dinc n = s.dinc n := by
  simp only [State.en, State.test, State.modeField, State.sbyte, State.dbyte, State.sinc, State.dinc, State.ctrlWord, hp, hc,
    and_self]

theorem ClearOfWindow.congr {s z : State} {n : Chan} {u k : Nat} {c : Counters} (h : ClearOfWindow s n u k c)
    (hp : z.params = s.params) (hs : z.sinc n = s.sinc n) (hd : z.dinc n = s.dinc n) : ClearOfWindow z n u k c := by
  intro j hj
  rw [hs, hd, reachesWindow_params hp, reachesWindow_params hp]
  exact h j hj

/-! ### The end of a transfer whose pulse reaches nobody -/

/-- The state after the pulse and the end of the invocation. -/
def transferEnd (n : Chan) (e : Pulse) (t : State) : State :=
  endInvocation n { t with hist := t.hist ++ pulseEvents (pulsePin n e) }

theorem transferEnd_chan (n : Chan) (e : Pulse) (t : State) :
    (transferEnd n e t).chan n = { t.chan n with active := false } := by
  simp [transferEnd, endInvocation]

theorem OnlyChannel.transferEnd {n : Chan} {s t : State} (h : OnlyChannel n s t) (e : Pulse) :
    OnlyChannel n s (transferEnd n e t) :=
  (h.with_hist _).trans (OnlyChannel.modChan _ n fun ch => { ch with active := false })

/-- The pulse of an output that reaches nobody, and the end of the invocation. -/
theorem andThen_pulse_quiet (j : Nat) {n : Chan} {e : Pulse} {t : State} (h : QuietOutput t (pulsePin n e)) :
    andThen (pulse (sigWrite (j + 1)) (pulsePin n e) t) (fun y => .next (endInvocation n y)) = .next (transferEnd n e t) := by
  rw [pulse_quiet j n e h]; rfl

/-- A change of channel n that keeps its outputs keeps them quiet. -/
theorem QuietOutput.onlyChannel {n : Chan} {e : Pulse} {s t : State} (h : QuietOutput s (pulsePin n e))
    (hb : t.bindings = s.bindings) (hd : (t.chan n).done = (s.chan n).done) (hr : (t.chan n).reqo = (s.chan n).reqo)
    (hp : (.pin (pulsePin n e)) ∉ t.propagating) : QuietOutput t (pulsePin n e) := by
  refine h.congr hb ?_ hp
  cases e with
  | done => exact congrArg pinVal hd
  | request => exact congrArg pinVal hr

/-! ### A TRIGGER write -/

theorem OnlyChannel.leaveHandler {n : Chan} {r : RegId} {s t : State} (h : OnlyChannel n (s.enterHandler r) t) :
    OnlyChannel n s (t.leaveHandler r) := by
  refine ⟨h.others, h.cfg, h.extPins, h.extPorts, h.bindings, h.propagating, ?_, h.otherRegs, h.faultMark, h.refusalMark,
    h.params, h.pending⟩
  rw [State.leaveHandler_inCallback, h.inCallback, State.enterHandler_inCallback, List.erase_cons_head]

/-- Settles O27: the handler runs the block from the committed state, and its pulse reaches nobody. -/
theorem triggerWriteBlockTransfer : Obligations.TriggerWriteBlockTransfer := by
  intro s n v k u hin hen htest hlvl hbit hidle hmode hbytes hu hsize hclear hquiet
  have entered := triggerStored_only n v s
  have hz : ((triggerStored n v s).enterHandler (.trigger n)).chan n = _ := triggerStored_chan n v s
  obtain ⟨j, hj⟩ := topWrite_succ s
  obtain ⟨-, -, vmode, vsbyte, vdbyte, vsinc, vdinc⟩ := ctrl_views_congr (n := n) (s := s)
    (z := (triggerStored n v s).enterHandler (.trigger n)) rfl (by rw [hz])
  obtain ⟨t, es, hrun, only, hhist, hevents, hstores, hchan⟩ :=
    runBlockMode (sigWrite (j + 1)) n ((triggerStored n v s).enterHandler (.trigger n)) k u (by rw [hz]; exact hidle)
      (by rw [vmode]; exact hmode) (by rw [vsbyte, vdbyte]; exact hbytes) (by rw [vsbyte]; exact hu)
      (by rw [hz]; exact hsize) (by
        rw [backingCounters, hz]
        exact hclear.congr rfl vsinc vdinc)
  rw [hz] at hchan
  rw [vsinc, vdinc, hz] at hevents
  have quiet : QuietOutput t (pulsePin n .done) := QuietOutput.onlyChannel (e := .done) hquiet only.bindings
    (by rw [hchan]) (by rw [hchan]) (by rw [only.propagating]; exact hquiet.still)
  refine ⟨(transferEnd n .done t).leaveHandler (.trigger n), es, ?_, ?_, ?_, hevents, fun hwf => ?_, ?_⟩
  · rw [exec_wrTrigger_accepted hin hen htest hlvl hbit, hj, hrun]
    exact congrArg (andThen · _) (andThen_pulse_quiet j quiet)
  · exact entered.trans (only.transferEnd .done).leaveHandler
  · rw [show ((transferEnd n .done t).leaveHandler (.trigger n)).hist = t.hist ++ pulseEvents (.done n) from rfl, hhist]
    rfl
  · have stores := hstores hwf
    rw [hz] at stores
    exact stores.congr rfl rfl vdinc.symm rfl
  · rw [State.leaveHandler_chan, transferEnd_chan, hchan, vsinc, vdinc]
    simp [hidle, triggerStored]

end Sys2Proof.Machine
end

section
/-!
PROOFS. An edge of another device's output that is bound to one trigger input alone (43_dma_transfer.md R111, R113;
41_signal_fabric.md R86, R87): the way it takes to the input's handler, and what the handler does.
-/

namespace Sys2Proof.Machine

/-! ### Gating by sensitivity -/

theorem fires_edge_blocked {sens : Sens} {b : Bool} (h : sens = .posedge ∧ b = false ∨ sens = .negedge ∧ b = true) :
    fires sens (pinVal (!b)) (pinVal b) = false := by
  obtain ⟨rfl, rfl⟩ | ⟨rfl, rfl⟩ := h <;> rfl

theorem fires_edge_passed {sens : Sens} {b : Bool}
    (h : sens = .posedge ∧ b = true ∨ sens = .negedge ∧ b = false ∨ sens = .level) :
    fires sens (pinVal (!b)) (pinVal b) = true := by
  obtain ⟨rfl, rfl⟩ | ⟨rfl, rfl⟩ | rfl := h <;> rfl

/-! ### The handler of a trigger input -/

section
variable {n : Chan} {i : Source} {b : Bool} {s : State}

theorem trigPinHandler_ignored (write : Writer)
    (h : i ≠ s.tsel n ∨ b = false ∧ s.params.levelFallingTriggers = false ∨ s.en n = true ∧ s.test n = true) :
    trigPinHandler write n i b s = .next s := by
  unfold trigPinHandler
  obtain hsel | hfall | ⟨hen, htest⟩ := h
  · rw [if_pos hsel]
  · rw [if_pos hfall, ite_self]
  · rw [if_pos htest, if_neg (show ¬ s.en n = false by simp [hen]), ite_self, ite_self]

theorem trigPinHandler_disabled (write : Writer) (hsel : i = s.tsel n)
    (hedge : b = true ∨ s.params.levelFallingTriggers = true) (hen : s.en n = false) :
    trigPinHandler write n i b s = .next (s.raise (.triggerWhileDisabled n)) := by
  have not_a_fall : ¬(b = false ∧ s.params.levelFallingTriggers = false) := by
    rintro ⟨rfl, hfalling⟩
    simp [hfalling] at hedge
  rw [trigPinHandler, if_neg (not_not.mpr hsel), if_neg not_a_fall, if_pos hen]

theorem trigPinHandler_runs (write : Writer) (hsel : i = s.tsel n) (hb : b = true) (hen : s.en n = true)
    (htest : s.test n = false) : trigPinHandler write n i b s = run write n s := by
  rw [trigPinHandler, if_neg (not_not.mpr hsel), if_neg (by simp [hb]), if_neg (by simp [hen]), if_neg (by simp [htest])]

end

/-! ### The wire -/

/-- Another device's output and the trigger input bound to it, both in the new state. -/
def wireMoved (k : Nat) (p : ExtPin) (n : Chan) (i : Source) (b : Bool) (s : State) : State :=
  { s.modChan n (fun c => { c with trig := c.trig.set i { c.trig[i] with state := b } }) with
    extPins := s.extPins.set k { p with state := b }
    hist := s.hist ++ [.sigWrite (.pin (.ext k)) (pinVal b)] }

theorem wireMoved_chan (k : Nat) (p : ExtPin) (n : Chan) (i : Source) (b : Bool) (s : State) :
    (wireMoved k p n i b s).chan n =
      { s.chan n with trig := (s.chan n).trig.set i { (s.chan n).trig[i] with state := b } } := by
  simp [wireMoved, State.chan, State.modChan]

theorem wireMoved_only (k : Nat) (p : ExtPin) (n : Chan) (i : Source) (b : Bool) (s : State) :
    OnlyChannel n { s with extPins := s.extPins.set k { p with state := b } } (wireMoved k p n i b s) :=
  (OnlyChannel.modChan { s with extPins := s.extPins.set k { p with state := b } } n fun c =>
    { c with trig := c.trig.set i { c.trig[i] with state := b } }).with_hist _

/-- The state in which the handler of the trigger input is called. -/
def wireCalled (k : Nat) (p : ExtPin) (n : Chan) (i : Source) (b : Bool) (s : State) : State :=
  { (wireMoved k p n i b s).record (.callback (.pin (.trig n i)) (pinVal b)) with
    propagating := .pin (.ext k) :: s.propagating }

theorem topWrite_succ_succ (s : State) : ∃ j, topWrite s = sigWrite (j + 2) :=
  ⟨15 + s.extPins.length + s.extPorts.length, by unfold topWrite nestBound; congr 1; omega⟩

section
variable {s : State} {k : Nat} {p : ExtPin} {n : Chan} {i : Source} {b : Bool} (hp : s.extPins[k]? = some p)
  (hout : p.mode = .out) (hne : p.state ≠ b) (hstill : (.pin (.ext k)) ∉ s.propagating)
  (hinputs : s.inputsOf (.pin (.ext k)) = [.pin (.trig n i)])
include hp hout hne hstill hinputs

/-- The write is the delivery to the one input. -/
theorem exec_pinWrite_wire : ∃ j, exec (.pinWrite (.ext k) b) s =
    if fires (s.chan n).trig[i].sens (pinVal (!b)) (pinVal b) then
      andThen (trigPinHandler (sigWrite (j + 1)) n i b (wireCalled k p n i b s)) fun t =>
        .next (t.leaveOutput (.pin (.ext k)))
    else .next (wireMoved k p n i b s) := by
  obtain ⟨j, hj⟩ := topWrite_succ_succ s
  have hdir := State.dir_extPin hp
  have hold : s.sig (.pin (.ext k)) = pinVal (!b) := by
    rw [State.sig_extPin hp, Bool.eq_not.mpr hne]
  have hchange : s.fit (.pin (.ext k)) (pinVal b) ≠ s.sig (.pin (.ext k)) := by
    rw [fit_pinVal, hold, ne_eq, pinVal_inj]; simp
  have set_both : ((s.record (.sigWrite (.pin (.ext k)) (pinVal b))).enterOutput (.pin (.ext k)) (pinVal b)).setSig
      (.pin (.trig n i)) (pinVal b) =
      { wireMoved k p n i b s with propagating := .pin (.ext k) :: s.propagating } := by
    rw [State.enterOutput, State.setSig_extPin (s := s.record _) hp]
    simp [State.setSig, wireMoved, State.record, State.modChan]
  have same_sens : ({ wireMoved k p n i b s with propagating := .pin (.ext k) :: s.propagating } : State).sens
      (.pin (.trig n i)) = (s.chan n).trig[i].sens := by
    change ((wireMoved k p n i b s).chan n).trig[i].sens = _
    rw [wireMoved_chan]
    simp
  have left : ({ wireMoved k p n i b s with propagating := .pin (.ext k) :: s.propagating } : State).leaveOutput
      (.pin (.ext k)) = wireMoved k p n i b s := by
    simp [State.leaveOutput, wireMoved]
  refine ⟨j, ?_⟩
  rw [exec_pinWrite (List.getElem?_eq_some_iff.mp hp).1, hj, sigWrite_succ,
    writeSignal_change _ (by rw [hdir, pinDir_eq_output hout]) hchange hstill, hinputs, deliver, fit_pinVal, hold, deliverOne,
    set_both, same_sens]
  simp only [deliver, andThen_next_right]
  by_cases hfires : fires (s.chan n).trig[i].sens (pinVal (!b)) (pinVal b) = true
  · rw [if_pos hfires, if_pos (by rw [hfires]; rfl), callback, pinVal_getLsbD]; rfl
  · rw [if_neg hfires, if_neg (by rw [Bool.eq_false_iff.mpr hfires]; exact Bool.false_ne_true), andThen_next, left]

/-- An edge that the sensitivity does not pass moves the wire only. -/
theorem exec_pinWrite_wire_blocked
    (h : (s.chan n).trig[i].sens = .posedge ∧ b = false ∨ (s.chan n).trig[i].sens = .negedge ∧ b = true) :
    exec (.pinWrite (.ext k) b) s = .next (wireMoved k p n i b s) := by
  obtain ⟨j, hj⟩ := exec_pinWrite_wire hp hout hne hstill hinputs
  rw [hj, if_neg (Bool.eq_false_iff.mp (fires_edge_blocked h))]

/-- An edge that the sensitivity passes calls the handler. -/
theorem exec_pinWrite_wire_passed (h : (s.chan n).trig[i].sens = .posedge ∧ b = true ∨
      (s.chan n).trig[i].sens = .negedge ∧ b = false ∨ (s.chan n).trig[i].sens = .level) :
    ∃ j, exec (.pinWrite (.ext k) b) s =
      andThen (trigPinHandler (sigWrite (j + 1)) n i b (wireCalled k p n i b s)) fun t =>
        .next (t.leaveOutput (.pin (.ext k))) := by
  obtain ⟨j, hj⟩ := exec_pinWrite_wire hp hout hne hstill hinputs
  exact ⟨j, by rw [hj, if_pos (fires_edge_passed h)]⟩

end

section
variable (k : Nat) (p : ExtPin) (n : Chan) (i : Source) (b : Bool) (s : State)

theorem wireCalled_chan : (wireCalled k p n i b s).chan n =
    { s.chan n with trig := (s.chan n).trig.set i { (s.chan n).trig[i] with state := b } } :=
  wireMoved_chan k p n i b s

/-- The wire changes no field of CTRL[n]. -/
theorem wireCalled_views : (wireCalled k p n i b s).en n = s.en n ∧ (wireCalled k p n i b s).test n = s.test n ∧
    (wireCalled k p n i b s).modeField n = s.modeField n ∧ (wireCalled k p n i b s).sbyte n = s.sbyte n ∧
    (wireCalled k p n i b s).dbyte n = s.dbyte n ∧ (wireCalled k p n i b s).sinc n = s.sinc n ∧
    (wireCalled k p n i b s).dinc n = s.dinc n :=
  ctrl_views_congr rfl (by rw [wireCalled_chan])

/-- Left without a transfer, the wire has moved and the call is recorded. -/
theorem leaveOutput_wireCalled : (wireCalled k p n i b s).leaveOutput (.pin (.ext k)) =
    (wireMoved k p n i b s).record (.callback (.pin (.trig n i)) (pinVal b)) := by
  simp [State.leaveOutput, wireCalled, wireMoved, State.record]

theorem leaveOutput_raise (s : State) (q : Sig) (e : Err) : (s.raise e).leaveOutput q = (s.leaveOutput q).raise e := rfl

end

/-- Settles O43: the sensitivity first, then the handler's own checks. -/
theorem signalTriggerNotAccepted : Obligations.SignalTriggerNotAccepted := by
  rintro s t k p n i b hp hout hne hstill hinputs rfl
  obtain ⟨ven, vtest, -⟩ := wireCalled_views k p n i b s
  refine ⟨exec_pinWrite_wire_blocked hp hout hne hstill hinputs, fun hsens => ?_⟩
  obtain ⟨j, hj⟩ := exec_pinWrite_wire_passed hp hout hne hstill hinputs hsens
  refine ⟨fun hignored => ?_, fun hsel hedge hen => ?_⟩
  · rw [hj, trigPinHandler_ignored _ (by rw [ven, vtest]; exact hignored), andThen_next, leaveOutput_wireCalled]
    rfl
  · rw [hj, trigPinHandler_disabled (s := wireCalled k p n i b s) _ hsel hedge (ven.trans hen), andThen_next, leaveOutput_raise,
      leaveOutput_wireCalled]
    rfl

/-! ### A transfer from an edge -/

theorem OnlyChannel.leaveOutput {n : Chan} {p : Sig} {s t : State}
    (h : OnlyChannel n { s with propagating := p :: s.propagating } t) : OnlyChannel n s (t.leaveOutput p) := by
  refine ⟨h.others, h.cfg, h.extPins, h.extPorts, h.bindings, ?_, h.inCallback, h.otherRegs, h.faultMark, h.refusalMark,
    h.params, h.pending⟩
  rw [State.leaveOutput_propagating, h.propagating, List.erase_cons_head]

/-- The transition that Single mode ends with (43_dma_transfer.md R117). -/
def singleEnd (last : Prop) [Decidable last] : Pulse := if last then .done else .request

theorem pulsePin_singleEnd (n : Chan) (last : Prop) [Decidable last] :
    pulsePin n (singleEnd last) = if last then .done n else .reqo n := by
  unfold singleEnd; split <;> rfl

theorem sens_passes_rise {sens : Sens} (h : sens ≠ .negedge) :
    sens = .posedge ∧ true = true ∨ sens = .negedge ∧ true = false ∨ sens = .level := by
  cases sens with
  | level => exact .inr (.inr rfl)
  | negedge => exact absurd rfl h
  | posedge => exact .inl ⟨rfl, rfl⟩

/-- Settles O44: the handler runs one unit from the state with the wire high, and its pulse reaches nobody. -/
theorem pinWriteSingleTransfer : Obligations.PinWriteSingleTransfer := by
  intro s k p n i u hp hout hlow hstill hinputs hsens hsel hen htest hidle hmode hbytes hu hsize hclear hdone hreqo
  obtain ⟨j, hj⟩ := exec_pinWrite_wire_passed hp hout (by simp [hlow]) hstill hinputs (sens_passes_rise hsens)
  have hz := wireCalled_chan k p n i true s
  obtain ⟨ven, vtest, vmode, vsbyte, vdbyte, vsinc, vdinc⟩ := wireCalled_views k p n i true s
  obtain ⟨t, es, hrun, only, hhist, hevents, hstores, hchan⟩ :=
    runSingle (sigWrite (j + 1)) n (wireCalled k p n i true s) u (by rw [hz]; exact hidle) (by rw [vmode]; exact hmode)
      (by rw [vsbyte, vdbyte]; exact hbytes) (by rw [vsbyte]; exact hu) (by rw [hz]; exact hsize) (by
        rw [backingCounters, hz]
        exact hclear.congr rfl vsinc vdinc)
  rw [hz] at hchan hevents hrun
  rw [← pulsePin_singleEnd] at hrun
  have quiet : QuietOutput t (pulsePin n (singleEnd ((s.chan n).size.cur.toNat = u))) := by
    have before : QuietOutput s (pulsePin n (singleEnd ((s.chan n).size.cur.toNat = u))) := by
      rw [pulsePin_singleEnd]; split
      · exact hdone
      · exact hreqo
    refine before.onlyChannel only.bindings (by rw [hchan]) (by rw [hchan]) ?_
    rw [only.propagating, wireCalled, List.mem_cons, not_or]
    exact ⟨by rw [pulsePin_singleEnd]; split <;> simp, before.still⟩
  refine ⟨(transferEnd n (singleEnd ((s.chan n).size.cur.toNat = u)) t).leaveOutput (.pin (.ext k)), es, ?_, ?_, ?_,
    hevents, fun hwf => ?_, ?_⟩
  · rw [hj, trigPinHandler_runs (s := wireCalled k p n i true s) _ hsel rfl (ven.trans hen) (vtest.trans htest), hrun]
    exact congrArg (andThen · _) (andThen_pulse_quiet j quiet)
  · exact ((wireMoved_only k p n i true s).with_hist _).trans (only.transferEnd _).leaveOutput
  · rw [← pulsePin_singleEnd]
    change t.hist ++ _ = _
    rw [hhist]
    simp [wireCalled, wireMoved, pinVal, State.record]
  · have stores := hstores hwf
    rw [hz] at stores
    exact stores.congr rfl rfl vdinc.symm rfl
  · rw [show ((transferEnd n (singleEnd ((s.chan n).size.cur.toNat = u)) t).leaveOutput (.pin (.ext k))).chan n =
      (transferEnd n (singleEnd ((s.chan n).size.cur.toNat = u)) t).chan n from rfl, transferEnd_chan, hchan, vsinc, vdinc]
    simp [hidle, wireCalled, wireMoved, State.record]

end Sys2Proof.Machine
end
